-- ==== Sys2Proof/Word.lean ====
section
/-!
DEFINITION. The word types of the block (spec 00_scope.md R10).
Everything that reads or lays out bit fields stands in Decode.lean and in Machine/, where a repair can mend it.
-/
namespace Sys2Proof

/-- One byte of a buffer or of a stream, bit 0 its least significant bit (R10). -/
abbrev Byte := BitVec 8

/-- A 16-bit register or little-endian stream field. -/
abbrev Half := BitVec 16

/-- A 32-bit register. -/
abbrev Word := BitVec 32

end Sys2Proof
end

