-- ==== Sys2Proof/Config.lean ====
section
/-!
DEFINITION. What an implementation of the block fixes (spec 00_scope.md R8, R9; 93_implementation_defined.md U4, U11 to
U13) and the values that the spec leaves free.

The numbers of R8 stand in ONE record, as row U12 asks; their values are in Machine/Constants.lean. The two open capacities
`IN_CAP` and `OUT_CAP` are no numbers here: they are read-only fields of State, so that every statement over all states
is a statement over every capacity of R9's ranges (log entry 1).

A FREE VALUE is an opaque constant without a body: nothing in Lean can evaluate it or prove a value of it.
-/
namespace Sys2Proof

/-- The three input planes of the upsampler (R171). -/
inductive Plane where
  | cb
  | cr
  | luma
deriving DecidableEq, Repr

/-- The constants of R8, the fixed capacity of R9, and the two value-like parameters of R9 at their defaults. -/
structure Constants where
  /-- `BGET_MAX`: the largest `n` of `get(n)`. -/
  bgetMax : Nat
  /-- `LZ_GUARD`: the value OR'd onto a fresh LZ control byte. -/
  lzGuard : Half
  /-- `LZ_SHORT_BIAS`: added to the 3-bit count of a short token. -/
  lzShortBias : Nat
  /-- `RL_BIAS`: added to the low 7 bits of a run-length control byte. -/
  rlBias : Nat
  /-- `CU_SHIFT`: the shift of the luma term and of the final sum. -/
  cuShift : Nat
  /-- `CU_B_CB`: the coefficient of Cb in B. -/
  cuBCb : Int
  /-- `CU_G_CB`: the coefficient of Cb in G, subtracted. -/
  cuGCb : Int
  /-- `CU_G_CR`: the coefficient of Cr in G, subtracted. -/
  cuGCr : Int
  /-- `CU_R_CR`: the coefficient of Cr in R. -/
  cuRCr : Int
  /-- The selector code of `DF.H` (`DF_CODES`). -/
  dfCodeH : Byte
  /-- The selector code of `DF.V` (`DF_CODES`). -/
  dfCodeV : Byte
  /-- The selector code of `DF.A` (`DF_CODES`). -/
  dfCodeA : Byte
  /-- `DBK_HDR`: the bytes of a delta block header. -/
  dbkHdr : Nat
  /-- `SEL_CAP`: the capacity of the selector buffer in bytes. -/
  selCap : Nat
  /-- `RL_REP_BIT`: the value of bit 7 of a run-length control byte that means a repeated pixel (D18). Log entry 11. -/
  rlRepBit : Bool
  /-- `CU_PLANE_ORDER`: the order in which the three planes stand in the input (D20). Log entry 12. -/
  cuPlaneOrder : List Plane
deriving DecidableEq, Repr

/-- FREE VALUE: the byte of `IN` at an address that nothing has written since the reset numbered by the first argument
(R39, R77; U7's `any value`). Log entry 4. -/
opaque Config.freeIn : Nat → Nat → Byte

/-- FREE VALUE: the byte of `SEL` at an address that nothing has written since the event numbered by the first argument
made the buffer unspecified (R39, R77, R213). Log entry 4. -/
opaque Config.freeSel : Nat → Nat → Byte

/-- FREE VALUE: the byte of `OUT` at an address for which the buffer holds no value (R39, R78, R213). Log entry 5. -/
opaque Config.freeOut : Nat → Nat → Byte

/-- FREE VALUE: what a host read of `OUT` answers when the spec does not permit it (R78). Log entry 5. -/
opaque Config.freeOutRead : Nat → Byte

/-- FREE VALUE: `IPOS` after a decode command that failed (R213). Log entry 3. -/
opaque Config.freeIpos : Nat → Word

/-- FREE VALUE: `OPOS` after a decode command that failed (R213). Log entry 3. -/
opaque Config.freeOpos : Nat → Word

/-- FREE VALUE: `OUT_LEN` after an `RLD`, `CUP`, `DLF` or `DBK` that failed (R213). Log entry 3. -/
opaque Config.freeOutLen : Nat → Word

/-- FREE VALUE: `CTL` after an `LZD` that failed (R213). Log entry 3. -/
opaque Config.freeCtl : Nat → Half

/-- FREE VALUE: `SEL_LEN` after a `DBK` that failed (R213). Log entry 3. -/
opaque Config.freeSelLen : Nat → Half

/-- FREE VALUE: `DEPTH` after a `DBK` that failed (R213). Log entry 3. -/
opaque Config.freeDepth : Nat → Half

end Sys2Proof
end

