-- ==== Sys2Proof/Machine/Constants.lean ====
section
/-!
DEFINITION. The values of the numbers of spec 00_scope.md R8 and the defaults of R9 (93_implementation_defined.md U12):
the one place to change when an audit finds another number.
-/
namespace Sys2Proof

/-- The values of R8 and the defaults of R9. Log entry 13. -/
def constants : Constants where
  bgetMax := 32
  lzGuard := 0xFF00#16
  lzShortBias := 4
  rlBias := 1
  cuShift := 7
  cuBCb := 226
  cuGCb := 43
  cuGCr := 89
  cuRCr := 179
  dfCodeH := 1#8
  dfCodeV := 2#8
  dfCodeA := 4#8
  dbkHdr := 8
  selCap := 65535
  rlRepBit := true
  cuPlaneOrder := [.cb, .cr, .luma]

end Sys2Proof
end

