-- ==== Sys2Proof/Syntax.lean ====
section
/-!
DEFINITION. The instructions of both levels (spec 00_scope.md R4, 30_encoding.md R90): one constructor per row of
spec/opcode_table.json, in the table's order. The operands are the fields of the encodings; operands that stand in
registers are not repeated here.
-/
namespace Sys2Proof

/-- The instructions: the seven host commands (R91) and the ten stream items (R95 to R106). -/
inductive Instr where
  /-- `CLR` (R196). -/
  | clr
  /-- `BGET n` (R131); `n` is the field `N` of the command word. -/
  | bget (n : BitVec 6)
  /-- `LZD` (R140). -/
  | lzd
  /-- `RLD` (R160). -/
  | rld
  /-- `CUP` (R170). -/
  | cup
  /-- `DLF` (R180). -/
  | dlf
  /-- `DBK` (R188). -/
  | dbk
  /-- The LZ control byte (R95, R142). -/
  | lzCtlb (bits : Byte)
  /-- `LZ.LIT` (R96, R145); the literal bytes are read from the stream by the meaning. -/
  | lzLit (n : Byte)
  /-- `LZ.SHORT` (R98, R146). -/
  | lzShort (dist : BitVec 12) (cnt : BitVec 3)
  /-- `LZ.LONG` (R99, R148); bit 1 of `c10` is the flag of the token. -/
  | lzLong (dist : BitVec 12) (c10 : BitVec 10) (lo2 : BitVec 2)
  /-- `RL.REP` (R102, R161); the chunk is read from the stream by the meaning. -/
  | rlRep (cnt : BitVec 7)
  /-- `RL.RAW` (R102, R162); the chunks are read from the stream by the meaning. -/
  | rlRaw (cnt : BitVec 7)
  /-- `DF.H`, selector code 1 (R184). -/
  | dfH
  /-- `DF.V`, selector code 2 (R185). -/
  | dfV
  /-- `DF.A`, selector code 4 (R186). -/
  | dfA
  /-- The delta block header (R106, R188). -/
  | dbkHdr (skip depth width height : Half)
deriving DecidableEq, Repr

end Sys2Proof
end

