-- ==== Sys2Proof/WellFormed.lean ====
section
/-!
DEFINITION. Which terms of Instr the spec's encodings can spell as legal instructions (spec 30_encoding.md R92, R93,
R99). Every other field takes every value of its width (R95, R96, R98, R101, R103).
-/
namespace Sys2Proof

/-- The bit count of `BGET` is one of the legal values 0..32; 33..63 are reserved (R92, R93). -/
def bgetCountOk (n : BitVec 6) : Bool := n.toNat ≤ constants.bgetMax

/-- Bit 1 of the long token's `c10` is its flag, which is 0 (R99). -/
def longCountOk (c10 : BitVec 10) : Bool := !c10.getLsbD 1

/-- The instruction is one that the encodings of the spec can spell and that the spec calls legal. -/
def WellFormed : Instr → Bool
  | .clr => true
  | .bget n => bgetCountOk n
  | .lzd => true
  | .rld => true
  | .cup => true
  | .dlf => true
  | .dbk => true
  | .lzCtlb _ => true
  | .lzLit _ => true
  | .lzShort _ _ => true
  | .lzLong _ c10 _ => longCountOk c10
  | .rlRep _ => true
  | .rlRaw _ => true
  | .dfH => true
  | .dfV => true
  | .dfA => true
  | .dbkHdr _ _ _ _ => true

end Sys2Proof
end

