-- ==== Sys2Proof/Decode.lean ====
section
/-!
DEFINITION. The decoder and the encoder (spec 30_encoding.md). What an item's bits mean depends on where it stands: the
`context` column of the opcode table (R112). So the decoder takes a context, which the machine finds in its state, and
the item's bytes, lowest index first; it is total and rejects by name.
-/
namespace Sys2Proof

/-- Where an item is read, which is what has to be known besides its bits (R107, R112). -/
inductive Context where
  /-- A word written to `CMD` (R91). -/
  | command
  /-- The LZ stream, the control word exhausted (R94, R95). -/
  | lzControl
  /-- The LZ stream after a control bit of 0 (R95, R96). -/
  | lzLiteral
  /-- The LZ stream after a control bit of 1 (R95, R97). -/
  | lzBackref
  /-- The run-length stream, at a packet (R102). -/
  | runLength
  /-- A selector byte of a row (R104). -/
  | selector
  /-- The start of a delta block (R106). -/
  | blockHeader
deriving DecidableEq, Repr

/-- Why the decoder rejects. -/
inductive Reject where
  /-- The item needs more bytes than it was given. -/
  | truncated
  /-- The command word is not one of the table's rows (R93). -/
  | illegalCommand (word : Half)
  /-- The selector byte is not 1, 2 or 4 (R105). -/
  | unknownSelector (code : Byte)
deriving DecidableEq, Repr

/-- The decoder's answer. -/
inductive Decoded where
  | instr (i : Instr)
  | reject (r : Reject)
deriving DecidableEq, Repr

/-- A command word: the row of R91 whose `c & mask = match`. `BGET` with `N` in 33..63 selects the row of `BGET`, whose
meaning refuses it (R131); every other word outside the table is illegal (R93). Log entry 8. -/
def decodeCommand (c : Half) : Decoded :=
  let op : BitVec 4 := c.extractLsb' 12 4
  let rsv : BitVec 6 := c.extractLsb' 6 6
  let n : BitVec 6 := c.extractLsb' 0 6
  if rsv ≠ 0#6 then .reject (.illegalCommand c)
  else if op = 0x1#4 then .instr (.bget n)
  else if n ≠ 0#6 then .reject (.illegalCommand c)
  else if op = 0x0#4 then .instr .clr
  else if op = 0x2#4 then .instr .lzd
  else if op = 0x3#4 then .instr .rld
  else if op = 0x4#4 then .instr .cup
  else if op = 0x5#4 then .instr .dlf
  else if op = 0x6#4 then .instr .dbk
  else .reject (.illegalCommand c)

/-- `LZ_LONG_DIST` (R9, R99): how the look-behind distance is taken from the 24 bits of a long token. DESIGN CHOICE of
the spec (D14), kept in one place. Log entry 9. -/
def lzLongDist (packed : BitVec 24) : BitVec 12 := packed.extractLsb' 12 12

/-- The inverse of `lzLongDist` together with the two count fields: the long token's 24 bits (R99, R110). -/
def lzLongPack (dist : BitVec 12) (c10 : BitVec 10) (lo2 : BitVec 2) : BitVec 24 := dist ++ c10 ++ lo2

/-- A back-reference token (R97 to R99): the flag is bit 3 of the first byte read. -/
def decodeBackref (b0 b1 : Byte) (rest : List Byte) : Decoded :=
  let w : Half := b1 ++ b0
  if w.getLsbD 3 then .instr (.lzShort (w.extractLsb' 4 12) (w.extractLsb' 0 3))
  else
    match rest with
    | [] => .reject .truncated
    | b2 :: _ =>
      let packed : BitVec 24 := b2 ++ w
      .instr (.lzLong (lzLongDist packed) (packed.extractLsb' 2 10) (packed.extractLsb' 0 2))

/-- The control byte of a run-length packet (R102). The polarity of bit 7 is `RL_REP_BIT`. -/
def decodePacket (c : Byte) : Decoded :=
  if c.getLsbD 7 = constants.rlRepBit then .instr (.rlRep (c.extractLsb' 0 7))
  else .instr (.rlRaw (c.extractLsb' 0 7))

/-- A selector byte: the whole byte is compared (R104, R105). -/
def decodeSelector (b : Byte) : Decoded :=
  if b = constants.dfCodeH then .instr .dfH
  else if b = constants.dfCodeV then .instr .dfV
  else if b = constants.dfCodeA then .instr .dfA
  else .reject (.unknownSelector b)

/-- The decoder: the item at the head of the bytes, read in its context. A multi-byte field is little-endian (R60), so
the first byte is the low one. -/
def decode (c : Context) (bs : List Byte) : Decoded :=
  match c with
  | .command =>
    match bs with
    | b0 :: b1 :: _ => decodeCommand (b1 ++ b0)
    | _ => .reject .truncated
  | .lzControl =>
    match bs with
    | b :: _ => .instr (.lzCtlb b)
    | [] => .reject .truncated
  | .lzLiteral =>
    match bs with
    | b :: _ => .instr (.lzLit b)
    | [] => .reject .truncated
  | .lzBackref =>
    match bs with
    | b0 :: b1 :: rest => decodeBackref b0 b1 rest
    | _ => .reject .truncated
  | .runLength =>
    match bs with
    | b :: _ => decodePacket b
    | [] => .reject .truncated
  | .selector =>
    match bs with
    | b :: _ => decodeSelector b
    | [] => .reject .truncated
  | .blockHeader =>
    match bs with
    | s0 :: s1 :: d0 :: d1 :: w0 :: w1 :: h0 :: h1 :: _ =>
      .instr (.dbkHdr (s1 ++ s0) (d1 ++ d0) (w1 ++ w0) (h1 ++ h0))
    | _ => .reject .truncated

/-- The context in which an instruction is read. -/
def itemContext : Instr → Context
  | .clr => .command
  | .bget _ => .command
  | .lzd => .command
  | .rld => .command
  | .cup => .command
  | .dlf => .command
  | .dbk => .command
  | .lzCtlb _ => .lzControl
  | .lzLit _ => .lzLiteral
  | .lzShort _ _ => .lzBackref
  | .lzLong _ _ _ => .lzBackref
  | .rlRep _ => .runLength
  | .rlRaw _ => .runLength
  | .dfH => .selector
  | .dfV => .selector
  | .dfA => .selector
  | .dbkHdr _ _ _ _ => .blockHeader

/-- How many bytes of its stream (or of the command word) the item's own fields take: literal bytes, chunks, selectors
and payload come after them (R90, R107). -/
def headLength : Instr → Nat
  | .clr => 2
  | .bget _ => 2
  | .lzd => 2
  | .rld => 2
  | .cup => 2
  | .dlf => 2
  | .dbk => 2
  | .lzCtlb _ => 1
  | .lzLit _ => 1
  | .lzShort _ _ => 2
  | .lzLong _ _ _ => 3
  | .rlRep _ => 1
  | .rlRaw _ => 1
  | .dfH => 1
  | .dfV => 1
  | .dfA => 1
  | .dbkHdr _ _ _ _ => constants.dbkHdr

/-! ### The encoder -/

/-- The two bytes of a little-endian 16-bit value, the low one first (R60). -/
def le16 (w : Half) : List Byte := [w.extractLsb' 0 8, w.extractLsb' 8 8]

/-- The three bytes of a little-endian 24-bit value, the low one first (R60). -/
def le24 (w : BitVec 24) : List Byte := [w.extractLsb' 0 8, w.extractLsb' 8 8, w.extractLsb' 16 8]

/-- A command word from its three fields (R91); the reserved field is 0. -/
def commandWord (op : BitVec 4) (n : BitVec 6) : Half := op ++ 0#6 ++ n

/-- The control byte of a packet: bit 7 the kind, bits 6:0 the count less its bias (R102, R110). -/
def packetByte (kind : Bool) (cnt : BitVec 7) : Byte := BitVec.ofBool kind ++ cnt

/-- The bytes of an instruction's own fields, by the encoding tables of 30_encoding.md (R91, R95 to R106, R110). -/
def encode : Instr → List Byte
  | .clr => le16 (commandWord 0x0#4 0#6)
  | .bget n => le16 (commandWord 0x1#4 n)
  | .lzd => le16 (commandWord 0x2#4 0#6)
  | .rld => le16 (commandWord 0x3#4 0#6)
  | .cup => le16 (commandWord 0x4#4 0#6)
  | .dlf => le16 (commandWord 0x5#4 0#6)
  | .dbk => le16 (commandWord 0x6#4 0#6)
  | .lzCtlb bits => [bits]
  | .lzLit n => [n]
  | .lzShort dist cnt => le16 (dist ++ 1#1 ++ cnt)
  | .lzLong dist c10 lo2 => le24 (lzLongPack dist c10 lo2)
  | .rlRep cnt => [packetByte constants.rlRepBit cnt]
  | .rlRaw cnt => [packetByte (!constants.rlRepBit) cnt]
  | .dfH => [constants.dfCodeH]
  | .dfV => [constants.dfCodeV]
  | .dfA => [constants.dfCodeA]
  | .dbkHdr skip depth width height => le16 skip ++ le16 depth ++ le16 width ++ le16 height

/-! ### The items as the spec writes them (R110) -/

/-- `SHORT look, repeat`: none outside `0 <= look <= 4095`, `4 <= repeat <= 11` (R110). -/
def writtenShort (look count : Nat) : Option Instr :=
  if look ≤ 4095 ∧ 4 ≤ count ∧ count ≤ 11 then
    some (.lzShort (BitVec.ofNat 12 look) (BitVec.ofNat 3 (count - constants.lzShortBias)))
  else none

/-- `LONG look, repeat`: none outside `0 <= look <= 4095`, `4 <= repeat <= 4091` and where `(repeat >> 2) mod 4` is not 1
or 2, which no token can spell (R100, R110). -/
def writtenLong (look count : Nat) : Option Instr :=
  if look ≤ 4095 ∧ 4 ≤ count ∧ count ≤ 4091 ∧ (count / 4 % 4 = 1 ∨ count / 4 % 4 = 2) then
    some (.lzLong (BitVec.ofNat 12 look) (BitVec.ofNat 10 (count / 4 - 1)) (BitVec.ofNat 2 (count % 4)))
  else none

/-- `REP count`: none outside `1 <= count <= 128` (R110). -/
def writtenRep (count : Nat) : Option Instr :=
  if 1 ≤ count ∧ count ≤ 128 then some (.rlRep (BitVec.ofNat 7 (count - constants.rlBias))) else none

/-- `RAW count`: none outside `1 <= count <= 128` (R110). -/
def writtenRaw (count : Nat) : Option Instr :=
  if 1 ≤ count ∧ count ≤ 128 then some (.rlRaw (BitVec.ofNat 7 (count - constants.rlBias))) else none

/-! ### Words numbered as the opcode table numbers them -/

/-- The first `k` bytes of the number `w`, the least significant first: the table's bit 0 is the least significant bit
of the first byte (R112). -/
def tableBytes : Nat → Nat → List Byte
  | 0, _ => []
  | k + 1, w => BitVec.ofNat 8 w :: tableBytes k (w / 256)

/-- How many bytes the host's word is laid out in: the longest head (8 bytes, R106) and as many zero bytes after it. -/
def tableSpan : Nat := 16

/-- Is the 16-bit word a row of the command table? -/
def isCommandWord (w : Nat) : Bool :=
  match decodeCommand (BitVec.ofNat 16 w) with
  | .instr _ => true
  | .reject _ => false

/-- The context in which a bare word of the opcode table is read. The table's rows overlap across contexts (R112), and a
bare word carries none, so the model tries the contexts whose rows have the most fixed bits first. Log entry 10. -/
def tableContext (nbits w : Nat) : Option Context :=
  if nbits = 16 then
    if isCommandWord w then some .command
    else if w.testBit 3 then some .lzBackref
    else some .command
  else if nbits = 8 then
    match decodeSelector (BitVec.ofNat 8 w) with
    | .instr _ => some .selector
    | .reject _ => some .runLength
  else if nbits = 24 then some .lzBackref
  else if nbits = 64 then some .blockHeader
  else none

/-- The instruction the decoder reads from a bare word of the opcode table, every bit above `nbits` being 0. -/
def decodeTableWord (nbits w : Nat) : Option Instr :=
  match tableContext nbits w with
  | none => none
  | some c =>
    match decode c (tableBytes tableSpan w) with
    | .instr i => some i
    | .reject _ => none

end Sys2Proof
end

