-- ==== Sys2Proof/Machine/State.lean ====
section
/-!
DEFINITION. The state of the block as plain data (spec 10_state.md R20 to R39), the reasons a step can stop, and the
state after reset (R39, R236).

The architectural state is what R21 lists: sixteen registers (fifteen of them hold a value, `CMD` holds none, R35) and
the buffers `IN`, `SEL` and `OUT`. STATUS and ERR are held as the values they can have (U10: a model's state type should
not contain the codes that never occur); Machine/Flags.lean gives their codes. The last fields are the MODEL's own: the
capacities of R9, the host's pending actions, the place inside a running command, and the counters behind free values.
-/
namespace Sys2Proof.Machine

/-- The field `ST` of STATUS (R31); the code 3 never occurs. -/
inductive RunStatus where
  /-- 0: no command since reset or `CLR`. -/
  | idle
  /-- 1: the last command completed. -/
  | done
  /-- 2: the last command failed. -/
  | failed
deriving DecidableEq, Repr

/-- The failure kinds that the block has codes for (R206). -/
inductive FailKind where
  | outOfData
  | badBackReference
  | unknownDeltaFilter
  | sizeMismatch
  | illegalOperation
deriving DecidableEq, Repr

/-- A failure as it is raised: its kind, and the selector byte where the kind has a parameter (R206, R210). -/
inductive Failure where
  | outOfData
  | badBackReference
  | unknownDeltaFilter (code : Byte)
  | sizeMismatch
  | illegalOperation
deriving DecidableEq, Repr

/-- The commands that can fail after their start (R213). -/
inductive Command where
  | bget
  | lzd
  | rld
  | cup
  | dlf
  | dbk
deriving DecidableEq, Repr

/-- The two commands that share the delta filter's body (R180, R188). -/
inductive DeltaCommand where
  | dlf
  | dbk
deriving DecidableEq, Repr

/-- MODEL: where the block stands. Between commands it is `host`; the other values name the place inside a running
decode command whose stream items are executed one at a time. A command is atomic to the host (R74), so no host action
ever meets a value other than `host`. -/
inductive Phase where
  /-- No command is running: the block waits for the host (R20, R235). -/
  | host
  /-- Inside `LZD`, at the loop test of R140. -/
  | lzd
  /-- Inside `RLD`, at the loop test of R160. -/
  | rld
  /-- Inside `DBK`, before its header (R188). -/
  | dbkHeader
  /-- At the size checks of `DlfBody` (R180, R181). -/
  | body (c : DeltaCommand)
  /-- At the row loop of `DlfBody` (R180, R182). -/
  | rows (c : DeltaCommand)
deriving DecidableEq, Repr

/-- The sixteen registers of R22, in the order of their numbers. -/
inductive Csr where
  | cmd
  | status
  | err
  | errInfo
  | inLen
  | ipos
  | bpos
  | bres
  | outLen
  | opos
  | width
  | height
  | channels
  | selLen
  | depth
  | ctl
deriving DecidableEq, Repr

/-- What a host can do to the block: the complete list of R195. A register is named by its number, which may lie above
0xF (R23); a write of register 0 starts a command (R35). -/
inductive HostAction where
  /-- Read a register, `x[i]`. -/
  | readReg (i : Nat)
  /-- Write a register, `x[i] <- v`. -/
  | writeReg (i : Nat) (v : Word)
  /-- `HostWrite(IN:a, v)`. -/
  | writeIn (a : Nat) (v : Byte)
  /-- `HostWrite(SEL:a, v)`. -/
  | writeSel (a : Nat) (v : Byte)
  /-- `HostRead(IN:a)`. -/
  | readIn (a : Nat)
  /-- `HostRead(SEL:a)`. -/
  | readSel (a : Nat)
  /-- `HostRead(OUT:a)`. -/
  | readOut (a : Nat)
  /-- The reset event (R235). -/
  | reset
deriving DecidableEq, Repr

/-- A byte buffer: the (address, byte) pairs that hold a value, addresses strictly rising. An address that is not listed
holds NO value: nothing has given it one since the spec last called it unspecified (R39, R78, R213). -/
abbrev Mem := List Host.Cell

/-- The canonical form of a buffer: addresses strictly rising. -/
abbrev Mem.wf (m : Mem) : Prop := m.Pairwise fun x y => x.1 < y.1

/-- The state of the block. -/
structure State where
  /-- `STATUS.ST`, bits 1:0 of register 0x1 (R31). -/
  st : RunStatus
  /-- `STATUS.OUTV`, bit 2 of register 0x1 (R31). -/
  outv : Bool
  /-- `ERR`, register 0x2 (R32): the failure kind of the last command, none when it did not fail. -/
  err : Option FailKind
  /-- `ERRINFO`, register 0x3 (R32). -/
  errInfo : Word
  /-- `IN_LEN`, register 0x4 (R26). -/
  inLen : Word
  /-- `IPOS`, register 0x5, the byte cursor (R27). -/
  ipos : Word
  /-- `BPOS`, register 0x6, the bit cursor (R28). -/
  bpos : Word
  /-- `BRES`, register 0x7 (R29). -/
  bres : Word
  /-- `OUT_LEN`, register 0x8 (R26). -/
  outLen : Word
  /-- `OPOS`, register 0x9, the output cursor (R30). -/
  opos : Word
  /-- `WIDTH`, register 0xA (R25). -/
  width : Half
  /-- `HEIGHT`, register 0xB (R25). -/
  height : Half
  /-- `CHANNELS`, register 0xC (R25). -/
  channels : Byte
  /-- `SEL_LEN`, register 0xD (R34). -/
  selLen : Half
  /-- `DEPTH`, register 0xE (R34). -/
  depth : Half
  /-- `CTL`, register 0xF, the LZ control word (R33). -/
  ctl : Half
  /-- The buffer `IN` (R36). -/
  inBuf : Mem
  /-- The buffer `SEL` (R36). -/
  selBuf : Mem
  /-- The buffer `OUT` (R36). -/
  outBuf : Mem
  /-- MODEL: `IN_CAP` less 1, so that its type is R9's range 1..2^29 - 1. No step changes it. Log entry 1. -/
  inCapPred : Fin 536870911
  /-- MODEL: `OUT_CAP` less 1, so that its type is R9's range 1..2^32 - 1. No step changes it. Log entry 1. -/
  outCapPred : Fin 4294967295
  /-- MODEL: the place inside a running command. DESIGN CHOICE, log entry 7. -/
  phase : Phase
  /-- MODEL: the row `y` of the running delta filter's loop (R180); 0 between commands. Log entry 7. -/
  row : Nat
  /-- MODEL: the host actions still to be performed, in their one order (R75). Log entry 2. -/
  pending : List HostAction
  /-- MODEL: what the last host read returned, none before the first. Log entry 2. -/
  readData : Option Word
  /-- MODEL: the counter that free values are applied to. Log entries 3 and 15. -/
  fresh : Nat
  /-- MODEL: the value of `fresh` when the unlisted bytes of `IN` last became unspecified. Log entries 4 and 15. -/
  inSeed : Nat
  /-- MODEL: the value of `fresh` when the unlisted bytes of `SEL` last became unspecified. Log entries 4 and 15. -/
  selSeed : Nat
deriving DecidableEq, Repr

/-- Why the machine stops with a fault. -/
inductive Fault where
  /-- A host read of `IN` or `SEL` at an address at or beyond the buffer's capacity, where the spec says no byte is
  (R36, R73). Raised by Machine/System.lean. SAFE: the spec gives such a read no value. DESIGN CHOICE, log entry 6. -/
  | noSuchByte
  /-- A command's item loop did not end within its fuel. Raised by Machine/Stream.lean; unreachable by R153, R165 and
  R249 (every command ends). SAFE: were it reached, nothing could be claimed of the command. Log entry 17. -/
  | commandDidNotEnd
deriving DecidableEq, Repr

/-- Why an instruction has no meaning. -/
inductive Refusal where
  /-- The instruction has no meaning in this model yet. Raised by no arm of exec: every instruction has its meaning.
  SAFE: a refusal claims nothing. -/
  | notModelled (mnemonic : String)
deriving DecidableEq, Repr

/-- The state after reset (R39, R236): every register 0, `STATUS.ST` idle, `OUTV` 0, no failure recorded, the buffers
unspecified (nothing listed). The capacities are the largest of R9's ranges (log entry 1); no host action is pending
(log entry 2); the model's own counters start at the values of log entry 15. -/
def State.reset : State where
  st := .idle
  outv := false
  err := none
  errInfo := 0#32
  inLen := 0#32
  ipos := 0#32
  bpos := 0#32
  bres := 0#32
  outLen := 0#32
  opos := 0#32
  width := 0#16
  height := 0#16
  channels := 0#8
  selLen := 0#16
  depth := 0#16
  ctl := 0x0000#16
  inBuf := []
  selBuf := []
  outBuf := []
  inCapPred := ⟨536870910, by decide⟩
  outCapPred := ⟨4294967294, by decide⟩
  phase := .host
  row := 0
  pending := []
  readData := none
  fresh := 1
  inSeed := 0
  selSeed := 0

end Sys2Proof.Machine
end

