-- ==== Sys2Proof/Machine/Flags.lean ====
section
/-!
DEFINITION. The status codes (spec 10_state.md R31, R32; 60_exceptions.md R206) and the LZ control word's operations
(R33; 41_lz_backref.md R141 to R143). The block has no condition codes (R31).
-/
namespace Sys2Proof.Machine

/-- The code of `ST` in bits 1:0 of STATUS (R31). -/
def RunStatus.code : RunStatus → BitVec 2
  | .idle => 0#2
  | .done => 1#2
  | .failed => 2#2

/-- The code of a failure kind in `ERR` (R206). -/
def FailKind.code : FailKind → BitVec 4
  | .outOfData => 1#4
  | .badBackReference => 2#4
  | .unknownDeltaFilter => 3#4
  | .sizeMismatch => 4#4
  | .illegalOperation => 5#4

/-- The kind of a failure (R206). -/
def Failure.kind : Failure → FailKind
  | .outOfData => .outOfData
  | .badBackReference => .badBackReference
  | .unknownDeltaFilter _ => .unknownDeltaFilter
  | .sizeMismatch => .sizeMismatch
  | .illegalOperation => .illegalOperation

/-- What a failure leaves in `ERRINFO`: the selector byte, zero-extended, for the one kind with a parameter, else 0
(R32, R206, R210). -/
def Failure.info : Failure → Word
  | .outOfData => 0#32
  | .badBackReference => 0#32
  | .unknownDeltaFilter code => code.setWidth 32
  | .sizeMismatch => 0#32
  | .illegalOperation => 0#32

/-- STATUS as the host reads it: `OUTV` in bit 2, `ST` in bits 1:0 (R31). -/
def State.statusWord (s : State) : BitVec 3 := BitVec.ofBool s.outv ++ s.st.code

/-- ERR as the host reads it: 0 when the last command did not fail (R32, R206). -/
def State.errCode (s : State) : BitVec 4 :=
  match s.err with
  | none => 0#4
  | some k => k.code

/-! ### The LZ control word -/

/-- `CtlExhausted()`: no control bit is left (R141). -/
def ctlExhausted (ctl : Half) : Bool := !ctl.getLsbD 15

/-- `CtlRefill()`'s word for the control byte `b`: the guard OR'd onto it (R142). -/
def ctlRefill (b : Byte) : Half := constants.lzGuard ||| b.setWidth 16

/-- The control bit that `CtlTake()` returns: bit 7, the most significant one not yet taken (R143). -/
def ctlBit (ctl : Half) : Bool := ctl.getLsbD 7

/-- The word that `CtlTake()` leaves: each byte shifted left within its own eight bits (R143). -/
def ctlTake (ctl : Half) : Half :=
  let guard : Byte := ctl.extractLsb' 8 8
  let bits : Byte := ctl.extractLsb' 0 8
  (guard <<< 1) ++ (bits <<< 1)

end Sys2Proof.Machine
end

