-- ==== Sys2Proof/Machine/Operands.lean ====
section
/-!
DEFINITION. The operand forms of the block: capacities, sizes computed as unbounded integers (spec 00_scope.md R9, R11),
the bytes a command reads by the addressing forms of 20_memory.md R67, and the counts of the stream items (R100, R102).
-/
namespace Sys2Proof.Machine

/-! ### Capacities and sizes -/

/-- `IN_CAP` (R9). -/
def State.inCap (s : State) : Nat := s.inCapPred.val + 1

/-- `OUT_CAP` (R9). -/
def State.outCap (s : State) : Nat := s.outCapPred.val + 1

/-- `stride = WIDTH * CHANNELS`, the bytes of a row (R180). -/
def State.stride (s : State) : Nat := s.width.toNat * s.channels.toNat

/-- `total = WIDTH * HEIGHT * CHANNELS`, without wrap (R11, R160, R180). -/
def State.total (s : State) : Nat := s.width.toNat * s.height.toNat * s.channels.toNat

/-- The upsampler's input size: `W*H + 2*(W/2)*(H/2)` (R170, R171). -/
def State.cupNeed (s : State) : Nat :=
  s.width.toNat * s.height.toNat + 2 * (s.width.toNat / 2) * (s.height.toNat / 2)

/-- The upsampler's output size: `W*H*3` (R170, R174). -/
def State.cupTotal (s : State) : Nat := s.width.toNat * s.height.toNat * 3

/-- `Avail()`: the bytes of `IN` from `IPOS` to the end of the stream, 0 when `IPOS` lies beyond it (R14). -/
def State.avail (s : State) : Nat := s.inLen.toNat - s.ipos.toNat

/-- The bits that remain from `BPOS` to the end of the stream, 0 when `BPOS` lies beyond it (R131). -/
def State.bitsLeft (s : State) : Nat := 8 * s.inLen.toNat - s.bpos.toNat

/-! ### Reading a byte of a buffer -/

/-- The byte that a buffer holds at an address, none where it holds no value. -/
def Mem.read : Mem → Nat → Option Byte
  | [], _ => none
  | (b, v) :: rest, a => if a = b then some v else Mem.read rest a

/-- `IN[a]` (R13). A byte nothing has written since reset has an unspecified value: a free value (R77, log entry 4). -/
def State.inByte (s : State) (a : Nat) : Byte := (s.inBuf.read a).getD (Config.freeIn s.inSeed a)

/-- `SEL[a]` (R13), free where the buffer holds no value (R77, R213, log entry 4). -/
def State.selByte (s : State) (a : Nat) : Byte := (s.selBuf.read a).getD (Config.freeSel s.selSeed a)

/-- `OUT[a]` as a command reads it (R72): the value last written. A running command has given every byte below `OUT_LEN`
a value (R71), and reads no other (R70); where the buffer holds none the byte is a free value (log entry 5). -/
def State.outByte (s : State) (a : Nat) : Byte := (s.outBuf.read a).getD (Config.freeOut s.fresh a)

/-- `Bit(p)` of R62: bit `7 - p mod 8` of byte `p / 8` of `IN`. -/
def State.bitAt (s : State) (p : Nat) : Bool := (s.inByte (p / 8)).getLsbD (7 - p % 8)

/-- The value of the `n` bits from bit index `p` on, the first bit taken the most significant (R131, D8). -/
def State.bitsValue (s : State) (p : Nat) : Nat → Nat
  | 0 => 0
  | n + 1 => 2 * s.bitsValue p n + (s.bitAt (p + n)).toNat

/-- The bytes of the stream from address `a` on, at most `k` of them and none at or beyond `IN_LEN` (R26, R64). -/
def State.streamFrom (s : State) : Nat → Nat → List Byte
  | 0, _ => []
  | k + 1, a => if a < s.inLen.toNat then s.inByte a :: s.streamFrom k (a + 1) else []

/-- The bytes a decoder is shown at the byte cursor: as many as the longest head has (R106). -/
def State.streamWindow (s : State) : List Byte := s.streamFrom constants.dbkHdr s.ipos.toNat

/-! ### The counts of the stream items -/

/-- The repeat count of a short token (R100). -/
def shortRepeat (cnt : BitVec 3) : Nat := cnt.toNat + constants.lzShortBias

/-- The repeat count of a long token: `((c10 + 1) << 2) | lo2`, where `c10 + 1` never carries (R100). -/
def longRepeat (c10 : BitVec 10) (lo2 : BitVec 2) : Nat := (c10.toNat + 1) * 4 ||| lo2.toNat

/-- The count of a run-length packet (R102). -/
def packetCount (cnt : BitVec 7) : Nat := cnt.toNat + constants.rlBias

/-! ### The registers by number -/

/-- The registers in the order of their numbers (R22). -/
def csrTable : List Csr :=
  [.cmd, .status, .err, .errInfo, .inLen, .ipos, .bpos, .bres, .outLen, .opos, .width, .height, .channels, .selLen,
    .depth, .ctl]

/-- The register with a number, none above 0xF (R22, R23). -/
def csrOf (i : Nat) : Option Csr := csrTable[i]?

/-- What the host reads from a register, zero-extended to 32 bits; `CMD` reads 0 (R22, R23, R35). -/
def State.readCsr (s : State) : Csr → Word
  | .cmd => 0#32
  | .status => s.statusWord.setWidth 32
  | .err => s.errCode.setWidth 32
  | .errInfo => s.errInfo
  | .inLen => s.inLen
  | .ipos => s.ipos
  | .bpos => s.bpos
  | .bres => s.bres
  | .outLen => s.outLen
  | .opos => s.opos
  | .width => s.width.setWidth 32
  | .height => s.height.setWidth 32
  | .channels => s.channels.setWidth 32
  | .selLen => s.selLen.setWidth 32
  | .depth => s.depth.setWidth 32
  | .ctl => s.ctl.setWidth 32

/-- `x[i]`: a register read by number; a number above 0xF reads 0 (R23). -/
def State.readReg (s : State) (i : Nat) : Word :=
  match csrOf i with
  | some r => s.readCsr r
  | none => 0#32

end Sys2Proof.Machine
end

