-- ==== Sys2Proof/Machine/Ops.lean ====
section
/-!
DEFINITION. The named operations over buffers and registers: writes of a buffer, the stream primitives of 00_scope.md
R14, host writes (10_state.md R23, 20_memory.md R76), the start and the completion of a command, and RAISING A FAILURE
(60_exceptions.md R212, R213, R216), which is all the exception entry the block has. The block has no return from a
failure (R217): nothing is saved and control goes nowhere.
-/
namespace Sys2Proof.Machine

/-! ### Buffers -/

/-- Store a byte, keeping the canonical form. -/
def Mem.write : Mem → Nat → Byte → Mem
  | [], a, v => [(a, v)]
  | (b, w) :: rest, a, v =>
    if a < b then (a, v) :: (b, w) :: rest
    else if a = b then (a, v) :: rest
    else (b, w) :: Mem.write rest a v

/-- The bytes `0 .. n-1`, all 0 (R71, D16). Log entry 14. -/
def Mem.zeros (n : Nat) : Mem := (List.range n).map fun a => (a, 0#8)

/-! ### The stream and output primitives of R14 -/

/-- `InRead8()`: the byte at the byte cursor, and the cursor advanced by one; none when the cursor is at or beyond
`IN_LEN`, where the command raises `OutOfData` (R14, R64). -/
def State.inRead8 (s : State) : Option (Byte × State) :=
  if s.ipos.toNat < s.inLen.toNat then some (s.inByte s.ipos.toNat, { s with ipos := s.ipos + 1#32 })
  else none

/-- `OutPut(v)`: append one byte to the output (R14). -/
def State.outPut (s : State) (v : Byte) : State :=
  { s with outBuf := s.outBuf.write s.opos.toNat v, opos := s.opos + 1#32 }

/-- `for i in a .. a+k-1` over a state, in ascending order (R72). -/
def forUp (f : Nat → State → State) : Nat → Nat → State → State
  | 0, _, s => s
  | k + 1, a, s => forUp f k (a + 1) (f a s)

/-! ### The start and the end of a command -/

/-- The start of a decode command, after its pre-start checks: the failure record and `OUTV` are cleared, `OUT_LEN` is
the declared size, `OUT[0 .. OUT_LEN-1]` is all 0, `OPOS` is 0 (R71, R140, R160, R170, R180, R188). -/
def State.startDecode (s : State) (outLen : Word) (p : Phase) : State :=
  { s with
    err := none, errInfo := 0#32, outv := false, outLen := outLen,
    outBuf := Mem.zeros outLen.toNat, opos := 0#32, phase := p, row := 0 }

/-- The completion of a decode command: `STATUS.OUTV <- 1; STATUS.ST <- DONE` (R140, R160, R170, R180, R188). -/
def State.complete (s : State) : State :=
  { s with outv := true, st := .done, phase := .host, row := 0 }

/-! ### Failures -/

/-- What a command that failed after its start leaves unspecified (R213): the registers take free values and the buffers
hold no value. `BGET` leaves nothing unspecified. Log entry 3. -/
def State.forget (s : State) : Command → State
  | .bget => s
  | .lzd =>
    { s with
      outBuf := [], opos := Config.freeOpos s.fresh, ipos := Config.freeIpos s.fresh, ctl := Config.freeCtl s.fresh,
      fresh := s.fresh + 1 }
  | .rld =>
    { s with
      outBuf := [], opos := Config.freeOpos s.fresh, ipos := Config.freeIpos s.fresh,
      outLen := Config.freeOutLen s.fresh, fresh := s.fresh + 1 }
  | .cup =>
    { s with
      outBuf := [], opos := Config.freeOpos s.fresh, ipos := Config.freeIpos s.fresh,
      outLen := Config.freeOutLen s.fresh, fresh := s.fresh + 1 }
  | .dlf =>
    { s with
      outBuf := [], opos := Config.freeOpos s.fresh, ipos := Config.freeIpos s.fresh,
      outLen := Config.freeOutLen s.fresh, fresh := s.fresh + 1 }
  | .dbk =>
    { s with
      outBuf := [], opos := Config.freeOpos s.fresh, ipos := Config.freeIpos s.fresh,
      outLen := Config.freeOutLen s.fresh, selBuf := [], selSeed := s.fresh, selLen := Config.freeSelLen s.fresh,
      depth := Config.freeDepth s.fresh, fresh := s.fresh + 1 }

/-- `raise K(info)` inside the command `c` (R14, R212): the failure is latched in STATUS, ERR and ERRINFO, the command
ends, and what R213 calls unspecified after it is free. STATUS.OUTV is not written by the raise itself. -/
def State.raise (s : State) (c : Command) (f : Failure) : State :=
  { s.forget c with st := .failed, err := some f.kind, errInfo := f.info, phase := .host, row := 0 }

/-- A command refused before its start (R93, R216): `IllegalOperation` is latched and nothing else changes. -/
def State.refuse (s : State) : State :=
  { s with st := .failed, err := some .illegalOperation, errInfo := 0#32 }

/-! ### Host writes -/

/-- `x[i] <- v` for a register other than `CMD`: the low bits of `v` into an RW register, nothing for a read-only one
(R22, R23, R197). A write of `CMD` starts a command, Machine/Step.lean. -/
def State.writeCsr (s : State) (v : Word) : Csr → State
  | .cmd => s
  | .status => s
  | .err => s
  | .errInfo => s
  | .inLen => { s with inLen := v }
  | .ipos => { s with ipos := v }
  | .bpos => { s with bpos := v }
  | .bres => s
  | .outLen => { s with outLen := v }
  | .opos => s
  | .width => { s with width := v.setWidth 16 }
  | .height => { s with height := v.setWidth 16 }
  | .channels => { s with channels := v.setWidth 8 }
  | .selLen => { s with selLen := v.setWidth 16 }
  | .depth => s
  | .ctl => s

/-- A host write by number; a number above 0xF is ignored (R23). -/
def State.writeReg (s : State) (i : Nat) (v : Word) : State :=
  match csrOf i with
  | some r => s.writeCsr v r
  | none => s

/-- `HostWrite(IN:a, v)`; a write at or beyond the capacity is ignored (R76). -/
def State.hostWriteIn (s : State) (a : Nat) (v : Byte) : State :=
  if a < s.inCap then { s with inBuf := s.inBuf.write a v } else s

/-- `HostWrite(SEL:a, v)`; a write at or beyond the capacity is ignored (R76). -/
def State.hostWriteSel (s : State) (a : Nat) (v : Byte) : State :=
  if a < constants.selCap then { s with selBuf := s.selBuf.write a v } else s

/-! ### The registers' reset values -/

/-- Every register at its reset value; the buffers are not touched (R39, R196, R236). -/
def State.clearRegisters (s : State) : State :=
  { s with
    st := .idle, outv := false, err := none, errInfo := 0#32, inLen := 0#32, ipos := 0#32, bpos := 0#32, bres := 0#32,
    outLen := 0#32, opos := 0#32, width := 0#16, height := 0#16, channels := 0#8, selLen := 0#16, depth := 0#16,
    ctl := 0x0000#16 }

/-- The reset event (R235, R236): every register at its reset value and every byte of the buffers unspecified. What it
does to the model's own fields is log entry 15. -/
def State.resetEvent (s : State) : State :=
  { s.clearRegisters with
    inBuf := [], selBuf := [], outBuf := [], phase := .host, row := 0, inSeed := s.fresh, selSeed := s.fresh,
    fresh := s.fresh + 1 }

end Sys2Proof.Machine
end

