-- ==== Sys2Proof/Machine/BitCursor.lean ====
section
/-!
DEFINITION. The bit cursor: `BGET n` (spec 40_bit_cursor.md R131, R132).
-/
namespace Sys2Proof.Machine

/-- `BGET` after its pre-start checks (R131). -/
def State.bget (s : State) (n : Nat) : State :=
  let s := { s with err := none, errInfo := 0#32 }
  if s.bitsLeft < n then s.raise .bget .outOfData
  else
    { s with
      bres := BitVec.ofNat 32 (s.bitsValue s.bpos.toNat n), bpos := s.bpos + BitVec.ofNat 32 n, st := .done }

/-- `BGET n` (R131): `n > 32` and `IN_LEN > IN_CAP` are refused before the start (R216). -/
def execBget (n : BitVec 6) (s : State) : Host.Outcome State Fault Refusal :=
  if constants.bgetMax < n.toNat then .next s.refuse
  else if s.inCap < s.inLen.toNat then .next s.refuse
  else .next (s.bget n.toNat)

end Sys2Proof.Machine
end

