-- ==== Sys2Proof/Machine/ChromaUpsample.lean ====
section
/-!
DEFINITION. The planar-chroma upsampler: `CUP` (spec 43_chroma_upsample.md R170 to R176). All arithmetic is on
mathematical integers; `>> 7` is a floor division by 128 (R173).
-/
namespace Sys2Proof.Machine

/-- `sint8` of R12: the two's-complement value of a byte, -128 to 127. -/
def sint8 (b : Byte) : Int := b.toInt

/-- `clamp` of R11: limit an integer to 0..255, as a byte. -/
def clamp (v : Int) : Byte := BitVec.ofNat 8 (min v.toNat 255)

/-- The bytes of a plane (R171): chroma at a quarter of the resolution, luma at the full one. -/
def State.planeSize (s : State) : Plane → Nat
  | .cb => s.width.toNat / 2 * (s.height.toNat / 2)
  | .cr => s.width.toNat / 2 * (s.height.toNat / 2)
  | .luma => s.width.toNat * s.height.toNat

/-- The address of a plane in `IN` (R170): after the planes that stand before it in the order. -/
def State.planeBase (s : State) (p : Plane) : Nat :=
  s.ipos.toNat + ((constants.cuPlaneOrder.takeWhile (· ≠ p)).map s.planeSize).sum

/-- The chroma sample of a plane for pixel (x, y), -128..127 (R171). -/
def State.chromaSample (s : State) (p : Plane) (x y : Nat) : Int :=
  sint8 (s.inByte (s.planeBase p + (y / 2 * (s.width.toNat / 2) + x / 2)))

/-- The luma sample of pixel (x, y), 0..255 (R171). -/
def State.lumaSample (s : State) (x y : Nat) : Int :=
  (s.inByte (s.planeBase .luma + (y * s.width.toNat + x))).toNat

/-- The blue byte of a pixel (R173). -/
def blueOf (l cb : Int) : Byte :=
  clamp ((l * 2 ^ constants.cuShift + constants.cuBCb * cb) / 2 ^ constants.cuShift)

/-- The green byte of a pixel (R173). -/
def greenOf (l cb cr : Int) : Byte :=
  clamp ((l * 2 ^ constants.cuShift - constants.cuGCb * cb - constants.cuGCr * cr) / 2 ^ constants.cuShift)

/-- The red byte of a pixel (R173). -/
def redOf (l cr : Int) : Byte :=
  clamp ((l * 2 ^ constants.cuShift + constants.cuRCr * cr) / 2 ^ constants.cuShift)

/-- The body of the pixel loop (R170): blue, green and red of pixel (x, y) appended to the output (R174). -/
def cupPixel (y x : Nat) (s : State) : State :=
  let cb := s.chromaSample .cb x y
  let cr := s.chromaSample .cr x y
  let l := s.lumaSample x y
  ((s.outPut (blueOf l cb)).outPut (greenOf l cb cr)).outPut (redOf l cr)

/-- `CUP` after its pre-start checks (R170). -/
def State.cup (s : State) : State :=
  let t := s.startDecode (BitVec.ofNat 32 s.cupTotal) .host
  if t.avail < t.cupNeed then t.raise .cup .sizeMismatch
  else
    let u := forUp (fun y => forUp (cupPixel y) t.width.toNat 0) t.height.toNat 0 t
    { u with ipos := u.ipos + BitVec.ofNat 32 t.cupNeed }.complete

/-- `CUP` (R170): a stream or an output over capacity and an odd dimension are refused before the start (R176, R216). -/
def execCup (s : State) : Host.Outcome State Fault Refusal :=
  if s.inCap < s.inLen.toNat then .next s.refuse
  else if s.width.toNat % 2 = 1 ∨ s.height.toNat % 2 = 1 then .next s.refuse
  else if s.outCap < s.cupTotal then .next s.refuse
  else .next s.cup

end Sys2Proof.Machine
end

