-- ==== Sys2Proof/Machine/DeltaFilter.lean ====
section
/-!
DEFINITION. The rows of the delta filter under the three selector codes, and the delta block header (spec
44_delta_filter.md R180 to R190). A row's meaning reconstructs the row `row` of the state and moves on to the next.
-/
namespace Sys2Proof.Machine

/-- `s` of R180: the stored value at position `i` of the current row. `base` is `IPOS`, which the body leaves in place
until its end. -/
def State.stored (s : State) (i : Nat) : Byte := s.inByte (s.ipos.toNat + s.row * s.stride + i)

/-- `above` of R180: the reconstructed byte of the row above, 0 for row 0. -/
def State.above (s : State) (i : Nat) : Byte := if s.row = 0 then 0#8 else s.outByte ((s.row - 1) * s.stride + i)

/-- `left` of R180: the reconstructed byte of the previous pixel, `CHANNELS` positions back in the same row. -/
def State.left (s : State) (i : Nat) : Byte := s.outByte (s.row * s.stride + i - s.channels.toNat)

/-- The byte that `DF.H` reconstructs at position `i` (R184). -/
def State.dfHValue (s : State) (i : Nat) : Byte :=
  if i < s.channels.toNat then s.stored i else s.left i - s.stored i

/-- The byte that `DF.V` reconstructs at position `i` (R185). -/
def State.dfVValue (s : State) (i : Nat) : Byte := s.above i - s.stored i

/-- `(above + left) >> 1`, on the unwrapped sum (R186). -/
def averageOf (above left : Byte) : Byte := BitVec.ofNat 8 ((above.toNat + left.toNat) / 2)

/-- The byte that `DF.A` reconstructs at position `i` (R186). -/
def State.dfAValue (s : State) (i : Nat) : Byte :=
  if i < s.channels.toNat then s.stored i else averageOf (s.above i) (s.left i) - s.stored i

/-- One row: the `stride` bytes appended in ascending order, then the next row (R180). -/
def State.deltaRow (s : State) (value : State → Nat → Byte) : State :=
  let t := forUp (fun i u => u.outPut (value u i)) s.stride 0 s
  { t with row := t.row + 1 }

/-- A row under selector 1 (R184). -/
def State.dfH (s : State) : State := s.deltaRow State.dfHValue

/-- A row under selector 2 (R185). -/
def State.dfV (s : State) : State := s.deltaRow State.dfVValue

/-- A row under selector 4 (R186). -/
def State.dfA (s : State) : State := s.deltaRow State.dfAValue

/-- The selector load of `DBK` (R189): `k` bytes of the stream into `SEL` from index `y` on. -/
def loadSelectors : Nat → Nat → State → State
  | 0, _, s => s
  | k + 1, y, s =>
    match s.inRead8 with
    | none => s.raise .dbk .outOfData
    | some (b, t) => loadSelectors k (y + 1) { t with selBuf := t.selBuf.write y b }

/-- The delta block header (R188 to R190): the two skipped bytes have no effect, the depth is kept, width and height must
equal the declared ones (width first), then the selectors are loaded. After it the body's size checks come next. -/
def State.dbkHdr (s : State) (depth width height : Half) : State :=
  let t := { s with depth := depth }
  if width ≠ t.width then t.raise .dbk .sizeMismatch
  else if height ≠ t.height then t.raise .dbk .sizeMismatch
  else if t.avail < t.height.toNat then t.raise .dbk .sizeMismatch
  else { loadSelectors t.height.toNat 0 t with selLen := t.height, phase := .body .dbk, row := 0 }

/-- `DF.H` (R184). -/
def execDfH (s : State) : Host.Outcome State Fault Refusal := .next s.dfH

/-- `DF.V` (R185). -/
def execDfV (s : State) : Host.Outcome State Fault Refusal := .next s.dfV

/-- `DF.A` (R186). -/
def execDfA (s : State) : Host.Outcome State Fault Refusal := .next s.dfA

/-- The delta block header (R106, R188); `skip` is read and ignored (R65, R190). -/
def execDbkHdr (_skip depth width height : Half) (s : State) : Host.Outcome State Fault Refusal :=
  .next (s.dbkHdr depth width height)

end Sys2Proof.Machine
end

