-- ==== Sys2Proof/Machine/LzTokens.lean ====
section
/-!
DEFINITION. The items of the LZ stream: the control byte and the three tokens (spec 41_lz_backref.md R142 to R151). Each
meaning starts where the decoder stops: the item's own bytes are consumed and, for a token, its control bit is taken.
-/
namespace Sys2Proof.Machine

/-- The copy loop of `LzLit()` (R145): stop when the output is full, before the next literal byte is read (R151). -/
def lzLitLoop : Nat → State → State
  | 0, s => s
  | k + 1, s =>
    if s.opos = s.outLen then s
    else
      match s.inRead8 with
      | none => s.raise .lzd .outOfData
      | some (b, t) => lzLitLoop k (t.outPut b)

/-- The copy loop of `LzCopy` (R149): ascending and byte by byte, each read seeing the earlier writes; stop when the
output is full (R151). -/
def lzCopyLoop : Nat → Nat → State → State
  | 0, _, s => s
  | k + 1, src, s => if s.opos = s.outLen then s else lzCopyLoop k (src + 1) (s.outPut (s.outByte src))

/-- `LzCopy(look, repeat)` (R147, R149): the bounds check, then the copy. -/
def State.lzCopy (s : State) (look count : Nat) : State :=
  if s.opos.toNat < look then s.raise .lzd .badBackReference
  else lzCopyLoop count (s.opos.toNat - look) s

/-- `CtlRefill()` with the control byte read (R142). -/
def State.lzCtlb (s : State) (bits : Byte) : State := { s with ctl := ctlRefill bits }

/-- `LZ.LIT` (R145). -/
def State.lzLit (s : State) (n : Byte) : State := lzLitLoop n.toNat s

/-- `LZ.SHORT` (R146). -/
def State.lzShort (s : State) (dist : BitVec 12) (cnt : BitVec 3) : State := s.lzCopy dist.toNat (shortRepeat cnt)

/-- `LZ.LONG` (R148). -/
def State.lzLong (s : State) (dist : BitVec 12) (c10 : BitVec 10) (lo2 : BitVec 2) : State :=
  s.lzCopy dist.toNat (longRepeat c10 lo2)

/-- The LZ control byte (R95, R142). -/
def execLzCtlb (bits : Byte) (s : State) : Host.Outcome State Fault Refusal := .next (s.lzCtlb bits)

/-- `LZ.LIT` (R145): `OutOfData` when a literal byte that is to be copied lies at or beyond `IN_LEN`. -/
def execLzLit (n : Byte) (s : State) : Host.Outcome State Fault Refusal := .next (s.lzLit n)

/-- `LZ.SHORT` (R146): `BadBackReference` when the look-behind reaches before the output start (R147). -/
def execLzShort (dist : BitVec 12) (cnt : BitVec 3) (s : State) : Host.Outcome State Fault Refusal :=
  .next (s.lzShort dist cnt)

/-- `LZ.LONG` (R148): `BadBackReference` when the look-behind reaches before the output start (R147). -/
def execLzLong (dist : BitVec 12) (c10 : BitVec 10) (lo2 : BitVec 2) (s : State) :
    Host.Outcome State Fault Refusal :=
  .next (s.lzLong dist c10 lo2)

end Sys2Proof.Machine
end

