-- ==== Sys2Proof/Machine/RunLength.lean ====
section
/-!
DEFINITION. The packets of the run-length stream (spec 42_run_length.md R161 to R163). Each meaning starts after the
packet's control byte, which the decoder has consumed.
-/
namespace Sys2Proof.Machine

/-- Read a chunk of `k` bytes in full (R161), none when a byte of it lies at or beyond `IN_LEN`. -/
def readChunk : Nat → State → Option (List Byte × State)
  | 0, s => some ([], s)
  | k + 1, s =>
    match s.inRead8 with
    | none => none
    | some (b, t) =>
      match readChunk k t with
      | none => none
      | some (bs, u) => some (b :: bs, u)

/-- Append the bytes of a chunk to the output (R161). -/
def putChunk : List Byte → State → State
  | [], s => s
  | b :: bs, s => putChunk bs (s.outPut b)

/-- Copy a chunk of `k` bytes from the stream to the output (R162), none when a byte of it lies at or beyond `IN_LEN`. -/
def copyChunk : Nat → State → Option State
  | 0, s => some s
  | k + 1, s =>
    match s.inRead8 with
    | none => none
    | some (b, t) => copyChunk k (t.outPut b)

/-- The loop of `RlRep`: stop when the output is full, before the next copy (R161, R163). -/
def rlRepLoop (chunk : List Byte) : Nat → State → State
  | 0, s => s
  | k + 1, s => if s.opos = s.outLen then s else rlRepLoop chunk k (putChunk chunk s)

/-- The loop of `RlRaw`: stop when the output is full, before the next chunk is read (R162, R163). -/
def rlRawLoop : Nat → State → State
  | 0, s => s
  | k + 1, s =>
    if s.opos = s.outLen then s
    else
      match copyChunk s.channels.toNat s with
      | none => s.raise .rld .outOfData
      | some t => rlRawLoop k t

/-- `RlRep(count)` (R161): the chunk is read once, in full, first. -/
def State.rlRep (s : State) (cnt : BitVec 7) : State :=
  match readChunk s.channels.toNat s with
  | none => s.raise .rld .outOfData
  | some (chunk, t) => rlRepLoop chunk (packetCount cnt) t

/-- `RlRaw(count)` (R162). -/
def State.rlRaw (s : State) (cnt : BitVec 7) : State := rlRawLoop (packetCount cnt) s

/-- `RL.REP` (R161): `OutOfData` when a byte of the chunk lies at or beyond `IN_LEN`. -/
def execRlRep (cnt : BitVec 7) (s : State) : Host.Outcome State Fault Refusal := .next (s.rlRep cnt)

/-- `RL.RAW` (R162): `OutOfData` when a byte to be copied lies at or beyond `IN_LEN`. -/
def execRlRaw (cnt : BitVec 7) (s : State) : Host.Outcome State Fault Refusal := .next (s.rlRaw cnt)

end Sys2Proof.Machine
end

