-- ==== Sys2Proof/Machine/Stream.lean ====
section
/-!
DEFINITION. How a running decode command goes on by one stream item (spec 30_encoding.md R94, R107, R108): the loop test
and the fetch of the next item, and the loop that makes the command atomic to the host (20_memory.md R74).
-/
namespace Sys2Proof.Machine

/-- What a running command does next. -/
inductive Fetched where
  /-- Execute the item, from the state in which its own bytes (and its control bit) are consumed. -/
  | item (i : Instr) (s : State)
  /-- No item: the command ended, by its loop test or by a raise, or passed on to its next part. -/
  | settled (s : State)
deriving DecidableEq, Repr

/-- The command that a phase belongs to. -/
def DeltaCommand.command : DeltaCommand → Command
  | .dlf => .dlf
  | .dbk => .dbk

/-- The byte cursor moved past an item's own bytes. -/
def State.consume (s : State) (n : Nat) : State := { s with ipos := s.ipos + BitVec.ofNat 32 n }

/-- Fetch the item at the byte cursor: a read past `IN_LEN` raises `OutOfData` (R64, R154, R160, R188). -/
def State.fetchAt (s : State) (ctx : Context) (cmd : Command) : Fetched :=
  match decode ctx s.streamWindow with
  | .instr i => .item i (s.consume (headLength i))
  | .reject _ => .settled (s.raise cmd .outOfData)

/-- The context of the next LZ item, which `CTL` decides (R94, R95, R141). -/
def State.lzContext (s : State) : Context :=
  if ctlExhausted s.ctl then .lzControl else if ctlBit s.ctl then .lzBackref else .lzLiteral

/-- The next item of an LZ stream: a control byte when the control word is exhausted; else a token, whose control bit is
taken (R140, R143, R144). -/
def State.fetchLz (s : State) : Fetched :=
  if ctlExhausted s.ctl then s.fetchAt s.lzContext .lzd
  else { s with ctl := ctlTake s.ctl }.fetchAt s.lzContext .lzd

/-- The row loop's selector (R182): rows in order, and the first unknown one raises. After the last row `IPOS` moves past
the payload (R183). -/
def State.fetchRow (s : State) (c : DeltaCommand) : Fetched :=
  if s.row < s.height.toNat then
    match decode .selector [s.selByte s.row] with
    | .instr i => .item i s
    | .reject _ => .settled (s.raise c.command (.unknownDeltaFilter (s.selByte s.row)))
  else .settled (s.consume s.total).complete

/-- The size checks of `DlfBody`, the payload first (R181). -/
def State.bodyChecks (s : State) (c : DeltaCommand) : State :=
  if s.avail < s.total then s.raise c.command .sizeMismatch
  else if s.selLen.toNat < s.height.toNat then s.raise c.command .sizeMismatch
  else { s with phase := .rows c, row := 0 }

/-- What the running command does next, by its phase. -/
def State.fetch (s : State) : Fetched :=
  match s.phase with
  | .host => .settled s
  | .lzd => if s.opos.toNat < s.outLen.toNat then s.fetchLz else .settled s.complete
  | .rld => if s.opos.toNat < s.outLen.toNat then s.fetchAt .runLength .rld else .settled s.complete
  | .dbkHeader => s.fetchAt .blockHeader .dbk
  | .body c => .settled (s.bodyChecks c)
  | .rows c => s.fetchRow c

/-- The effect of a stream item. A host command is no stream item and is never fetched from a stream. -/
def runItem (i : Instr) (s : State) : State :=
  match i with
  | .clr => s
  | .bget _ => s
  | .lzd => s
  | .rld => s
  | .cup => s
  | .dlf => s
  | .dbk => s
  | .lzCtlb bits => s.lzCtlb bits
  | .lzLit n => s.lzLit n
  | .lzShort dist cnt => s.lzShort dist cnt
  | .lzLong dist c10 lo2 => s.lzLong dist c10 lo2
  | .rlRep cnt => s.rlRep cnt
  | .rlRaw cnt => s.rlRaw cnt
  | .dfH => s.dfH
  | .dfV => s.dfV
  | .dfA => s.dfA
  | .dbkHdr _ depth width height => s.dbkHdr depth width height

/-- One turn of a running command: its next item, or its next part where no item stands. -/
def State.turn (s : State) : State :=
  match s.fetch with
  | .item i t => runItem i t
  | .settled t => t

/-- Turn after turn until the command has ended; none when the fuel runs out first. -/
def runToEnd : Nat → State → Option State
  | 0, s => if s.phase = .host then some s else none
  | k + 1, s => if s.phase = .host then some s else runToEnd k s.turn

/-- The whole of a started command in one step (R74). -/
def runCommand (fuel : Nat) (s : State) : Host.Outcome State Fault Refusal :=
  match runToEnd fuel s with
  | some t => .next t
  | none => .fault .commandDidNotEnd

end Sys2Proof.Machine
end

