-- ==== Sys2Proof/Machine/Commands.lean ====
section
/-!
DEFINITION. The decode commands that read a stream of items: `LZD` (spec 41_lz_backref.md R140), `RLD`
(42_run_length.md R160), `DLF` and `DBK` (44_delta_filter.md R180, R188). Each checks its pre-start conditions (R216),
starts, and runs its items to the end.
-/
namespace Sys2Proof.Machine

/-- The started `LZD` (R140): the control word is exhausted. -/
def State.lzdStart (s : State) : State := { s.startDecode s.outLen .lzd with ctl := 0x0000#16 }

/-- The started `RLD` (R160). -/
def State.rldStart (s : State) : State := s.startDecode (BitVec.ofNat 32 s.total) .rld

/-- The started `DLF` (R180). -/
def State.dlfStart (s : State) : State := s.startDecode (BitVec.ofNat 32 s.total) (.body .dlf)

/-- The started `DBK` (R188). -/
def State.dbkStart (s : State) : State := s.startDecode (BitVec.ofNat 32 s.total) .dbkHeader

/-- Turns that suffice for a stream in `IN` (R153): every item consumes a byte. -/
def State.streamFuel (s : State) : Nat := s.inLen.toNat + s.outLen.toNat + 1

/-- Turns that suffice for the delta filter (R249): the header, the size checks, the rows and the end. -/
def State.deltaFuel (s : State) : Nat := s.height.toNat + 3

/-- `LZD` (R140): `IN_LEN > IN_CAP` and `OUT_LEN > OUT_CAP` are refused before the start (R216). -/
def execLzd (s : State) : Host.Outcome State Fault Refusal :=
  if s.inCap < s.inLen.toNat then .next s.refuse
  else if s.outCap < s.outLen.toNat then .next s.refuse
  else runCommand s.streamFuel s.lzdStart

/-- `RLD` (R160): `IN_LEN > IN_CAP` and an output over `OUT_CAP` are refused before the start (R216). -/
def execRld (s : State) : Host.Outcome State Fault Refusal :=
  if s.inCap < s.inLen.toNat then .next s.refuse
  else if s.outCap < s.total then .next s.refuse
  else runCommand s.streamFuel s.rldStart

/-- `DLF` (R180): `IN_LEN > IN_CAP` and an output over `OUT_CAP` are refused before the start (R216). -/
def execDlf (s : State) : Host.Outcome State Fault Refusal :=
  if s.inCap < s.inLen.toNat then .next s.refuse
  else if s.outCap < s.total then .next s.refuse
  else runCommand s.deltaFuel s.dlfStart

/-- `DBK` (R188): `IN_LEN > IN_CAP` and an output over `OUT_CAP` are refused before the start (R216). -/
def execDbk (s : State) : Host.Outcome State Fault Refusal :=
  if s.inCap < s.inLen.toNat then .next s.refuse
  else if s.outCap < s.total then .next s.refuse
  else runCommand s.deltaFuel s.dbkStart

end Sys2Proof.Machine
end

