-- ==== Sys2Proof/Machine/System.lean ====
section
/-!
DEFINITION. The system command `CLR` and the host actions that are not commands (spec 45_system_commands.md R195 to
R198, 20_memory.md R76 to R78).
-/
namespace Sys2Proof.Machine

/-- `CLR` (R196): every register to its reset value; it cannot fail, and the buffers keep their bytes. -/
def execClr (s : State) : Host.Outcome State Fault Refusal := .next s.clearRegisters

/-- `HostRead(IN:a)` (R77). At or beyond the capacity there is no byte (R36): a fault, log entry 6. -/
def hostReadIn (a : Nat) (s : State) : Host.Outcome State Fault Refusal :=
  if a < s.inCap then .next { s with readData := some ((s.inByte a).setWidth 32) } else .fault .noSuchByte

/-- `HostRead(SEL:a)` (R77). At or beyond the capacity there is no byte (R36): a fault, log entry 6. -/
def hostReadSel (a : Nat) (s : State) : Host.Outcome State Fault Refusal :=
  if a < constants.selCap then .next { s with readData := some ((s.selByte a).setWidth 32) } else .fault .noSuchByte

/-- May the host read `OUT[a]`, and does the buffer hold the byte? (R78) -/
def State.outReadable (s : State) (a : Nat) : Option Byte :=
  if s.outv ∧ a < s.outLen.toNat then s.outBuf.read a else none

/-- `HostRead(OUT:a)` (R78): the byte where `OUTV` is 1 and `a` lies below `OUT_LEN`; in every other case, and for a
byte beyond the result of the completing command, the value returned is unspecified: a free value (log entry 5). -/
def hostReadOut (a : Nat) (s : State) : Host.Outcome State Fault Refusal :=
  match s.outReadable a with
  | some b => .next { s with readData := some (b.setWidth 32) }
  | none => .next { s with readData := some ((Config.freeOutRead s.fresh).setWidth 32), fresh := s.fresh + 1 }

end Sys2Proof.Machine
end

