-- ==== Sys2Proof/Machine/Dispatch.lean ====
section
/-!
DEFINITION. exec: one arm per instruction, each one call of its meaning.
-/
namespace Sys2Proof.Machine

def exec (i : Instr) (s : State) : Host.Outcome State Fault Refusal :=
  match i with
  -- the host commands (30_encoding.md R91)
  | .clr => Sys2Proof.Machine.execClr s
  | .bget n => Sys2Proof.Machine.execBget n s
  | .lzd => Sys2Proof.Machine.execLzd s
  | .rld => Sys2Proof.Machine.execRld s
  | .cup => Sys2Proof.Machine.execCup s
  | .dlf => Sys2Proof.Machine.execDlf s
  | .dbk => Sys2Proof.Machine.execDbk s
  -- the LZ stream (R94 to R100)
  | .lzCtlb bits => Sys2Proof.Machine.execLzCtlb bits s
  | .lzLit n => Sys2Proof.Machine.execLzLit n s
  | .lzShort dist cnt => Sys2Proof.Machine.execLzShort dist cnt s
  | .lzLong dist c10 lo2 => Sys2Proof.Machine.execLzLong dist c10 lo2 s
  -- the run-length stream (R102)
  | .rlRep cnt => Sys2Proof.Machine.execRlRep cnt s
  | .rlRaw cnt => Sys2Proof.Machine.execRlRaw cnt s
  -- the delta selectors and the delta block header (R104, R106)
  | .dfH => Sys2Proof.Machine.execDfH s
  | .dfV => Sys2Proof.Machine.execDfV s
  | .dfA => Sys2Proof.Machine.execDfA s
  | .dbkHdr skip depth width height => Sys2Proof.Machine.execDbkHdr skip depth width height s

end Sys2Proof.Machine
end

