-- ==== Sys2Proof/Machine/HostPort.lean ====
section
/-!
DEFINITION. How the block's next action is found and performed: a host action between commands (spec 45_system_commands.md
R195, 20_memory.md R74, R75), or the next stream item inside a running command; and how a bare instruction is placed
where the block fetches.
-/
namespace Sys2Proof.Machine

/-- A write of the word `c` to `CMD` (R35): a legal word runs its command to the end; an illegal one fails at once with
`IllegalOperation` and changes nothing else (R93, R216). -/
def writeCommand (c : Half) (s : State) : Host.Outcome State Fault Refusal :=
  match decode .command (le16 c) with
  | .instr i => exec i s
  | .reject _ => .next s.refuse

/-- One host action (R195). A write of register 0 is a write of the low 16 bits to `CMD` (R22, R23). DEDUCED, log entry 16. -/
def perform (a : HostAction) (s : State) : Host.Outcome State Fault Refusal :=
  match a with
  | .readReg i => .next { s with readData := some (s.readReg i) }
  | .writeReg i v => if csrOf i = some .cmd then writeCommand (v.setWidth 16) s else .next (s.writeReg i v)
  | .writeIn a v => .next (s.hostWriteIn a v)
  | .writeSel a v => .next (s.hostWriteSel a v)
  | .readIn a => hostReadIn a s
  | .readSel a => hostReadSel a s
  | .readOut a => hostReadOut a s
  | .reset => .next s.resetEvent

/-- `BOPEN off` (R111): `x[0x6] <- off`. -/
def HostAction.bopen (off : Word) : HostAction := .writeReg 0x6 off

/-- `SEEK pos` (R111): `x[0x5] <- pos`. -/
def HostAction.seek (pos : Word) : HostAction := .writeReg 0x5 pos

/-- Between commands: the next host action is performed; without one the block waits and does nothing (R235). Log entry 18. -/
def hostTurn (s : State) : Host.Outcome State Fault Refusal :=
  match s.pending with
  | [] => .next s
  | a :: rest => perform a { s with pending := rest }

/-- Inside a running command: its next stream item is executed. DESIGN CHOICE, log entry 7. -/
def itemTurn (s : State) : Host.Outcome State Fault Refusal :=
  match s.fetch with
  | .item i t => exec i t
  | .settled t => .next t

/-! ### Placing a bare instruction where the block fetches -/

/-- Bytes at the start of the stream, the byte cursor on the first. -/
def State.placeStream (s : State) (bs : List Byte) (p : Phase) : State :=
  { s with
    inBuf := (bs.zipIdx).foldl (fun m x => m.write x.2 x.1) s.inBuf, inLen := BitVec.ofNat 32 bs.length, ipos := 0#32,
    phase := p }

/-- Room for at least one more byte of output, which the loop tests of R140 and R160 ask for. -/
def State.placeRoom (s : State) : State :=
  if s.opos.toNat < s.outLen.toNat then s else { s with opos := 0#32, outLen := 1#32 }

/-- A selector byte for the current row, inside the image. -/
def State.placeSelector (s : State) (b : Byte) : State :=
  if s.row < s.height.toNat then { s with selBuf := s.selBuf.write s.row b, phase := .rows .dlf }
  else { s with selBuf := s.selBuf.write 0 b, row := 0, height := 1#16, phase := .rows .dlf }

/-- The state in which the next step fetches the item with these bytes in this context. Log entry 2. -/
def State.place (s : State) (c : Context) (bs : List Byte) (w : Nat) : State :=
  match c with
  | .command => { s with phase := .host, pending := .writeReg 0x0 ((BitVec.ofNat 16 w).setWidth 32) :: s.pending }
  | .lzControl => { (s.placeStream bs .lzd).placeRoom with ctl := 0x0000#16 }
  | .lzLiteral => { (s.placeStream bs .lzd).placeRoom with ctl := ctlRefill 0x00#8 }
  | .lzBackref => { (s.placeStream bs .lzd).placeRoom with ctl := ctlRefill 0x80#8 }
  | .runLength => (s.placeStream bs .rld).placeRoom
  | .selector => s.placeSelector (BitVec.ofNat 8 w)
  | .blockHeader => s.placeStream bs .dbkHeader

end Sys2Proof.Machine
end

