-- ==== Sys2Proof/Machine/Step.lean ====
section
/-!
DEFINITION. One step of the machine (spec 20_memory.md R74, R75): between commands one host action, a whole command
being one of them; inside a running command one stream item.
-/
namespace Sys2Proof.Machine

/-- One step. -/
def step (s : State) : Host.Outcome State Fault Refusal :=
  if s.phase = .host then hostTurn s else itemTurn s

/-- The bare word `w` of the opcode table stored where the next step fetches, in the context that `decodeTableWord` reads
it in; a word of no context is written to `CMD`. -/
def State.withFetchWord (s : State) (nbits w : Nat) : State :=
  match tableContext nbits w with
  | some c => s.place c (tableBytes tableSpan w) w
  | none => s.place .command (tableBytes tableSpan w) w

end Sys2Proof.Machine
end

