-- ==== Sys2Proof/Safety.lean ====
section
/-!
DEFINITION. What counts as a good state, in the terms that claims use.
-/
namespace Sys2Proof.Machine

/-- The three buffers are in their canonical form. -/
def State.memOk (s : State) : Prop := s.inBuf.wf ∧ s.selBuf.wf ∧ s.outBuf.wf

/-- Every address that a buffer lists lies below a bound. -/
def Mem.below (m : Mem) (n : Nat) : Prop := ∀ a v, m.read a = some v → a < n

/-- Where a running command stands, the output cursor keeps to the output (20_memory.md R70; 42_run_length.md R163;
44_delta_filter.md R180). -/
def State.cursorOk (s : State) : Prop :=
  match s.phase with
  | .host => True
  | .lzd => s.opos.toNat ≤ s.outLen.toNat ∧ s.outLen.toNat ≤ s.outCap
  | .rld =>
    s.opos.toNat ≤ s.outLen.toNat ∧ s.outLen.toNat ≤ s.outCap ∧ s.channels.toNat ∣ s.outLen.toNat - s.opos.toNat
  | .dbkHeader => s.opos.toNat = 0 ∧ s.outLen.toNat = s.total ∧ s.total ≤ s.outCap
  | .body _ => s.opos.toNat = 0 ∧ s.outLen.toNat = s.total ∧ s.total ≤ s.outCap
  | .rows _ =>
    s.row ≤ s.height.toNat ∧ s.opos.toNat = s.row * s.stride ∧ s.outLen.toNat = s.total ∧ s.total ≤ s.outCap

/-- Every byte a buffer holds lies inside the buffer's capacity (10_state.md R36, 20_memory.md R70). -/
def State.boundsOk (s : State) : Prop :=
  s.inBuf.below s.inCap ∧ s.selBuf.below constants.selCap ∧ s.outBuf.below s.outCap ∧ s.cursorOk

/-- The failure record agrees with the outcome (10_state.md R31, R32): between commands ERR names a failure exactly when
`ST` is `FAILED`; a running command has cleared ERR; ERRINFO is 0 but for the one kind with a parameter. -/
def State.recordOk (s : State) : Prop :=
  (s.phase = .host → (s.st = .failed ↔ s.err.isSome)) ∧
  (s.phase ≠ .host → s.err = none) ∧
  (s.err ≠ some .unknownDeltaFilter → s.errInfo = 0#32) ∧ s.errInfo.toNat < 256

/-- No command is running. -/
def State.settled (s : State) : Prop := s.phase = .host ∧ s.row = 0

/-- What may follow a command that failed after its start (60_exceptions.md R212, R213), said of everything that the
spec defines there: the failure is latched, the command has ended, and every register and buffer that the command does
not write is as before. Nothing is said of what R213 leaves unspecified. -/
def failedAfterStart (c : Command) (f : Failure) (s t : State) : Prop :=
  t.st = .failed ∧ t.err = some f.kind ∧ t.errInfo = f.info ∧ t.phase = .host ∧ t.row = 0 ∧
  t.inLen = s.inLen ∧ t.bpos = s.bpos ∧ t.bres = s.bres ∧ t.width = s.width ∧ t.height = s.height ∧
  t.channels = s.channels ∧ t.inBuf = s.inBuf ∧ t.inSeed = s.inSeed ∧ t.inCapPred = s.inCapPred ∧
  t.outCapPred = s.outCapPred ∧ t.pending = s.pending ∧ t.readData = s.readData ∧
  (c = .bget → t.ipos = s.ipos ∧ t.opos = s.opos ∧ t.outBuf = s.outBuf ∧ t.outv = s.outv) ∧
  (c = .bget ∨ c = .lzd → t.outLen = s.outLen) ∧
  (c ≠ .lzd → t.ctl = s.ctl) ∧
  (c ≠ .dbk → t.selLen = s.selLen ∧ t.depth = s.depth ∧ t.selBuf = s.selBuf ∧ t.selSeed = s.selSeed)

/-- The illegal command words (30_encoding.md R93), by their three fields. -/
def IllegalWord (c : Half) : Prop :=
  7 ≤ (c.extractLsb' 12 4).toNat ∨ c.extractLsb' 6 6 ≠ 0#6 ∨ (c.extractLsb' 12 4 ≠ 1#4 ∧ c.extractLsb' 0 6 ≠ 0#6) ∨
  (c.extractLsb' 12 4 = 1#4 ∧ 32 < (c.extractLsb' 0 6).toNat)

/-- The state after a command refused before its start (60_exceptions.md R216). -/
def refusedState (s : State) : State := { s with st := .failed, err := some .illegalOperation, errInfo := 0#32 }

/-- The width of a register by number (10_state.md R22); 0 for a number above 0xF. -/
def csrWidth (i : Nat) : Nat := [16, 3, 4, 32, 32, 32, 32, 32, 32, 32, 16, 16, 8, 16, 16, 16].getD i 0

/-- The registers that a host write changes (10_state.md R22), by number. -/
def csrWritable (i : Nat) : Bool := i ∈ [0x4, 0x5, 0x6, 0x8, 0xA, 0xB, 0xC, 0xD]

/-- The byte that the delta filter reconstructs under a selector code (44_delta_filter.md R184 to R186), from its
neighbours and the stored value; `first` says that it lies in the row's first channel group. -/
def deltaByte (code : Byte) (first : Bool) (above left stored : Byte) : Byte :=
  if code = 2#8 then above - stored
  else if first then stored
  else if code = 1#8 then left - stored
  else BitVec.ofNat 8 ((above.toNat + left.toNat) / 2) - stored

/-- The selector bytes of a block written into `SEL` from index 0 on (44_delta_filter.md R189). -/
def loadedSelectors (s : State) (base count : Nat) : Mem :=
  (List.range count).foldl (fun m y => m.write y (s.inByte (base + y))) s.selBuf

end Sys2Proof.Machine
end

