-- ==== Sys2Proof/Certificates/Slice0/Obligations.lean ====
section
/-!
DEFINITION. The statements for the provers.

Every statement ranges over all states, so over all capacities of R9. A next state is often given as an equation
`t = (s with …)`: the fields it names are all that the instruction writes, and that equation is the instruction's frame.
The buffers' contents are then said address by address, through Mem.read. A host action is the one at the front of
`pending`, which the step takes off (log entry 2).
-/
open Sys2Proof Sys2Proof.Machine

/-! ### Encoding -/

/-- Decoding the encoding of a well-formed instruction, in its context and with any bytes after it, gives it back. -/
def Obligations.DecodeGivesBackEncoded : Prop :=
  ∀ (i : Instr) (rest : List Byte), WellFormed i = true → decode (itemContext i) (encode i ++ rest) = .instr i

/-- Whatever the decoder reads in any context, the bytes it read are that instruction's encoding: no bit is dropped and
each spelling has one meaning. -/
def Obligations.EncodeGivesBackDecoded : Prop :=
  ∀ (c : Context) (bs : List Byte) (i : Instr), decode c bs = .instr i → encode i = bs.take (headLength i)

/-- A few words written out from the encoding tables decode to what they stand for. -/
def Obligations.SampleWordsDecode : Prop :=
  decode .command [0x0C, 0x10] = .instr (.bget 12#6) ∧
  decode .command [0x00, 0x60] = .instr .dbk ∧
  decode .lzBackref [0x3A, 0x00] = .instr (.lzShort 3#12 2#3) ∧
  decode .lzBackref [0x01, 0x90, 0x00] = .instr (.lzLong 9#12 0#10 1#2) ∧
  decode .runLength [0x85] = .instr (.rlRep 5#7) ∧
  decode .runLength [0x7F] = .instr (.rlRaw 127#7) ∧
  decode .selector [0x04] = .instr .dfA ∧
  decode .selector [0x03] = .reject (.unknownSelector 3#8) ∧
  decode .blockHeader [0xAB, 0xCD, 0x18, 0x00, 0x03, 0x00, 0x02, 0x00] = .instr (.dbkHdr 0xCDAB#16 24#16 3#16 2#16)

/-- R93: an illegal word written to `CMD` starts no operation, fails at once with `IllegalOperation` (code 5) and changes
nothing else; every other word is one of the seven commands, legal as written, and is run. The write is the pending host action (log
entry 2). That a written value with a non-zero upper half counts as its low 16 bits is the model's (log entry 16,
DEDUCED); R93 speaks of 16-bit words alone. -/
def Obligations.IllegalCommandWordsFail : Prop :=
  ∀ (s : State) (v : Word) (rest : List HostAction), s.phase = .host → s.pending = .writeReg 0x0 v :: rest →
    (IllegalWord (v.setWidth 16) →
      ∃ t, step s = .next t ∧
        t = { s with pending := rest, st := .failed, err := some .illegalOperation, errInfo := 0#32 } ∧
        t.statusWord.extractLsb' 0 2 = 2#2 ∧ t.errCode = 5#4) ∧
    (¬ IllegalWord (v.setWidth 16) →
      ∃ i, WellFormed i = true ∧ itemContext i = .command ∧ step s = exec i { s with pending := rest })

/-- R100: the repeat counts of the back-reference tokens, their ranges, and which long counts can be spelled. -/
def Obligations.RepeatCountsOfTokens : Prop :=
  (∀ cnt : BitVec 3, shortRepeat cnt = cnt.toNat + 4 ∧ 4 ≤ shortRepeat cnt ∧ shortRepeat cnt ≤ 11) ∧
  (∀ (c10 : BitVec 10) (lo2 : BitVec 2), c10.getLsbD 1 = false →
    longRepeat c10 lo2 = (c10.toNat + 1) * 4 + lo2.toNat ∧ 4 ≤ longRepeat c10 lo2 ∧ longRepeat c10 lo2 ≤ 4091 ∧
    (longRepeat c10 lo2 / 4 % 4 = 1 ∨ longRepeat c10 lo2 / 4 % 4 = 2)) ∧
  (∀ n, 4 ≤ n → n ≤ 4091 → n / 4 % 4 = 1 ∨ n / 4 % 4 = 2 →
    ∃ (c10 : BitVec 10) (lo2 : BitVec 2), c10.getLsbD 1 = false ∧ longRepeat c10 lo2 = n)

/-! ### A step runs the decoded instruction -/

/-- Between commands, a pending write of `CMD` whose word decodes to `i` makes the step exec of `i`, with that host action
taken off the pending ones. The list of pending host actions is the model's (log entry 2), and so is the word's being
the low 16 bits of the value written (log entry 16, DEDUCED). -/
def Obligations.StepRunsWrittenCommand : Prop :=
  ∀ (s : State) (v : Word) (rest : List HostAction) (i : Instr), s.phase = .host →
    s.pending = .writeReg 0x0 v :: rest → decode .command (le16 (v.setWidth 16)) = .instr i →
    step s = exec i { s with pending := rest }

/-- Inside a running command, the item that decodes at the byte cursor (a delta row's selector: in `SEL`) is executed,
from the state in which the cursor has moved past the item's own bytes and, for an LZ token, its control bit is taken.
Where a byte of the item's head is needed and lies at or beyond `IN_LEN` (R154, R164, R207) the step raises `OutOfData`,
for a truncated LZ token too, whatever its look-behind; an unknown selector raises `UnknownDeltaFilter`. That items are
steps of their own inside a command is the model's choice (log entry 7). -/
def Obligations.StepRunsStreamItem : Prop :=
  ∀ s : State,
    let fails (c : Command) (f : Failure) : Prop := ∃ t, step s = .next t ∧ failedAfterStart c f s t ∧ t.outv = s.outv
    (∀ i : Instr,
      (s.phase = .lzd → s.opos.toNat < s.outLen.toNat → decode s.lzContext s.streamWindow = .instr i →
        step s = exec i { s with
          ipos := s.ipos + BitVec.ofNat 32 (headLength i),
          ctl := if s.ctl.getLsbD 15 then ctlTake s.ctl else s.ctl }) ∧
      (s.phase = .rld → s.opos.toNat < s.outLen.toNat → decode .runLength s.streamWindow = .instr i →
        step s = exec i { s with ipos := s.ipos + 1#32 }) ∧
      (s.phase = .dbkHeader → decode .blockHeader s.streamWindow = .instr i →
        step s = exec i { s with ipos := s.ipos + 8#32 }) ∧
      (∀ c, s.phase = .rows c → s.row < s.height.toNat → decode .selector [s.selByte s.row] = .instr i →
        step s = exec i s)) ∧
    (s.phase = .lzd → s.opos.toNat < s.outLen.toNat →
      (s.ctl.getLsbD 15 = false → s.avail < 1 → fails .lzd .outOfData) ∧
      (s.ctl.getLsbD 15 = true → s.ctl.getLsbD 7 = false → s.avail < 1 → fails .lzd .outOfData) ∧
      (s.ctl.getLsbD 15 = true → s.ctl.getLsbD 7 = true →
        s.avail < 2 ∨ (s.avail < 3 ∧ (s.inByte s.ipos.toNat).getLsbD 3 = false) → fails .lzd .outOfData)) ∧
    (s.phase = .rld → s.opos.toNat < s.outLen.toNat → s.avail < 1 → fails .rld .outOfData) ∧
    (s.phase = .dbkHeader → s.avail < 8 → fails .dbk .outOfData) ∧
    (∀ c, s.phase = .rows c → s.row < s.height.toNat →
      s.selByte s.row ≠ 1#8 → s.selByte s.row ≠ 2#8 → s.selByte s.row ≠ 4#8 →
      fails c.command (.unknownDeltaFilter (s.selByte s.row)))

/-- A decode command that is not refused does exactly what running its stream items by single steps does: from its started
state, some number of steps, none of them from a state in which no command is running, leads to the command's result.
The single steps are the model's (log entry 7). For a command that fails, that both ways leave the same values where R213
leaves them open rests on the model's free values at one counter (log entry 3). -/
def Obligations.CommandIsItsItemsStepByStep : Prop :=
  ∀ (s t : State), s.inLen.toNat ≤ s.inCap →
    let reaches (a : State) : Prop := ∃ n, Host.Core.run Sys2Proof.core n a = .next t ∧ t.phase = .host ∧
      ∀ m, m < n → ∃ u : State, Host.Core.run Sys2Proof.core m a = .next u ∧ u.phase ≠ .host
    (s.outLen.toNat ≤ s.outCap → exec .lzd s = .next t → reaches s.lzdStart) ∧
    (s.total ≤ s.outCap → exec .rld s = .next t → reaches s.rldStart) ∧
    (s.total ≤ s.outCap → exec .dlf s = .next t → reaches s.dlfStart) ∧
    (s.total ≤ s.outCap → exec .dbk s = .next t → reaches s.dbkStart)

/-! ### Host access -/

/-- R22, R23: which register a number names, that a read is zero-extended from the register's width, and what a number
above 0xF reads; with the codes of `ST` (R31) and of the failure kinds (R206), the kind and the parameter that each failure
latches (R32, R206), and what is read after raising it (R212). -/
def Obligations.RegistersByNumber : Prop :=
  ∀ s : State,
    let outv : Word := if s.outv then 4#32 else 0#32
    let code (e : Option FailKind) : Word := { s with err := e }.readReg 0x2
    let latches (f : Failure) (k : FailKind) (e p : Word) : Prop :=
      f.kind = k ∧ f.info = p ∧ ∀ c, (s.raise c f).readReg 0x1 = outv + 2#32 ∧ (s.raise c f).readReg 0x2 = e ∧
        (s.raise c f).readReg 0x3 = p
    s.readReg 0x0 = 0#32 ∧ s.readReg 0x1 = (BitVec.ofBool s.outv ++ s.st.code).setWidth 32 ∧
    s.readReg 0x2 = s.errCode.setWidth 32 ∧ s.readReg 0x3 = s.errInfo ∧ s.readReg 0x4 = s.inLen ∧
    s.readReg 0x5 = s.ipos ∧ s.readReg 0x6 = s.bpos ∧ s.readReg 0x7 = s.bres ∧ s.readReg 0x8 = s.outLen ∧
    s.readReg 0x9 = s.opos ∧ s.readReg 0xA = s.width.setWidth 32 ∧ s.readReg 0xB = s.height.setWidth 32 ∧
    s.readReg 0xC = s.channels.setWidth 32 ∧ s.readReg 0xD = s.selLen.setWidth 32 ∧
    s.readReg 0xE = s.depth.setWidth 32 ∧ s.readReg 0xF = s.ctl.setWidth 32 ∧
    (∀ i, (s.readReg i).toNat < 2 ^ csrWidth i) ∧ (∀ i, 0xF < i → s.readReg i = 0#32) ∧
    { s with st := .idle }.readReg 0x1 = outv ∧ { s with st := .done }.readReg 0x1 = outv + 1#32 ∧
    { s with st := .failed }.readReg 0x1 = outv + 2#32 ∧
    code none = 0#32 ∧ code (some .outOfData) = 1#32 ∧ code (some .badBackReference) = 2#32 ∧
    code (some .unknownDeltaFilter) = 3#32 ∧ code (some .sizeMismatch) = 4#32 ∧
    code (some .illegalOperation) = 5#32 ∧
    latches .outOfData .outOfData 1#32 0#32 ∧ latches .badBackReference .badBackReference 2#32 0#32 ∧
    (∀ b : Byte, latches (.unknownDeltaFilter b) .unknownDeltaFilter 3#32 (b.setWidth 32)) ∧
    latches .sizeMismatch .sizeMismatch 4#32 0#32 ∧ latches .illegalOperation .illegalOperation 5#32 0#32

/-- R23: a host register access has no side effect. A read changes nothing but the value returned; a write of a register
other than `CMD` stores the low bits in a writable register and changes no other register; a read-only register and a
number above 0xF ignore it. Where a read's answer is kept is the model's choice (log entry 2). -/
def Obligations.HostRegisterAccessHasNoSideEffect : Prop :=
  ∀ (s : State) (rest : List HostAction), s.phase = .host →
    (∀ i, s.pending = .readReg i :: rest →
      step s = .next { s with pending := rest, readData := some (s.readReg i) }) ∧
    (∀ i v, i ≠ 0 → s.pending = .writeReg i v :: rest →
      ∃ t, step s = .next t ∧
        (∀ j, (t.readReg j).toNat =
          if j = i ∧ csrWritable i then v.toNat % 2 ^ csrWidth i else (s.readReg j).toNat) ∧
        t = { s with
          pending := rest, inLen := t.inLen, ipos := t.ipos, bpos := t.bpos, outLen := t.outLen, width := t.width,
          height := t.height, channels := t.channels, selLen := t.selLen })

/-- R76: a host write of `IN` or `SEL` below the capacity stores the byte and changes nothing else; at or beyond the
capacity it is ignored. The write is the pending host action (log entry 2). -/
def Obligations.HostBufferWrites : Prop :=
  ∀ (s : State) (rest : List HostAction) (a : Nat) (v : Byte), s.phase = .host →
    (s.pending = .writeIn a v :: rest →
      ∃ t, step s = .next t ∧ t = { s with pending := rest, inBuf := t.inBuf } ∧
        ∀ x, t.inBuf.read x = if x = a ∧ a < s.inCap then some v else s.inBuf.read x) ∧
    (s.pending = .writeSel a v :: rest →
      ∃ t, step s = .next t ∧ t = { s with pending := rest, selBuf := t.selBuf } ∧
        ∀ x, t.selBuf.read x = if x = a ∧ a < 65535 then some v else s.selBuf.read x)

/-- R77, R78: a host read of `IN` or `SEL` returns the byte last written there; a host read of `OUT` returns the byte when
`OUTV` is 1 and the address lies below `OUT_LEN`. Nothing else changes. Where the answer is kept is the model's choice
(log entry 2). -/
def Obligations.HostBufferReads : Prop :=
  ∀ (s : State) (rest : List HostAction) (a : Nat) (b : Byte), s.phase = .host →
    (s.pending = .readIn a :: rest → a < s.inCap → s.inBuf.read a = some b →
      step s = .next { s with pending := rest, readData := some (b.setWidth 32) }) ∧
    (s.pending = .readSel a :: rest → a < 65535 → s.selBuf.read a = some b →
      step s = .next { s with pending := rest, readData := some (b.setWidth 32) }) ∧
    (s.pending = .readOut a :: rest → s.outv = true → a < s.outLen.toNat → s.outBuf.read a = some b →
      step s = .next { s with pending := rest, readData := some (b.setWidth 32) })

/-- A host read of `OUT` that R78 does not permit still ends in a next state, in which only the value returned (and the
counter behind free values) is new. The model's choice among U8's treatments: log entry 5. -/
def Obligations.UnpermittedOutReadGoesOn : Prop :=
  ∀ (s : State) (rest : List HostAction) (a : Nat), s.phase = .host → s.pending = .readOut a :: rest →
    s.outv = false ∨ s.outLen.toNat ≤ a →
    ∃ w, step s = .next { s with pending := rest, readData := some w, fresh := s.fresh + 1 }

/-! ### Reset and CLR -/

/-- R236: after reset every register reads 0, `ST` is idle and nothing is latched. That an unspecified buffer is one which
lists no byte, and that the reset event keeps the pending actions and the capacities, is the model's choice (log entries
1, 4 and 15). -/
def Obligations.ResetLeavesEmptyState : Prop :=
  (∀ i, State.reset.readReg i = 0#32) ∧ State.reset.inBuf = [] ∧ State.reset.selBuf = [] ∧ State.reset.outBuf = [] ∧
  ∀ (s : State) (rest : List HostAction), s.phase = .host → s.pending = .reset :: rest →
    ∃ t, step s = .next t ∧ (∀ i, t.readReg i = 0#32) ∧ t.inBuf = [] ∧ t.selBuf = [] ∧ t.outBuf = [] ∧
      t.pending = rest ∧ t.inCapPred = s.inCapPred ∧ t.outCapPred = s.outCapPred

/-- R237 (an inference the spec draws from R236): with every register at its reset value, whatever the buffers and the
capacities are, each command has the outcome the rule names. -/
def Obligations.CommandsFromResetRegisters : Prop :=
  ∀ s : State, s = s.clearRegisters →
    exec (.bget 0#6) s = .next { s with st := .done } ∧
    (∀ n : BitVec 6, 1 ≤ n.toNat → n.toNat ≤ 32 →
      exec (.bget n) s = .next { s with st := .failed, err := some .outOfData, phase := .host, row := 0 }) ∧
    (∀ i ∈ [Instr.lzd, Instr.rld, Instr.cup, Instr.dlf],
      exec i s = .next { s with st := .done, outv := true, outBuf := [], phase := .host, row := 0 }) ∧
    (∃ t, exec .dbk s = .next t ∧ failedAfterStart .dbk .outOfData s t ∧ t.outv = false) ∧
    exec .clr s = .next s

/-- R196: `CLR` puts every register back to its reset value, in any state, and touches no buffer. -/
def Obligations.ClrRestoresRegisters : Prop :=
  ∀ s : State, ∃ t, exec .clr s = .next t ∧ (∀ i, t.readReg i = 0#32) ∧
    t = { s with
      st := .idle, outv := false, err := none, errInfo := 0#32, inLen := 0#32, ipos := 0#32, bpos := 0#32,
      bres := 0#32, outLen := 0#32, opos := 0#32, width := 0#16, height := 0#16, channels := 0#8, selLen := 0#16,
      depth := 0#16, ctl := 0x0000#16 }

/-! ### The bit cursor -/

/-- R131: where `n` is legal and at least `n` bits remain, `BGET n` completes: `BRES` is the next `n` bits of the stream,
the first bit taken the most significant, and `BPOS` moves by `n` without wrap. -/
def Obligations.BgetReadsNextBits : Prop :=
  ∀ (n : BitVec 6) (s : State), n.toNat ≤ 32 → s.inLen.toNat ≤ s.inCap → n.toNat ≤ s.bitsLeft →
    ∃ v : Word,
      exec (.bget n) s = .next { s with
        err := none, errInfo := 0#32, st := .done, bres := v, bpos := s.bpos + BitVec.ofNat 32 n.toNat } ∧
      (s.bpos + BitVec.ofNat 32 n.toNat).toNat = s.bpos.toNat + n.toNat ∧ v.toNat < 2 ^ n.toNat ∧
      ∀ i, i < n.toNat →
        v.getLsbD (n.toNat - 1 - i) = (s.inByte ((s.bpos.toNat + i) / 8)).getLsbD (7 - (s.bpos.toNat + i) % 8)

/-- R131, R132: fewer than `n` bits remaining is `OutOfData`, and a reserved count or a stream over capacity is
`IllegalOperation`; `BPOS`, `BRES` and everything else keep their values. -/
def Obligations.BgetFailsConsumingNothing : Prop :=
  ∀ (n : BitVec 6) (s : State),
    (n.toNat ≤ 32 → s.inLen.toNat ≤ s.inCap → s.bitsLeft < n.toNat →
      exec (.bget n) s = .next { s with
        st := .failed, err := some .outOfData, errInfo := 0#32, phase := .host, row := 0 }) ∧
    (32 < n.toNat ∨ s.inCap < s.inLen.toNat → exec (.bget n) s = .next (refusedState s))

/-- R132, repeated reads: `BGET a` then `BGET b` return the bits of `BGET (a+b)`, split at bit `b` from the bottom, and
leave the same state but for `BRES`. -/
def Obligations.BgetSplitsAnywhere : Prop :=
  ∀ (a b c : BitVec 6) (s : State), c.toNat = a.toNat + b.toNat → c.toNat ≤ 32 → s.inLen.toNat ≤ s.inCap →
    c.toNat ≤ s.bitsLeft →
    ∃ u v w, exec (.bget a) s = .next u ∧ exec (.bget b) u = .next v ∧ exec (.bget c) s = .next w ∧
      w.bres.toNat = u.bres.toNat * 2 ^ b.toNat + v.bres.toNat ∧ v = { w with bres := v.bres }

/-- R132 with D8: at a byte boundary `BGET 8` returns the byte and `BGET 32` the four bytes big-endian. -/
def Obligations.BgetAtByteBoundary : Prop :=
  ∀ (s : State) (k : Nat), s.inLen.toNat ≤ s.inCap → s.bpos.toNat = 8 * k →
    (k + 1 ≤ s.inLen.toNat → ∃ t, exec (.bget 8#6) s = .next t ∧ t.st = .done ∧ t.bres = (s.inByte k).setWidth 32) ∧
    (k + 4 ≤ s.inLen.toNat → ∃ t, exec (.bget 32#6) s = .next t ∧ t.st = .done ∧
      t.bres = s.inByte k ++ s.inByte (k + 1) ++ s.inByte (k + 2) ++ s.inByte (k + 3))

/-! ### The LZ unit -/

/-- R141 to R143: after a refill with the byte `b`, `t` takes have given the bits of `b` from bit 7 down, the word is not
exhausted before eight takes, and its two bytes are the guard and the byte shifted left by `t`; eight takes leave 0. -/
def Obligations.ControlBitsComeMsbFirst : Prop :=
  ∀ b : Byte,
    (∀ t, t < 8 →
      ctlExhausted (ctlTake^[t] (ctlRefill b)) = false ∧ ctlBit (ctlTake^[t] (ctlRefill b)) = b.getLsbD (7 - t) ∧
      ctlTake^[t] (ctlRefill b) = (0xFF#8 <<< t) ++ (b <<< t)) ∧
    ctlTake^[8] (ctlRefill b) = 0x0000#16 ∧ ctlExhausted 0x0000#16 = true

/-- R142: the control byte's item sets the control word to the guard OR'd onto the byte and changes nothing else. -/
def Obligations.LzControlByteRefills : Prop :=
  ∀ (b : Byte) (s : State), exec (.lzCtlb b) s = .next { s with ctl := 0xFF00#16 ||| b.setWidth 16 }

/-- R145: `LZ.LIT` copies the literal bytes, cut at the output size, and consumes exactly the bytes it copies. -/
def Obligations.LzLitCopiesFromStream : Prop :=
  ∀ (n : Byte) (s : State), s.opos.toNat ≤ s.outLen.toNat →
    let k := min n.toNat (s.outLen.toNat - s.opos.toNat)
    k ≤ s.avail →
    ∃ t, exec (.lzLit n) s = .next t ∧
      t = { s with
        ipos := s.ipos + BitVec.ofNat 32 k, opos := s.opos + BitVec.ofNat 32 k, outBuf := t.outBuf } ∧
      ∀ a, t.outBuf.read a =
        if s.opos.toNat ≤ a ∧ a < s.opos.toNat + k then some (s.inByte (s.ipos.toNat + (a - s.opos.toNat)))
        else s.outBuf.read a

/-- R145: a literal byte that is to be copied and lies at or beyond `IN_LEN` is `OutOfData`. -/
def Obligations.LzLitTruncatedFails : Prop :=
  ∀ (n : Byte) (s : State), s.opos.toNat ≤ s.outLen.toNat →
    s.avail < min n.toNat (s.outLen.toNat - s.opos.toNat) →
    ∃ t, exec (.lzLit n) s = .next t ∧ failedAfterStart .lzd .outOfData s t

/-- R146, R149, R150: `LZ.SHORT` copies `cnt + 4` bytes, cut at the output size, from `dist` positions back: the last
`dist` bytes repeated cyclically, and for `dist = 0` the bytes that stand at the output cursor (x mod 0 is x). -/
def Obligations.LzShortCopiesCyclically : Prop :=
  ∀ (dist : BitVec 12) (cnt : BitVec 3) (s : State), dist.toNat ≤ s.opos.toNat → s.opos.toNat ≤ s.outLen.toNat →
    let k := min (cnt.toNat + 4) (s.outLen.toNat - s.opos.toNat)
    ∃ t, exec (.lzShort dist cnt) s = .next t ∧
      t = { s with opos := s.opos + BitVec.ofNat 32 k, outBuf := t.outBuf } ∧
      ∀ a, t.outBuf.read a =
        if s.opos.toNat ≤ a ∧ a < s.opos.toNat + k then
          some (s.outByte (s.opos.toNat - dist.toNat + (a - s.opos.toNat) % dist.toNat))
        else s.outBuf.read a

/-- R148, R149, R150: the same for `LZ.LONG`, with the repeat count of R100. -/
def Obligations.LzLongCopiesCyclically : Prop :=
  ∀ (dist : BitVec 12) (c10 : BitVec 10) (lo2 : BitVec 2) (s : State), c10.getLsbD 1 = false →
    dist.toNat ≤ s.opos.toNat → s.opos.toNat ≤ s.outLen.toNat →
    let k := min ((c10.toNat + 1) * 4 + lo2.toNat) (s.outLen.toNat - s.opos.toNat)
    ∃ t, exec (.lzLong dist c10 lo2) s = .next t ∧
      t = { s with opos := s.opos + BitVec.ofNat 32 k, outBuf := t.outBuf } ∧
      ∀ a, t.outBuf.read a =
        if s.opos.toNat ≤ a ∧ a < s.opos.toNat + k then
          some (s.outByte (s.opos.toNat - dist.toNat + (a - s.opos.toNat) % dist.toNat))
        else s.outBuf.read a

/-- R147: a back-reference whose look-behind is larger than the output cursor fails with `BadBackReference`; one whose
look-behind is not passes the check and raises nothing. -/
def Obligations.BackReferenceBoundsCheck : Prop :=
  ∀ (i : Instr) (dist : BitVec 12) (s : State),
    ((∃ cnt, i = .lzShort dist cnt) ∨ ∃ c10 lo2, i = .lzLong dist c10 lo2) →
    (s.opos.toNat < dist.toNat → ∃ t, exec i s = .next t ∧ failedAfterStart .lzd .badBackReference s t) ∧
    (dist.toNat ≤ s.opos.toNat →
      ∃ t, exec i s = .next t ∧ t.st = s.st ∧ t.err = s.err ∧ t.errInfo = s.errInfo ∧ t.phase = s.phase)

/-- R140, R152, R153, R154: an `LZD` within capacity always ends: `DONE` with the output exactly full and every byte of it
held, or failed with `OutOfData` or `BadBackReference`; it writes nothing but what R24 lists. -/
def Obligations.LzdEndsFullOrFails : Prop :=
  ∀ s : State, s.inLen.toNat ≤ s.inCap → s.outLen.toNat ≤ s.outCap →
    ∃ t, exec .lzd s = .next t ∧
      ((t = { s with
          st := .done, outv := true, err := none, errInfo := 0#32, ipos := t.ipos, opos := s.outLen, ctl := t.ctl,
          outBuf := t.outBuf, phase := .host, row := 0 } ∧
        s.ipos.toNat ≤ t.ipos.toNat ∧ (s.ipos.toNat ≤ s.inLen.toNat → t.ipos.toNat ≤ s.inLen.toNat) ∧
        ∀ a, (t.outBuf.read a).isSome ↔ a < s.outLen.toNat) ∨
      ((failedAfterStart .lzd .outOfData s t ∨ failedAfterStart .lzd .badBackReference s t) ∧ t.outv = false))

/-- R140, R145, R151: a stream whose first control bit is 0 and whose first literal count covers the declared output
completes: the output is the literal bytes, and nothing after the last copied byte is consumed. -/
def Obligations.LzdOfOneLiteralToken : Prop :=
  ∀ s : State, s.inLen.toNat ≤ s.inCap → s.outLen.toNat ≤ s.outCap → 0 < s.outLen.toNat →
    (s.inByte s.ipos.toNat).getLsbD 7 = false → s.outLen.toNat ≤ (s.inByte (s.ipos.toNat + 1)).toNat →
    s.ipos.toNat + 2 + s.outLen.toNat ≤ s.inLen.toNat →
    ∃ t, exec .lzd s = .next t ∧
      t = { s with
        st := .done, outv := true, err := none, errInfo := 0#32, ipos := s.ipos + 2#32 + s.outLen, opos := s.outLen,
        ctl := 0xFE#8 ++ (s.inByte s.ipos.toNat <<< 1), outBuf := t.outBuf, phase := .host, row := 0 } ∧
      ∀ a, t.outBuf.read a = if a < s.outLen.toNat then some (s.inByte (s.ipos.toNat + 2 + a)) else none

/-! ### The run-length unit -/

/-- R161, R163: `RL.REP` consumes one whole chunk and writes it as often as the count says and the output has room. -/
def Obligations.RlRepRepeatsChunk : Prop :=
  ∀ (cnt : BitVec 7) (s : State),
    let c := s.channels.toNat
    let k := min (cnt.toNat + 1) ((s.outLen.toNat - s.opos.toNat) / c)
    c ≤ s.avail → s.opos.toNat ≤ s.outLen.toNat → c ∣ s.outLen.toNat - s.opos.toNat →
    ∃ t, exec (.rlRep cnt) s = .next t ∧
      t = { s with
        ipos := s.ipos + BitVec.ofNat 32 c, opos := s.opos + BitVec.ofNat 32 (k * c), outBuf := t.outBuf } ∧
      ∀ a, t.outBuf.read a =
        if s.opos.toNat ≤ a ∧ a < s.opos.toNat + k * c then
          some (s.inByte (s.ipos.toNat + (a - s.opos.toNat) % c))
        else s.outBuf.read a

/-- R162, R163: `RL.RAW` copies as many chunks as the count says and the output has room, and consumes those alone. -/
def Obligations.RlRawCopiesChunks : Prop :=
  ∀ (cnt : BitVec 7) (s : State),
    let c := s.channels.toNat
    let k := min (cnt.toNat + 1) ((s.outLen.toNat - s.opos.toNat) / c)
    k * c ≤ s.avail → s.opos.toNat ≤ s.outLen.toNat → c ∣ s.outLen.toNat - s.opos.toNat →
    ∃ t, exec (.rlRaw cnt) s = .next t ∧
      t = { s with
        ipos := s.ipos + BitVec.ofNat 32 (k * c), opos := s.opos + BitVec.ofNat 32 (k * c), outBuf := t.outBuf } ∧
      ∀ a, t.outBuf.read a =
        if s.opos.toNat ≤ a ∧ a < s.opos.toNat + k * c then some (s.inByte (s.ipos.toNat + (a - s.opos.toNat)))
        else s.outBuf.read a

/-- R161, R162: a chunk byte that is needed and lies at or beyond `IN_LEN` is `OutOfData`. -/
def Obligations.RunLengthTruncatedFails : Prop :=
  ∀ (cnt : BitVec 7) (s : State),
    (s.avail < s.channels.toNat → ∃ t, exec (.rlRep cnt) s = .next t ∧ failedAfterStart .rld .outOfData s t) ∧
    (s.opos.toNat ≤ s.outLen.toNat → s.channels.toNat ∣ s.outLen.toNat - s.opos.toNat →
      s.avail < min (cnt.toNat + 1) ((s.outLen.toNat - s.opos.toNat) / s.channels.toNat) * s.channels.toNat →
      ∃ t, exec (.rlRaw cnt) s = .next t ∧ failedAfterStart .rld .outOfData s t)

/-- R160, R165: an `RLD` within capacity always ends: `DONE` with `OPOS = OUT_LEN = WIDTH * HEIGHT * CHANNELS`, or failed
with `OutOfData`; it writes nothing but what R24 lists. -/
def Obligations.RldEndsFullOrFails : Prop :=
  ∀ s : State, s.inLen.toNat ≤ s.inCap → s.total ≤ s.outCap →
    ∃ t, exec .rld s = .next t ∧
      ((t = { s with
          st := .done, outv := true, err := none, errInfo := 0#32, ipos := t.ipos, opos := t.outLen,
          outLen := t.outLen, outBuf := t.outBuf, phase := .host, row := 0 } ∧
        t.outLen.toNat = s.total ∧ s.ipos.toNat ≤ t.ipos.toNat ∧
        (s.ipos.toNat ≤ s.inLen.toNat → t.ipos.toNat ≤ s.inLen.toNat) ∧
        ∀ a, (t.outBuf.read a).isSome ↔ a < s.total) ∨
      (failedAfterStart .rld .outOfData s t ∧ t.outv = false))

/-- R160 to R163: an image that one packet covers. A repeat packet fills it with its chunk; a literal run fills it with
the bytes that follow; the rest of the run is not consumed. -/
def Obligations.RldOfOnePacket : Prop :=
  ∀ s : State,
    let c := s.inByte s.ipos.toNat
    s.inLen.toNat ≤ s.inCap → s.total ≤ s.outCap → 0 < s.total →
    s.width.toNat * s.height.toNat ≤ (c.extractLsb' 0 7).toNat + 1 →
    (c.getLsbD 7 = true → s.ipos.toNat + 1 + s.channels.toNat ≤ s.inLen.toNat →
      ∃ t, exec .rld s = .next t ∧
        t = { s with
          st := .done, outv := true, err := none, errInfo := 0#32,
          ipos := s.ipos + BitVec.ofNat 32 (1 + s.channels.toNat), opos := BitVec.ofNat 32 s.total,
          outLen := BitVec.ofNat 32 s.total, outBuf := t.outBuf, phase := .host, row := 0 } ∧
        ∀ a, t.outBuf.read a =
          if a < s.total then some (s.inByte (s.ipos.toNat + 1 + a % s.channels.toNat)) else none) ∧
    (c.getLsbD 7 = false → s.ipos.toNat + 1 + s.total ≤ s.inLen.toNat →
      ∃ t, exec .rld s = .next t ∧
        t = { s with
          st := .done, outv := true, err := none, errInfo := 0#32, ipos := s.ipos + BitVec.ofNat 32 (1 + s.total),
          opos := BitVec.ofNat 32 s.total, outLen := BitVec.ofNat 32 s.total, outBuf := t.outBuf, phase := .host,
          row := 0 } ∧
        ∀ a, t.outBuf.read a = if a < s.total then some (s.inByte (s.ipos.toNat + 1 + a)) else none)

/-! ### The chroma upsampler -/

/-- R170 to R174: with even dimensions, room in `OUT` and enough input, `CUP` completes, and every pixel's three bytes are
the formulas of R173 over the samples of R171, at the places of R174. -/
def Obligations.CupUpsamplesEveryPixel : Prop :=
  ∀ s : State,
    let w := s.width.toNat
    let h := s.height.toNat
    let q := w / 2 * (h / 2)
    s.inLen.toNat ≤ s.inCap → w % 2 = 0 → h % 2 = 0 → w * h * 3 ≤ s.outCap → w * h + 2 * q ≤ s.avail →
    ∃ t, exec .cup s = .next t ∧
      t = { s with
        st := .done, outv := true, err := none, errInfo := 0#32, ipos := s.ipos + BitVec.ofNat 32 (w * h + 2 * q),
        opos := BitVec.ofNat 32 (w * h * 3), outLen := BitVec.ofNat 32 (w * h * 3), outBuf := t.outBuf, phase := .host,
        row := 0 } ∧
      (∀ x y, x < w → y < h →
        let cb := (s.inByte (s.ipos.toNat + (y / 2 * (w / 2) + x / 2))).toInt
        let cr := (s.inByte (s.ipos.toNat + q + (y / 2 * (w / 2) + x / 2))).toInt
        let l : Int := (s.inByte (s.ipos.toNat + 2 * q + (y * w + x))).toNat
        t.outBuf.read ((y * w + x) * 3) = some (clamp ((l * 128 + 226 * cb) / 128)) ∧
        t.outBuf.read ((y * w + x) * 3 + 1) = some (clamp ((l * 128 - 43 * cb - 89 * cr) / 128)) ∧
        t.outBuf.read ((y * w + x) * 3 + 2) = some (clamp ((l * 128 + 179 * cr) / 128))) ∧
      ∀ a, w * h * 3 ≤ a → t.outBuf.read a = none

/-- R176: an odd dimension is refused with nothing changed; a short input is `SizeMismatch` after the start. -/
def Obligations.CupRejectsOddAndShort : Prop :=
  ∀ s : State,
    (s.width.toNat % 2 = 1 ∨ s.height.toNat % 2 = 1 → exec .cup s = .next (refusedState s)) ∧
    (s.inLen.toNat ≤ s.inCap → s.width.toNat % 2 = 0 → s.height.toNat % 2 = 0 →
      3 * s.width.toNat * s.height.toNat ≤ s.outCap → s.avail < 3 * s.width.toNat * s.height.toNat / 2 →
      ∃ t, exec .cup s = .next t ∧ failedAfterStart .cup .sizeMismatch s t ∧ t.outv = false)

/-- R11, R12: `clamp` saturates and a signed byte is two's complement; R173: the three bytes of a pixel are the clamped
formulas, so each is 0 where its shifted sum is negative and 255 where that is above 255; R175, R176: a zero chroma pair
gives a grey pixel, and over all samples the shifted sums stay in the ranges named. -/
def Obligations.PixelRanges : Prop :=
  (∀ v : Int, (v < 0 → clamp v = 0#8) ∧ (255 < v → clamp v = 255#8) ∧ (0 ≤ v → v ≤ 255 → ((clamp v).toNat : Int) = v)) ∧
  (∀ b : Byte, sint8 b = if b.toNat < 128 then (b.toNat : Int) else (b.toNat : Int) - 256) ∧
  (∀ b : Byte, blueOf b.toNat 0 = b ∧ greenOf b.toNat 0 0 = b ∧ redOf b.toNat 0 = b) ∧
  ∀ l cb cr : Byte,
    let blue : Int := ((l.toNat : Int) * 128 + 226 * sint8 cb) / 128
    let green : Int := ((l.toNat : Int) * 128 - 43 * sint8 cb - 89 * sint8 cr) / 128
    let red : Int := ((l.toNat : Int) * 128 + 179 * sint8 cr) / 128
    let saturates (x : Byte) (v : Int) : Prop :=
      (v < 0 → x = 0#8) ∧ (255 < v → x = 255#8) ∧ (0 ≤ v → v ≤ 255 → (x.toNat : Int) = v)
    saturates (blueOf l.toNat (sint8 cb)) blue ∧ -226 ≤ blue ∧ blue ≤ 479 ∧
    saturates (greenOf l.toNat (sint8 cb) (sint8 cr)) green ∧ -131 ≤ green ∧ green ≤ 387 ∧
    saturates (redOf l.toNat (sint8 cr)) red ∧ -179 ≤ red ∧ red ≤ 432

/-! ### The delta filter -/

/-- R184 to R186: a row under each selector appends its `stride` bytes, each reconstructed from the stored value, the row
above and the reconstructed previous pixel, and changes nothing else but the output cursor and the row. -/
def Obligations.DeltaRowsReconstruct : Prop :=
  ∀ (i : Instr) (code : Byte) (s : State),
    (i = .dfH ∧ code = 1#8) ∨ (i = .dfV ∧ code = 2#8) ∨ (i = .dfA ∧ code = 4#8) →
    s.opos.toNat = s.row * s.stride → s.opos.toNat + s.stride < 2 ^ 32 →
    ∃ t, exec i s = .next t ∧
      t = { s with opos := s.opos + BitVec.ofNat 32 s.stride, outBuf := t.outBuf, row := s.row + 1 } ∧
      (∀ j, j < s.stride →
        t.outBuf.read (s.row * s.stride + j) = some (deltaByte code (j < s.channels.toNat)
          (if s.row = 0 then 0#8 else s.outByte ((s.row - 1) * s.stride + j))
          (t.outByte (s.row * s.stride + j - s.channels.toNat))
          (s.inByte (s.ipos.toNat + s.row * s.stride + j)))) ∧
      ∀ a, a < s.opos.toNat ∨ s.opos.toNat + s.stride ≤ a → t.outBuf.read a = s.outBuf.read a

/-- R187: a row whose stored values are the forward filter of `v` (the predictor less the value, the first channel group
as it is under codes 1 and 4) is reconstructed to `v`, byte for byte, under each code. -/
def Obligations.ForwardFilterThenRowGivesBack : Prop :=
  ∀ (s : State) (v : Nat → Byte), s.opos.toNat = s.row * s.stride → s.opos.toNat + s.stride < 2 ^ 32 →
    let c := s.channels.toNat
    let stored (j : Nat) : Byte := s.inByte (s.ipos.toNat + s.row * s.stride + j)
    let above (j : Nat) : Byte := if s.row = 0 then 0#8 else s.outByte ((s.row - 1) * s.stride + j)
    let gives (i : Instr) : Prop :=
      ∃ t, exec i s = .next t ∧ ∀ j, j < s.stride → t.outBuf.read (s.row * s.stride + j) = some (v j)
    ((∀ j, j < s.stride → stored j = if j < c then v j else v (j - c) - v j) → gives .dfH) ∧
    ((∀ j, j < s.stride → stored j = above j - v j) → gives .dfV) ∧
    ((∀ j, j < s.stride → stored j =
      if j < c then v j else BitVec.ofNat 8 (((above j).toNat + (v (j - c)).toNat) / 2) - v j) → gives .dfA)

/-- R180, R183 to R186: with enough payload, enough selectors and every selector 1, 2 or 4, `DLF` completes and every byte
of the output is the reconstruction of R180 from its neighbours in that output. -/
def Obligations.DlfReconstructsImage : Prop :=
  ∀ s : State, s.inLen.toNat ≤ s.inCap → s.total ≤ s.outCap → s.total ≤ s.avail → s.height.toNat ≤ s.selLen.toNat →
    (∀ y, y < s.height.toNat → s.selByte y = 1#8 ∨ s.selByte y = 2#8 ∨ s.selByte y = 4#8) →
    ∃ t, exec .dlf s = .next t ∧
      t = { s with
        st := .done, outv := true, err := none, errInfo := 0#32, ipos := s.ipos + BitVec.ofNat 32 s.total,
        opos := BitVec.ofNat 32 s.total, outLen := BitVec.ofNat 32 s.total, outBuf := t.outBuf, phase := .host,
        row := 0 } ∧
      (∀ y j, y < s.height.toNat → j < s.stride →
        t.outBuf.read (y * s.stride + j) = some (deltaByte (s.selByte y) (j < s.channels.toNat)
          (if y = 0 then 0#8 else t.outByte ((y - 1) * s.stride + j))
          (t.outByte (y * s.stride + j - s.channels.toNat))
          (s.inByte (s.ipos.toNat + y * s.stride + j)))) ∧
      ∀ a, s.total ≤ a → t.outBuf.read a = none

/-- R181, R182: a short payload or a short selector array is `SizeMismatch`, whatever the selectors are; else the first
row whose selector is not 1, 2 or 4 raises `UnknownDeltaFilter` with that byte, even when the rows are empty. -/
def Obligations.DlfFailuresInOrder : Prop :=
  ∀ s : State, s.inLen.toNat ≤ s.inCap → s.total ≤ s.outCap →
    (s.avail < s.total ∨ s.selLen.toNat < s.height.toNat →
      ∃ t, exec .dlf s = .next t ∧ failedAfterStart .dlf .sizeMismatch s t ∧ t.outv = false) ∧
    (s.total ≤ s.avail → s.height.toNat ≤ s.selLen.toNat → ∀ y, y < s.height.toNat →
      (∀ x, x < y → s.selByte x = 1#8 ∨ s.selByte x = 2#8 ∨ s.selByte x = 4#8) →
      s.selByte y ≠ 1#8 → s.selByte y ≠ 2#8 → s.selByte y ≠ 4#8 →
      ∃ t, exec .dlf s = .next t ∧ failedAfterStart .dlf (.unknownDeltaFilter (s.selByte y)) s t ∧
        t.errInfo.toNat = (s.selByte y).toNat ∧ t.outv = false)

/-- R188 to R190: the header's item, with the declared width and height and a byte for every selector, keeps the depth,
loads the selectors and `SEL_LEN`, and passes on to the body. The skipped bytes have no effect. -/
def Obligations.BlockHeaderLoadsSelectors : Prop :=
  ∀ (skip depth width height : Half) (s : State), width = s.width → height = s.height → s.height.toNat ≤ s.avail →
    ∃ t, exec (.dbkHdr skip depth width height) s = .next t ∧
      t = { s with
        depth := depth, ipos := s.ipos + BitVec.ofNat 32 s.height.toNat, selLen := s.height, selBuf := t.selBuf,
        phase := .body .dbk, row := 0 } ∧
      ∀ a, t.selBuf.read a =
        if a < s.height.toNat then some (s.inByte (s.ipos.toNat + a)) else s.selBuf.read a

/-- R190, R211: a header whose width or height is not the declared one, or after which fewer bytes remain than there are
rows, is `SizeMismatch`. -/
def Obligations.BlockHeaderMismatchFails : Prop :=
  ∀ (skip depth width height : Half) (s : State),
    width ≠ s.width ∨ height ≠ s.height ∨ s.avail < s.height.toNat →
    ∃ t, exec (.dbkHdr skip depth width height) s = .next t ∧ failedAfterStart .dbk .sizeMismatch s t

/-- R188, R189: `DBK` on a good block completes, with the result of `DLF` on the payload after the header and the
selectors, with those selectors in `SEL`; beside that it keeps the header's depth. -/
def Obligations.DbkIsDlfOnThePayload : Prop :=
  ∀ s : State,
    let p := s.ipos.toNat
    let h := s.height.toNat
    s.inLen.toNat ≤ s.inCap → s.total ≤ s.outCap → 8 + h + s.total ≤ s.avail →
    s.inByte (p + 5) ++ s.inByte (p + 4) = s.width → s.inByte (p + 7) ++ s.inByte (p + 6) = s.height →
    (∀ y, y < h → s.inByte (p + 8 + y) = 1#8 ∨ s.inByte (p + 8 + y) = 2#8 ∨ s.inByte (p + 8 + y) = 4#8) →
    ∃ t, exec .dlf { s with
          ipos := s.ipos + BitVec.ofNat 32 (8 + h), selLen := s.height, selBuf := loadedSelectors s (p + 8) h } =
        .next t ∧
      t.st = .done ∧ t.ipos.toNat = p + 8 + h + s.total ∧
      exec .dbk s = .next { t with depth := s.inByte (p + 3) ++ s.inByte (p + 2) }

/-- R188, R207, R211: a truncated header is `OutOfData`; a header that disagrees, too few selector bytes or a short payload
is `SizeMismatch`; else the first unknown selector is reported. -/
def Obligations.DbkFailuresInOrder : Prop :=
  ∀ s : State,
    let p := s.ipos.toNat
    let h := s.height.toNat
    s.inLen.toNat ≤ s.inCap → s.total ≤ s.outCap →
    (s.avail < 8 → ∃ t, exec .dbk s = .next t ∧ failedAfterStart .dbk .outOfData s t ∧ t.outv = false) ∧
    (8 ≤ s.avail →
      s.inByte (p + 5) ++ s.inByte (p + 4) ≠ s.width ∨ s.inByte (p + 7) ++ s.inByte (p + 6) ≠ s.height ∨
        s.avail < 8 + h + s.total →
      ∃ t, exec .dbk s = .next t ∧ failedAfterStart .dbk .sizeMismatch s t ∧ t.outv = false) ∧
    (8 + h + s.total ≤ s.avail →
      s.inByte (p + 5) ++ s.inByte (p + 4) = s.width → s.inByte (p + 7) ++ s.inByte (p + 6) = s.height →
      ∀ y, y < h →
      (∀ x, x < y → s.inByte (p + 8 + x) = 1#8 ∨ s.inByte (p + 8 + x) = 2#8 ∨ s.inByte (p + 8 + x) = 4#8) →
      s.inByte (p + 8 + y) ≠ 1#8 → s.inByte (p + 8 + y) ≠ 2#8 → s.inByte (p + 8 + y) ≠ 4#8 →
      ∃ t, exec .dbk s = .next t ∧ failedAfterStart .dbk (.unknownDeltaFilter (s.inByte (p + 8 + y))) s t ∧
        t.outv = false)

/-! ### All commands -/

/-- R216: the pre-start checks. A command that fails one is refused: `IllegalOperation` is latched, nothing else changes. -/
def Obligations.PreStartChecksRefuse : Prop :=
  ∀ s : State,
    (∀ c : Half, IllegalWord c → writeCommand c s = .next (refusedState s)) ∧
    (s.inCap < s.inLen.toNat →
      (∀ n, exec (.bget n) s = .next (refusedState s)) ∧
      ∀ i ∈ [Instr.lzd, Instr.rld, Instr.cup, Instr.dlf, Instr.dbk], exec i s = .next (refusedState s)) ∧
    (s.width.toNat % 2 = 1 ∨ s.height.toNat % 2 = 1 → exec .cup s = .next (refusedState s)) ∧
    (s.outCap < s.outLen.toNat → exec .lzd s = .next (refusedState s)) ∧
    (s.outCap < s.width.toNat * s.height.toNat * s.channels.toNat →
      ∀ i ∈ [Instr.rld, Instr.dlf, Instr.dbk], exec i s = .next (refusedState s)) ∧
    (s.outCap < 3 * s.width.toNat * s.height.toNat → exec .cup s = .next (refusedState s))

/-- R246: a zero size gives an empty output, not a failure, and consumes nothing. -/
def Obligations.EmptyOutputCompletes : Prop :=
  ∀ s : State, s.inLen.toNat ≤ s.inCap →
    let empty : State := { s with
      st := .done, outv := true, err := none, errInfo := 0#32, outLen := 0#32, opos := 0#32, outBuf := [],
      phase := .host, row := 0 }
    (s.outLen = 0#32 → exec .lzd s = .next { empty with ctl := 0x0000#16 }) ∧
    (s.total = 0 → exec .rld s = .next empty) ∧
    (s.width.toNat % 2 = 0 → s.height.toNat % 2 = 0 → s.width.toNat * s.height.toNat = 0 → exec .cup s = .next empty) ∧
    (s.height = 0#16 → exec .dlf s = .next empty)

/-- R150 with R71 (the spec's own decision D16; log entry 14): an `LZD` whose first token is a short one with look-behind 0 and a count that covers the output writes
zero bytes. -/
def Obligations.LookBehindZeroWritesZeros : Prop :=
  ∀ s : State, s.inLen.toNat ≤ s.inCap → s.outLen.toNat ≤ s.outCap → 0 < s.outLen.toNat →
    (s.inByte s.ipos.toNat).getLsbD 7 = true → s.ipos.toNat + 3 ≤ s.inLen.toNat →
    (s.inByte (s.ipos.toNat + 1)).toNat / 8 = 1 → s.inByte (s.ipos.toNat + 2) = 0#8 →
    s.outLen.toNat ≤ (s.inByte (s.ipos.toNat + 1)).toNat % 8 + 4 →
    ∃ t, exec .lzd s = .next t ∧ t.st = .done ∧ t.ipos = s.ipos + 3#32 ∧ t.opos = s.outLen ∧
      ∀ a, t.outBuf.read a = if a < s.outLen.toNat then some 0#8 else none

/-- R26, R70, R241: a command sees the stream `IN[0 .. IN_LEN-1]` and nothing beyond it. With any other contents of `IN`
that agree below `IN_LEN`, it does the same. Of a command that fails after its start this equates what R213 leaves
unspecified too, which is the model's choice of free values at one counter (log entry 3), not the spec's. -/
def Obligations.CommandsSeeOnlyTheStream : Prop :=
  ∀ (i : Instr) (s t : State) (m : Mem) (k : Nat), itemContext i = .command →
    (∀ a, a < s.inLen.toNat → { s with inBuf := m, inSeed := k }.inByte a = s.inByte a) →
    exec i s = .next t → exec i { s with inBuf := m, inSeed := k } = .next { t with inBuf := m, inSeed := k }

/-- R71, R242, R245: a decode command that is not refused does not depend on what an earlier command left in `OUT`,
`OPOS` and, for `LZD`, `CTL`. Of a command that fails after its start this equates what R213 leaves unspecified too, which
is the model's choice of free values at one counter (log entry 3), not the spec's. -/
def Obligations.DecodeForgetsEarlierOutput : Prop :=
  ∀ (i : Instr) (s t : State) (m : Mem) (p : Word) (c : Half),
    i ∈ [Instr.lzd, Instr.rld, Instr.cup, Instr.dlf, Instr.dbk] → exec i s = .next t →
    t.err ≠ some .illegalOperation →
    exec i { s with outBuf := m, opos := p, ctl := if i = .lzd then c else s.ctl } = .next t

/-- R31, R217: each command is a new attempt. A command that is not refused does the same whatever `ST`, `ERR` and
`ERRINFO` hold. Of a decode command that fails after its start this equates what R213 leaves unspecified too, which is
the model's choice of free values at one counter (log entry 3), not the spec's. -/
def Obligations.EachCommandIsANewAttempt : Prop :=
  ∀ (i : Instr) (s t : State) (a : RunStatus) (e : Option FailKind) (w : Word), itemContext i = .command →
    exec i s = .next t → t.err ≠ some .illegalOperation →
    exec i { s with st := a, err := e, errInfo := w } = .next t

/-! ### Invariants -/

/-- The buffers are in canonical form after reset: nothing is listed. The form is the model's (log entry 4). -/
def Obligations.ResetBuffersCanonical : Prop := State.reset.memOk

/-- Every step keeps the buffers in canonical form, which is the model's (log entry 4). -/
def Obligations.StepKeepsBuffersCanonical : Prop := ∀ s t : State, s.memOk → step s = .next t → t.memOk

/-- After reset every buffer lies inside its capacity, which is the model's choice among R9's ranges (log entry 1). -/
def Obligations.ResetWithinCapacities : Prop := State.reset.boundsOk

/-- R70: every step keeps every byte of `IN`, `SEL` and `OUT` inside the buffer's capacity, and the output cursor of a
running command inside the output: the output buffer never grows and is never overrun. -/
def Obligations.StepKeepsWithinCapacities : Prop := ∀ s t : State, s.boundsOk → step s = .next t → t.boundsOk

/-- After reset the failure record agrees with the outcome and no command is running (R236; that a running command has a
place of its own in the state is the model's choice, log entry 7). -/
def Obligations.ResetRecordAndRest : Prop := State.reset.recordOk ∧ State.reset.settled

/-- R31, R32, R206: every step keeps the failure record in agreement with `ST`. -/
def Obligations.StepKeepsFailureRecord : Prop := ∀ s t : State, s.recordOk → step s = .next t → t.recordOk

/-- R74: a command is atomic to the host. A step from a state in which no command is running leads to one in which none
is running. That a running command has a place in the state at all is the model's choice (log entry 7). -/
def Obligations.CommandsAreAtomic : Prop := ∀ s t : State, s.settled → step s = .next t → t.settled

/-- R9: no step changes the capacities. That they stand in the state is the model's choice (log entry 1). -/
def Obligations.StepKeepsCapacities : Prop :=
  ∀ s t : State, step s = .next t → t.inCap = s.inCap ∧ t.outCap = s.outCap

/-- R153, R165, R249: every step ends in a next state, but for a host read of `IN` or `SEL` at an address where the spec
says no byte is, which is always the fault. In particular every command ends, in every state. With no host action pending
the block waits: the step answers the same state (R235). The fault is the model's choice (log entry 6), and so is that
waiting is a step (log entry 18). -/
def Obligations.EveryStepEnds : Prop :=
  ∀ s : State,
    let noByte : Prop := s.phase = .host ∧
      ∃ a rest, (s.pending = .readIn a :: rest ∧ s.inCap ≤ a) ∨ (s.pending = .readSel a :: rest ∧ 65535 ≤ a)
    (¬ noByte → ∃ t, step s = .next t) ∧ (noByte → step s = .fault .noSuchByte) ∧
    (s.phase = .host → s.pending = [] → step s = .next s)
end

