-- ==== Sys2Proof/Laws/State.lean ====
section
/-!
SUPPORT. One lemma per field per update of State (every one true by rfl), so that no later proof unfolds a record update;
and what a raise leaves, field by field.
-/
namespace Sys2Proof.Machine

variable (s : State)

/-! ### outPut -/

@[simp] theorem State.outPut_st (v : Byte) : (s.outPut v).st = s.st := rfl
@[simp] theorem State.outPut_outv (v : Byte) : (s.outPut v).outv = s.outv := rfl
@[simp] theorem State.outPut_err (v : Byte) : (s.outPut v).err = s.err := rfl
@[simp] theorem State.outPut_errInfo (v : Byte) : (s.outPut v).errInfo = s.errInfo := rfl
@[simp] theorem State.outPut_inLen (v : Byte) : (s.outPut v).inLen = s.inLen := rfl
@[simp] theorem State.outPut_ipos (v : Byte) : (s.outPut v).ipos = s.ipos := rfl
@[simp] theorem State.outPut_bpos (v : Byte) : (s.outPut v).bpos = s.bpos := rfl
@[simp] theorem State.outPut_bres (v : Byte) : (s.outPut v).bres = s.bres := rfl
@[simp] theorem State.outPut_outLen (v : Byte) : (s.outPut v).outLen = s.outLen := rfl
@[simp] theorem State.outPut_opos (v : Byte) : (s.outPut v).opos = s.opos + 1#32 := rfl
@[simp] theorem State.outPut_width (v : Byte) : (s.outPut v).width = s.width := rfl
@[simp] theorem State.outPut_height (v : Byte) : (s.outPut v).height = s.height := rfl
@[simp] theorem State.outPut_channels (v : Byte) : (s.outPut v).channels = s.channels := rfl
@[simp] theorem State.outPut_selLen (v : Byte) : (s.outPut v).selLen = s.selLen := rfl
@[simp] theorem State.outPut_depth (v : Byte) : (s.outPut v).depth = s.depth := rfl
@[simp] theorem State.outPut_ctl (v : Byte) : (s.outPut v).ctl = s.ctl := rfl
@[simp] theorem State.outPut_inBuf (v : Byte) : (s.outPut v).inBuf = s.inBuf := rfl
@[simp] theorem State.outPut_selBuf (v : Byte) : (s.outPut v).selBuf = s.selBuf := rfl
@[simp] theorem State.outPut_outBuf (v : Byte) : (s.outPut v).outBuf = s.outBuf.write s.opos.toNat v := rfl
@[simp] theorem State.outPut_inCapPred (v : Byte) : (s.outPut v).inCapPred = s.inCapPred := rfl
@[simp] theorem State.outPut_outCapPred (v : Byte) : (s.outPut v).outCapPred = s.outCapPred := rfl
@[simp] theorem State.outPut_phase (v : Byte) : (s.outPut v).phase = s.phase := rfl
@[simp] theorem State.outPut_row (v : Byte) : (s.outPut v).row = s.row := rfl
@[simp] theorem State.outPut_pending (v : Byte) : (s.outPut v).pending = s.pending := rfl
@[simp] theorem State.outPut_readData (v : Byte) : (s.outPut v).readData = s.readData := rfl
@[simp] theorem State.outPut_fresh (v : Byte) : (s.outPut v).fresh = s.fresh := rfl
@[simp] theorem State.outPut_inSeed (v : Byte) : (s.outPut v).inSeed = s.inSeed := rfl
@[simp] theorem State.outPut_selSeed (v : Byte) : (s.outPut v).selSeed = s.selSeed := rfl

/-! ### consume -/

@[simp] theorem State.consume_st (n : Nat) : (s.consume n).st = s.st := rfl
@[simp] theorem State.consume_outv (n : Nat) : (s.consume n).outv = s.outv := rfl
@[simp] theorem State.consume_err (n : Nat) : (s.consume n).err = s.err := rfl
@[simp] theorem State.consume_errInfo (n : Nat) : (s.consume n).errInfo = s.errInfo := rfl
@[simp] theorem State.consume_inLen (n : Nat) : (s.consume n).inLen = s.inLen := rfl
@[simp] theorem State.consume_ipos (n : Nat) : (s.consume n).ipos = s.ipos + BitVec.ofNat 32 n := rfl
@[simp] theorem State.consume_bpos (n : Nat) : (s.consume n).bpos = s.bpos := rfl
@[simp] theorem State.consume_bres (n : Nat) : (s.consume n).bres = s.bres := rfl
@[simp] theorem State.consume_outLen (n : Nat) : (s.consume n).outLen = s.outLen := rfl
@[simp] theorem State.consume_opos (n : Nat) : (s.consume n).opos = s.opos := rfl
@[simp] theorem State.consume_width (n : Nat) : (s.consume n).width = s.width := rfl
@[simp] theorem State.consume_height (n : Nat) : (s.consume n).height = s.height := rfl
@[simp] theorem State.consume_channels (n : Nat) : (s.consume n).channels = s.channels := rfl
@[simp] theorem State.consume_selLen (n : Nat) : (s.consume n).selLen = s.selLen := rfl
@[simp] theorem State.consume_depth (n : Nat) : (s.consume n).depth = s.depth := rfl
@[simp] theorem State.consume_ctl (n : Nat) : (s.consume n).ctl = s.ctl := rfl
@[simp] theorem State.consume_inBuf (n : Nat) : (s.consume n).inBuf = s.inBuf := rfl
@[simp] theorem State.consume_selBuf (n : Nat) : (s.consume n).selBuf = s.selBuf := rfl
@[simp] theorem State.consume_outBuf (n : Nat) : (s.consume n).outBuf = s.outBuf := rfl
@[simp] theorem State.consume_inCapPred (n : Nat) : (s.consume n).inCapPred = s.inCapPred := rfl
@[simp] theorem State.consume_outCapPred (n : Nat) : (s.consume n).outCapPred = s.outCapPred := rfl
@[simp] theorem State.consume_phase (n : Nat) : (s.consume n).phase = s.phase := rfl
@[simp] theorem State.consume_row (n : Nat) : (s.consume n).row = s.row := rfl
@[simp] theorem State.consume_pending (n : Nat) : (s.consume n).pending = s.pending := rfl
@[simp] theorem State.consume_readData (n : Nat) : (s.consume n).readData = s.readData := rfl
@[simp] theorem State.consume_fresh (n : Nat) : (s.consume n).fresh = s.fresh := rfl
@[simp] theorem State.consume_inSeed (n : Nat) : (s.consume n).inSeed = s.inSeed := rfl
@[simp] theorem State.consume_selSeed (n : Nat) : (s.consume n).selSeed = s.selSeed := rfl

/-! ### complete -/

@[simp] theorem State.complete_st : (s.complete).st = .done := rfl
@[simp] theorem State.complete_outv : (s.complete).outv = true := rfl
@[simp] theorem State.complete_err : (s.complete).err = s.err := rfl
@[simp] theorem State.complete_errInfo : (s.complete).errInfo = s.errInfo := rfl
@[simp] theorem State.complete_inLen : (s.complete).inLen = s.inLen := rfl
@[simp] theorem State.complete_ipos : (s.complete).ipos = s.ipos := rfl
@[simp] theorem State.complete_bpos : (s.complete).bpos = s.bpos := rfl
@[simp] theorem State.complete_bres : (s.complete).bres = s.bres := rfl
@[simp] theorem State.complete_outLen : (s.complete).outLen = s.outLen := rfl
@[simp] theorem State.complete_opos : (s.complete).opos = s.opos := rfl
@[simp] theorem State.complete_width : (s.complete).width = s.width := rfl
@[simp] theorem State.complete_height : (s.complete).height = s.height := rfl
@[simp] theorem State.complete_channels : (s.complete).channels = s.channels := rfl
@[simp] theorem State.complete_selLen : (s.complete).selLen = s.selLen := rfl
@[simp] theorem State.complete_depth : (s.complete).depth = s.depth := rfl
@[simp] theorem State.complete_ctl : (s.complete).ctl = s.ctl := rfl
@[simp] theorem State.complete_inBuf : (s.complete).inBuf = s.inBuf := rfl
@[simp] theorem State.complete_selBuf : (s.complete).selBuf = s.selBuf := rfl
@[simp] theorem State.complete_outBuf : (s.complete).outBuf = s.outBuf := rfl
@[simp] theorem State.complete_inCapPred : (s.complete).inCapPred = s.inCapPred := rfl
@[simp] theorem State.complete_outCapPred : (s.complete).outCapPred = s.outCapPred := rfl
@[simp] theorem State.complete_phase : (s.complete).phase = .host := rfl
@[simp] theorem State.complete_row : (s.complete).row = 0 := rfl
@[simp] theorem State.complete_pending : (s.complete).pending = s.pending := rfl
@[simp] theorem State.complete_readData : (s.complete).readData = s.readData := rfl
@[simp] theorem State.complete_fresh : (s.complete).fresh = s.fresh := rfl
@[simp] theorem State.complete_inSeed : (s.complete).inSeed = s.inSeed := rfl
@[simp] theorem State.complete_selSeed : (s.complete).selSeed = s.selSeed := rfl

/-! ### startDecode -/

@[simp] theorem State.startDecode_st (n : Word) (p : Phase) : (s.startDecode n p).st = s.st := rfl
@[simp] theorem State.startDecode_outv (n : Word) (p : Phase) : (s.startDecode n p).outv = false := rfl
@[simp] theorem State.startDecode_err (n : Word) (p : Phase) : (s.startDecode n p).err = none := rfl
@[simp] theorem State.startDecode_errInfo (n : Word) (p : Phase) : (s.startDecode n p).errInfo = 0#32 := rfl
@[simp] theorem State.startDecode_inLen (n : Word) (p : Phase) : (s.startDecode n p).inLen = s.inLen := rfl
@[simp] theorem State.startDecode_ipos (n : Word) (p : Phase) : (s.startDecode n p).ipos = s.ipos := rfl
@[simp] theorem State.startDecode_bpos (n : Word) (p : Phase) : (s.startDecode n p).bpos = s.bpos := rfl
@[simp] theorem State.startDecode_bres (n : Word) (p : Phase) : (s.startDecode n p).bres = s.bres := rfl
@[simp] theorem State.startDecode_outLen (n : Word) (p : Phase) : (s.startDecode n p).outLen = n := rfl
@[simp] theorem State.startDecode_opos (n : Word) (p : Phase) : (s.startDecode n p).opos = 0#32 := rfl
@[simp] theorem State.startDecode_width (n : Word) (p : Phase) : (s.startDecode n p).width = s.width := rfl
@[simp] theorem State.startDecode_height (n : Word) (p : Phase) : (s.startDecode n p).height = s.height := rfl
@[simp] theorem State.startDecode_channels (n : Word) (p : Phase) : (s.startDecode n p).channels = s.channels := rfl
@[simp] theorem State.startDecode_selLen (n : Word) (p : Phase) : (s.startDecode n p).selLen = s.selLen := rfl
@[simp] theorem State.startDecode_depth (n : Word) (p : Phase) : (s.startDecode n p).depth = s.depth := rfl
@[simp] theorem State.startDecode_ctl (n : Word) (p : Phase) : (s.startDecode n p).ctl = s.ctl := rfl
@[simp] theorem State.startDecode_inBuf (n : Word) (p : Phase) : (s.startDecode n p).inBuf = s.inBuf := rfl
@[simp] theorem State.startDecode_selBuf (n : Word) (p : Phase) : (s.startDecode n p).selBuf = s.selBuf := rfl
@[simp] theorem State.startDecode_outBuf (n : Word) (p : Phase) : (s.startDecode n p).outBuf = Mem.zeros n.toNat := rfl
@[simp] theorem State.startDecode_inCapPred (n : Word) (p : Phase) : (s.startDecode n p).inCapPred = s.inCapPred := rfl
@[simp] theorem State.startDecode_outCapPred (n : Word) (p : Phase) : (s.startDecode n p).outCapPred = s.outCapPred := rfl
@[simp] theorem State.startDecode_phase (n : Word) (p : Phase) : (s.startDecode n p).phase = p := rfl
@[simp] theorem State.startDecode_row (n : Word) (p : Phase) : (s.startDecode n p).row = 0 := rfl
@[simp] theorem State.startDecode_pending (n : Word) (p : Phase) : (s.startDecode n p).pending = s.pending := rfl
@[simp] theorem State.startDecode_readData (n : Word) (p : Phase) : (s.startDecode n p).readData = s.readData := rfl
@[simp] theorem State.startDecode_fresh (n : Word) (p : Phase) : (s.startDecode n p).fresh = s.fresh := rfl
@[simp] theorem State.startDecode_inSeed (n : Word) (p : Phase) : (s.startDecode n p).inSeed = s.inSeed := rfl
@[simp] theorem State.startDecode_selSeed (n : Word) (p : Phase) : (s.startDecode n p).selSeed = s.selSeed := rfl

/-! ### refuse -/

@[simp] theorem State.refuse_st : (s.refuse).st = .failed := rfl
@[simp] theorem State.refuse_outv : (s.refuse).outv = s.outv := rfl
@[simp] theorem State.refuse_err : (s.refuse).err = some .illegalOperation := rfl
@[simp] theorem State.refuse_errInfo : (s.refuse).errInfo = 0#32 := rfl
@[simp] theorem State.refuse_inLen : (s.refuse).inLen = s.inLen := rfl
@[simp] theorem State.refuse_ipos : (s.refuse).ipos = s.ipos := rfl
@[simp] theorem State.refuse_bpos : (s.refuse).bpos = s.bpos := rfl
@[simp] theorem State.refuse_bres : (s.refuse).bres = s.bres := rfl
@[simp] theorem State.refuse_outLen : (s.refuse).outLen = s.outLen := rfl
@[simp] theorem State.refuse_opos : (s.refuse).opos = s.opos := rfl
@[simp] theorem State.refuse_width : (s.refuse).width = s.width := rfl
@[simp] theorem State.refuse_height : (s.refuse).height = s.height := rfl
@[simp] theorem State.refuse_channels : (s.refuse).channels = s.channels := rfl
@[simp] theorem State.refuse_selLen : (s.refuse).selLen = s.selLen := rfl
@[simp] theorem State.refuse_depth : (s.refuse).depth = s.depth := rfl
@[simp] theorem State.refuse_ctl : (s.refuse).ctl = s.ctl := rfl
@[simp] theorem State.refuse_inBuf : (s.refuse).inBuf = s.inBuf := rfl
@[simp] theorem State.refuse_selBuf : (s.refuse).selBuf = s.selBuf := rfl
@[simp] theorem State.refuse_outBuf : (s.refuse).outBuf = s.outBuf := rfl
@[simp] theorem State.refuse_inCapPred : (s.refuse).inCapPred = s.inCapPred := rfl
@[simp] theorem State.refuse_outCapPred : (s.refuse).outCapPred = s.outCapPred := rfl
@[simp] theorem State.refuse_phase : (s.refuse).phase = s.phase := rfl
@[simp] theorem State.refuse_row : (s.refuse).row = s.row := rfl
@[simp] theorem State.refuse_pending : (s.refuse).pending = s.pending := rfl
@[simp] theorem State.refuse_readData : (s.refuse).readData = s.readData := rfl
@[simp] theorem State.refuse_fresh : (s.refuse).fresh = s.fresh := rfl
@[simp] theorem State.refuse_inSeed : (s.refuse).inSeed = s.inSeed := rfl
@[simp] theorem State.refuse_selSeed : (s.refuse).selSeed = s.selSeed := rfl

/-! ### clearRegisters -/

@[simp] theorem State.clearRegisters_st : (s.clearRegisters).st = .idle := rfl
@[simp] theorem State.clearRegisters_outv : (s.clearRegisters).outv = false := rfl
@[simp] theorem State.clearRegisters_err : (s.clearRegisters).err = none := rfl
@[simp] theorem State.clearRegisters_errInfo : (s.clearRegisters).errInfo = 0#32 := rfl
@[simp] theorem State.clearRegisters_inLen : (s.clearRegisters).inLen = 0#32 := rfl
@[simp] theorem State.clearRegisters_ipos : (s.clearRegisters).ipos = 0#32 := rfl
@[simp] theorem State.clearRegisters_bpos : (s.clearRegisters).bpos = 0#32 := rfl
@[simp] theorem State.clearRegisters_bres : (s.clearRegisters).bres = 0#32 := rfl
@[simp] theorem State.clearRegisters_outLen : (s.clearRegisters).outLen = 0#32 := rfl
@[simp] theorem State.clearRegisters_opos : (s.clearRegisters).opos = 0#32 := rfl
@[simp] theorem State.clearRegisters_width : (s.clearRegisters).width = 0#16 := rfl
@[simp] theorem State.clearRegisters_height : (s.clearRegisters).height = 0#16 := rfl
@[simp] theorem State.clearRegisters_channels : (s.clearRegisters).channels = 0#8 := rfl
@[simp] theorem State.clearRegisters_selLen : (s.clearRegisters).selLen = 0#16 := rfl
@[simp] theorem State.clearRegisters_depth : (s.clearRegisters).depth = 0#16 := rfl
@[simp] theorem State.clearRegisters_ctl : (s.clearRegisters).ctl = 0#16 := rfl
@[simp] theorem State.clearRegisters_inBuf : (s.clearRegisters).inBuf = s.inBuf := rfl
@[simp] theorem State.clearRegisters_selBuf : (s.clearRegisters).selBuf = s.selBuf := rfl
@[simp] theorem State.clearRegisters_outBuf : (s.clearRegisters).outBuf = s.outBuf := rfl
@[simp] theorem State.clearRegisters_inCapPred : (s.clearRegisters).inCapPred = s.inCapPred := rfl
@[simp] theorem State.clearRegisters_outCapPred : (s.clearRegisters).outCapPred = s.outCapPred := rfl
@[simp] theorem State.clearRegisters_phase : (s.clearRegisters).phase = s.phase := rfl
@[simp] theorem State.clearRegisters_row : (s.clearRegisters).row = s.row := rfl
@[simp] theorem State.clearRegisters_pending : (s.clearRegisters).pending = s.pending := rfl
@[simp] theorem State.clearRegisters_readData : (s.clearRegisters).readData = s.readData := rfl
@[simp] theorem State.clearRegisters_fresh : (s.clearRegisters).fresh = s.fresh := rfl
@[simp] theorem State.clearRegisters_inSeed : (s.clearRegisters).inSeed = s.inSeed := rfl
@[simp] theorem State.clearRegisters_selSeed : (s.clearRegisters).selSeed = s.selSeed := rfl

/-! ### resetEvent -/

@[simp] theorem State.resetEvent_st : (s.resetEvent).st = .idle := rfl
@[simp] theorem State.resetEvent_outv : (s.resetEvent).outv = false := rfl
@[simp] theorem State.resetEvent_err : (s.resetEvent).err = none := rfl
@[simp] theorem State.resetEvent_errInfo : (s.resetEvent).errInfo = 0#32 := rfl
@[simp] theorem State.resetEvent_inLen : (s.resetEvent).inLen = 0#32 := rfl
@[simp] theorem State.resetEvent_ipos : (s.resetEvent).ipos = 0#32 := rfl
@[simp] theorem State.resetEvent_bpos : (s.resetEvent).bpos = 0#32 := rfl
@[simp] theorem State.resetEvent_bres : (s.resetEvent).bres = 0#32 := rfl
@[simp] theorem State.resetEvent_outLen : (s.resetEvent).outLen = 0#32 := rfl
@[simp] theorem State.resetEvent_opos : (s.resetEvent).opos = 0#32 := rfl
@[simp] theorem State.resetEvent_width : (s.resetEvent).width = 0#16 := rfl
@[simp] theorem State.resetEvent_height : (s.resetEvent).height = 0#16 := rfl
@[simp] theorem State.resetEvent_channels : (s.resetEvent).channels = 0#8 := rfl
@[simp] theorem State.resetEvent_selLen : (s.resetEvent).selLen = 0#16 := rfl
@[simp] theorem State.resetEvent_depth : (s.resetEvent).depth = 0#16 := rfl
@[simp] theorem State.resetEvent_ctl : (s.resetEvent).ctl = 0#16 := rfl
@[simp] theorem State.resetEvent_inBuf : (s.resetEvent).inBuf = [] := rfl
@[simp] theorem State.resetEvent_selBuf : (s.resetEvent).selBuf = [] := rfl
@[simp] theorem State.resetEvent_outBuf : (s.resetEvent).outBuf = [] := rfl
@[simp] theorem State.resetEvent_inCapPred : (s.resetEvent).inCapPred = s.inCapPred := rfl
@[simp] theorem State.resetEvent_outCapPred : (s.resetEvent).outCapPred = s.outCapPred := rfl
@[simp] theorem State.resetEvent_phase : (s.resetEvent).phase = .host := rfl
@[simp] theorem State.resetEvent_row : (s.resetEvent).row = 0 := rfl
@[simp] theorem State.resetEvent_pending : (s.resetEvent).pending = s.pending := rfl
@[simp] theorem State.resetEvent_readData : (s.resetEvent).readData = s.readData := rfl
@[simp] theorem State.resetEvent_fresh : (s.resetEvent).fresh = s.fresh + 1 := rfl
@[simp] theorem State.resetEvent_inSeed : (s.resetEvent).inSeed = s.fresh := rfl
@[simp] theorem State.resetEvent_selSeed : (s.resetEvent).selSeed = s.fresh := rfl

/-! ### raise: the fields that every raise writes or leaves alone (R212, R213) -/

@[simp] theorem State.raise_st (c : Command) (f : Failure) : (s.raise c f).st = .failed := by
  cases c <;> rfl
@[simp] theorem State.raise_outv (c : Command) (f : Failure) : (s.raise c f).outv = s.outv := by
  cases c <;> rfl
@[simp] theorem State.raise_err (c : Command) (f : Failure) : (s.raise c f).err = some f.kind := by
  cases c <;> rfl
@[simp] theorem State.raise_errInfo (c : Command) (f : Failure) : (s.raise c f).errInfo = f.info := by
  cases c <;> rfl
@[simp] theorem State.raise_inLen (c : Command) (f : Failure) : (s.raise c f).inLen = s.inLen := by
  cases c <;> rfl
@[simp] theorem State.raise_bpos (c : Command) (f : Failure) : (s.raise c f).bpos = s.bpos := by
  cases c <;> rfl
@[simp] theorem State.raise_bres (c : Command) (f : Failure) : (s.raise c f).bres = s.bres := by
  cases c <;> rfl
@[simp] theorem State.raise_width (c : Command) (f : Failure) : (s.raise c f).width = s.width := by
  cases c <;> rfl
@[simp] theorem State.raise_height (c : Command) (f : Failure) : (s.raise c f).height = s.height := by
  cases c <;> rfl
@[simp] theorem State.raise_channels (c : Command) (f : Failure) : (s.raise c f).channels = s.channels := by
  cases c <;> rfl
@[simp] theorem State.raise_inBuf (c : Command) (f : Failure) : (s.raise c f).inBuf = s.inBuf := by
  cases c <;> rfl
@[simp] theorem State.raise_inCapPred (c : Command) (f : Failure) : (s.raise c f).inCapPred = s.inCapPred := by
  cases c <;> rfl
@[simp] theorem State.raise_outCapPred (c : Command) (f : Failure) : (s.raise c f).outCapPred = s.outCapPred := by
  cases c <;> rfl
@[simp] theorem State.raise_phase (c : Command) (f : Failure) : (s.raise c f).phase = .host := by
  cases c <;> rfl
@[simp] theorem State.raise_row (c : Command) (f : Failure) : (s.raise c f).row = 0 := by
  cases c <;> rfl
@[simp] theorem State.raise_pending (c : Command) (f : Failure) : (s.raise c f).pending = s.pending := by
  cases c <;> rfl
@[simp] theorem State.raise_readData (c : Command) (f : Failure) : (s.raise c f).readData = s.readData := by
  cases c <;> rfl
@[simp] theorem State.raise_inSeed (c : Command) (f : Failure) : (s.raise c f).inSeed = s.inSeed := by
  cases c <;> rfl

/-- A raise is a failure after the start, in the sense of R213. -/
theorem State.raise_failed (c : Command) (f : Failure) : failedAfterStart c f s (s.raise c f) := by
  cases c <;> simp [failedAfterStart, State.raise, State.forget]

end Sys2Proof.Machine
end

