-- ==== Sys2Proof/Laws/Memory.lean ====
section
/-!
SUPPORT. The laws of the buffers: read after write, and that every operation keeps the canonical form.
-/
namespace Sys2Proof.Machine

@[simp] theorem Mem.read_nil (a : Nat) : Mem.read [] a = none := rfl

theorem Mem.read_cons (b : Nat) (v : Byte) (m : Mem) (a : Nat) :
    Mem.read ((b, v) :: m) a = if a = b then some v else m.read a := rfl

/-- A read after a write gives the value written there, and what the buffer held everywhere else. -/
@[simp] theorem Mem.read_write (m : Mem) (a : Nat) (v : Byte) (x : Nat) :
    (m.write a v).read x = if x = a then some v else m.read x := by
  induction m with
  | nil => simp [Mem.write, Mem.read_cons]
  | cons c rest ih =>
    obtain ⟨b, w⟩ := c
    simp only [Mem.write]
    split
    · simp [Mem.read_cons]
    · split
      · subst_vars
        simp only [Mem.read_cons]
        split <;> rfl
      · simp only [Mem.read_cons, ih]
        split <;> split <;> simp_all

/-- What a list of zeros at given addresses reads as. -/
theorem Mem.read_map_zero (l : List Nat) (a : Nat) :
    Mem.read (l.map fun x => (x, 0#8)) a = if a ∈ l then some 0#8 else none := by
  induction l with
  | nil => simp
  | cons b l ih =>
    simp only [List.map_cons, Mem.read_cons, ih, List.mem_cons]
    split <;> simp_all

/-- The zero-filled output reads 0 below its size and holds nothing beyond it (R71). -/
@[simp] theorem Mem.read_zeros (n a : Nat) : (Mem.zeros n).read a = if a < n then some 0#8 else none := by
  simp [Mem.zeros, Mem.read_map_zero]

/-- An address the buffer lists after a write is the written one or was listed before. -/
theorem Mem.mem_write {m : Mem} {a : Nat} {v : Byte} {x : Host.Cell} (h : x ∈ m.write a v) : x = (a, v) ∨ x ∈ m := by
  induction m with
  | nil => simpa [Mem.write] using h
  | cons c rest ih =>
    obtain ⟨b, w⟩ := c
    simp only [Mem.write] at h
    split at h
    · simpa using h
    · split at h
      · rcases List.mem_cons.mp h with h | h
        · exact .inl h
        · exact .inr (List.mem_cons_of_mem _ h)
      · rcases List.mem_cons.mp h with h | h
        · exact .inr (h ▸ List.mem_cons_self)
        · exact (ih h).imp id (List.mem_cons_of_mem _)

/-- A write keeps the canonical form. -/
theorem Mem.wf_write {m : Mem} (h : m.wf) (a : Nat) (v : Byte) : (m.write a v).wf := by
  induction m with
  | nil => simp [Mem.write, Mem.wf]
  | cons c rest ih =>
    obtain ⟨b, w⟩ := c
    obtain ⟨hb, hr⟩ := List.pairwise_cons.mp h
    simp only [Mem.write]
    split
    · rename_i hlt
      refine List.pairwise_cons.mpr ⟨?_, h⟩
      intro x hx
      rcases List.mem_cons.mp hx with rfl | hx
      · exact hlt
      · exact Nat.lt_trans hlt (hb x hx)
    · split
      · rename_i heq
        subst heq
        exact List.pairwise_cons.mpr ⟨fun x hx => hb x hx, hr⟩
      · refine List.pairwise_cons.mpr ⟨?_, ih hr⟩
        intro x hx
        rcases Mem.mem_write hx with rfl | hx
        · show b < a
          omega
        · exact hb x hx

/-- The zero-filled output is in canonical form. -/
theorem Mem.wf_zeros (n : Nat) : (Mem.zeros n).wf := by
  simpa [Mem.zeros, Mem.wf, List.pairwise_map] using List.pairwise_lt_range

/-- The empty buffer is in canonical form. -/
theorem Mem.wf_nil : Mem.wf [] := List.Pairwise.nil

/-- A write of an address below a bound keeps the buffer below it. -/
theorem Mem.below_write {m : Mem} {n a : Nat} (h : m.below n) (ha : a < n) (v : Byte) : (m.write a v).below n := by
  intro x w hx
  rw [Mem.read_write] at hx
  split at hx
  · omega
  · exact h x w hx

/-- Every operation over the state's buffers keeps the canonical form: an appended byte. -/
theorem State.memOk_outPut {s : State} (h : s.memOk) (v : Byte) : (s.outPut v).memOk :=
  ⟨h.1, h.2.1, Mem.wf_write h.2.2 _ _⟩

/-- The start of a decode command keeps the canonical form. -/
theorem State.memOk_startDecode {s : State} (h : s.memOk) (n : Word) (p : Phase) : (s.startDecode n p).memOk :=
  ⟨h.1, h.2.1, Mem.wf_zeros _⟩

/-- What a failed command leaves unspecified is in canonical form. -/
theorem State.memOk_forget {s : State} (h : s.memOk) (c : Command) : (s.forget c).memOk := by
  obtain ⟨h1, h2, h3⟩ := h
  cases c <;> simp [State.forget, State.memOk, *]

/-- A host write of `IN` keeps the canonical form. -/
theorem State.memOk_hostWriteIn {s : State} (h : s.memOk) (a : Nat) (v : Byte) : (s.hostWriteIn a v).memOk := by
  unfold State.hostWriteIn
  split
  · exact ⟨Mem.wf_write h.1 _ _, h.2.1, h.2.2⟩
  · exact h

/-- A host write of `SEL` keeps the canonical form. -/
theorem State.memOk_hostWriteSel {s : State} (h : s.memOk) (a : Nat) (v : Byte) : (s.hostWriteSel a v).memOk := by
  unfold State.hostWriteSel
  split
  · exact ⟨h.1, Mem.wf_write h.2.1 _ _, h.2.2⟩
  · exact h

/-- The reset event leaves the canonical form. -/
theorem State.memOk_resetEvent (s : State) : s.resetEvent.memOk := ⟨Mem.wf_nil, Mem.wf_nil, Mem.wf_nil⟩

end Sys2Proof.Machine
end

