-- ==== Sys2Proof/Laws/Ops.lean ====
section
/-!
SUPPORT. One lemma per shared operation that says once everything it can do: the stream and output primitives, the loops,
the fetch of an item, the run of a command to its end, and which instructions are stream items. Proofs cite these
instead of unfolding the operations.
-/
namespace Sys2Proof.Machine

/-! ### The primitives -/

/-- `InRead8()` answers exactly when the cursor lies below `IN_LEN`: the byte there, and the cursor moved by one. -/
theorem State.inRead8_eq_some {s t : State} {b : Byte} :
    s.inRead8 = some (b, t) ↔
      s.ipos.toNat < s.inLen.toNat ∧ b = s.inByte s.ipos.toNat ∧ t = { s with ipos := s.ipos + 1#32 } := by
  unfold State.inRead8
  split
  · simp_all [eq_comm]
  · simp_all

/-- `InRead8()` answers nothing exactly when the cursor lies at or beyond `IN_LEN`. -/
theorem State.inRead8_eq_none {s : State} : s.inRead8 = none ↔ s.inLen.toNat ≤ s.ipos.toNat := by
  unfold State.inRead8
  split <;> simp_all

/-- The byte cursor moved by one below `IN_LEN` does not wrap. -/
theorem ipos_add_one {p n : Word} (h : p.toNat < n.toNat) : (p + 1#32).toNat = p.toNat + 1 := by
  have := n.isLt
  rw [BitVec.toNat_add_of_lt] <;> simp
  omega

@[simp] theorem State.inByte_outPut (s : State) (v : Byte) (a : Nat) : (s.outPut v).inByte a = s.inByte a := rfl

/-- A read of `OUT` after an appended byte. -/
theorem State.outByte_outPut (s : State) (v : Byte) (a : Nat) :
    (s.outPut v).outByte a = if a = s.opos.toNat then v else s.outByte a := by
  simp only [State.outByte, State.outPut_outBuf, State.outPut_fresh, Mem.read_write]
  split <;> rfl

@[simp] theorem forUp_zero (f : Nat → State → State) (a : Nat) (s : State) : forUp f 0 a s = s := rfl

theorem forUp_succ (f : Nat → State → State) (k a : Nat) (s : State) :
    forUp f (k + 1) a s = forUp f k (a + 1) (f a s) := rfl

/-- A loop keeps what its body keeps. -/
theorem forUp_keeps {f : Nat → State → State} {P : State → Prop} (h : ∀ i s, P s → P (f i s)) :
    ∀ k a s, P s → P (forUp f k a s)
  | 0, _, _, hs => hs
  | k + 1, a, s, hs => forUp_keeps h k (a + 1) (f a s) (h a s hs)

/-- The last turn of an ascending loop. -/
theorem forUp_last (f : Nat → State → State) :
    ∀ k a s, forUp f (k + 1) a s = f (a + k) (forUp f k a s)
  | 0, _, _ => rfl
  | k + 1, a, s => by
    rw [forUp_succ, forUp_last f k (a + 1) (f a s), forUp_succ]
    congr 1
    omega

/-! ### Fetching and running -/

/-- A fetch from the stream either gives the decoded item with its own bytes consumed, or raises `OutOfData`. -/
theorem State.fetchAt_cases (s : State) (ctx : Context) (cmd : Command) :
    (∃ i, decode ctx s.streamWindow = .instr i ∧ s.fetchAt ctx cmd = .item i (s.consume (headLength i))) ∨
    ((∃ r, decode ctx s.streamWindow = .reject r) ∧ s.fetchAt ctx cmd = .settled (s.raise cmd .outOfData)) := by
  unfold State.fetchAt
  split <;> simp_all

/-- The next row: its selector's instruction, or the failure of an unknown selector, or the end of the rows. -/
theorem State.fetchRow_cases (s : State) (c : DeltaCommand) :
    (s.row < s.height.toNat ∧ ∃ i, decode .selector [s.selByte s.row] = .instr i ∧ s.fetchRow c = .item i s) ∨
    (s.row < s.height.toNat ∧ (∃ r, decode .selector [s.selByte s.row] = .reject r) ∧
      s.fetchRow c = .settled (s.raise c.command (.unknownDeltaFilter (s.selByte s.row)))) ∨
    (s.height.toNat ≤ s.row ∧ s.fetchRow c = .settled (s.consume s.total).complete) := by
  unfold State.fetchRow
  split
  · split <;> simp_all
  · rename_i h
    exact .inr (.inr ⟨by omega, rfl⟩)

/-- The size checks of the delta body: one of the two failures, or on to the rows. -/
theorem State.bodyChecks_cases (s : State) (c : DeltaCommand) :
    (s.avail < s.total ∧ s.bodyChecks c = s.raise c.command .sizeMismatch) ∨
    (s.total ≤ s.avail ∧ s.selLen.toNat < s.height.toNat ∧ s.bodyChecks c = s.raise c.command .sizeMismatch) ∨
    (s.total ≤ s.avail ∧ s.height.toNat ≤ s.selLen.toNat ∧
      s.bodyChecks c = { s with phase := .rows c, row := 0 }) := by
  unfold State.bodyChecks
  split
  · exact .inl ⟨by assumption, rfl⟩
  · split
    · exact .inr (.inl ⟨by omega, by assumption, rfl⟩)
    · exact .inr (.inr ⟨by omega, by omega, rfl⟩)

/-- A command run to its end ends with no command running. -/
theorem runToEnd_phase : ∀ k s t, runToEnd k s = some t → t.phase = .host
  | 0, s, t, h => by
    unfold runToEnd at h
    split at h <;> simp_all
  | k + 1, s, t, h => by
    unfold runToEnd at h
    split at h
    · simp_all
    · exact runToEnd_phase k s.turn t h

/-- What every turn of a running command keeps holds at its end. -/
theorem runToEnd_keeps {P : State → Prop} (h : ∀ s, s.phase ≠ .host → P s → P s.turn) :
    ∀ k s t, P s → runToEnd k s = some t → P t
  | 0, s, t, hs, ht => by
    unfold runToEnd at ht
    split at ht <;> simp_all
  | k + 1, s, t, hs, ht => by
    unfold runToEnd at ht
    split at ht
    · simp_all
    · exact runToEnd_keeps h k s.turn t (h s (by assumption) hs) ht

/-- A started command answers next exactly when its run ends within the fuel. -/
theorem runCommand_eq_next {k : Nat} {s t : State} : runCommand k s = .next t ↔ runToEnd k s = some t := by
  unfold runCommand
  split <;> simp_all

/-- A run that a measure bounds ends: every turn of a running command makes the measure smaller or ends the command. -/
theorem runToEnd_ends {P : State → Prop} {μ : State → Nat}
    (h : ∀ s, s.phase ≠ .host → P s → s.turn.phase = .host ∨ (P s.turn ∧ μ s.turn < μ s)) :
    ∀ k s, P s → μ s < k → ∃ t, runToEnd k s = some t
  | 0, _, _, hk => by omega
  | k + 1, s, hs, hk => by
    unfold runToEnd
    split
    · exact ⟨s, rfl⟩
    · rename_i hp
      rcases h s hp hs with hh | ⟨h1, h2⟩
      · refine ⟨s.turn, ?_⟩
        cases k <;> simp [runToEnd, hh]
      · exact runToEnd_ends h k s.turn h1 (by omega)

/-! ### Stream items -/

/-- The instructions that are stream items. -/
def isItem (i : Instr) : Bool := itemContext i ≠ .command

/-- What exec answers for a stream item: always a next state, the item's effect. -/
theorem exec_item {i : Instr} (h : isItem i) (s : State) : exec i s = .next (runItem i s) := by
  cases i <;> first | rfl | simp [isItem, itemContext] at h

theorem decodeCommand_context {c : Half} {i : Instr} (h : decodeCommand c = .instr i) : itemContext i = .command := by
  simp only [decodeCommand] at h
  split_ifs at h <;> cases h <;> rfl

theorem decodeBackref_context {b0 b1 : Byte} {rest : List Byte} {i : Instr}
    (h : decodeBackref b0 b1 rest = .instr i) : itemContext i = .lzBackref := by
  simp only [decodeBackref] at h
  split at h
  · cases h; rfl
  · split at h <;> cases h
    rfl

theorem decodePacket_context {c : Byte} {i : Instr} (h : decodePacket c = .instr i) : itemContext i = .runLength := by
  simp only [decodePacket] at h
  split at h <;> cases h <;> rfl

theorem decodeSelector_context {b : Byte} {i : Instr} (h : decodeSelector b = .instr i) :
    itemContext i = .selector := by
  simp only [decodeSelector] at h
  split_ifs at h <;> cases h <;> rfl

/-- What the decoder reads in a context belongs to that context. -/
theorem decode_context {ctx : Context} {bs : List Byte} {i : Instr} (h : decode ctx bs = .instr i) :
    itemContext i = ctx := by
  cases ctx <;> simp only [decode] at h <;> split at h <;>
    first
    | exact decodeCommand_context h
    | exact decodeBackref_context h
    | exact decodePacket_context h
    | exact decodeSelector_context h
    | (cases h; rfl)
    | cases h

/-- A fetch from a stream gives stream items only. -/
theorem State.fetch_item {s t : State} {i : Instr} (h : s.fetch = .item i t) : isItem i := by
  have key : ∀ (u : State) (ctx : Context) (cmd : Command), ctx ≠ .command → u.fetchAt ctx cmd = .item i t → isItem i := by
    intro u ctx cmd hc hu
    rcases u.fetchAt_cases ctx cmd with ⟨j, hj, he⟩ | ⟨_, he⟩
    · rw [he] at hu
      cases hu
      simp [isItem, decode_context hj, hc]
    · rw [he] at hu
      cases hu
  have hlz : s.lzContext ≠ .command := by
    unfold State.lzContext
    split <;> [simp; split <;> simp]
  unfold State.fetch at h
  split at h
  · cases h
  · split at h
    · unfold State.fetchLz at h
      split at h <;> exact key _ _ _ hlz h
    · cases h
  · split at h
    · exact key _ _ _ (by simp) h
    · cases h
  · exact key _ _ _ (by simp) h
  · cases h
  · rcases s.fetchRow_cases (by assumption) with ⟨_, j, hj, he⟩ | ⟨_, _, he⟩ | ⟨_, he⟩ <;> rw [he] at h <;> cases h
    simp [isItem, decode_context hj]

/-- Inside a running command a step is a turn: it always answers next (R74). -/
theorem step_turn {s : State} (h : s.phase ≠ .host) : step s = .next s.turn := by
  unfold step itemTurn State.turn
  rw [if_neg h]
  cases hf : s.fetch with
  | item i t => simp only [exec_item (State.fetch_item hf)]
  | settled t => rfl

/-- Between commands a step is one host action. -/
theorem step_host {s : State} (h : s.phase = .host) : step s = hostTurn s := by
  unfold step
  rw [if_pos h]

end Sys2Proof.Machine
end

