-- ==== Sys2Proof/Laws/PerInstr.lean ====
section
/-!
SUPPORT. Statements for all instructions, made per instruction (LAWS.json "per_instruction").
-/
namespace Sys2Proof.Laws

/-- The encoder writes as many bytes as the decoder's head length says (30_encoding.md R90, R107). -/
def EncodeLength.Statement (i : Instr) : Prop := (encode i).length = headLength i

theorem EncodeLength.clr : EncodeLength.Statement (.clr) := rfl
theorem EncodeLength.bget (n : BitVec 6) : EncodeLength.Statement (.bget n) := rfl
theorem EncodeLength.lzd : EncodeLength.Statement (.lzd) := rfl
theorem EncodeLength.rld : EncodeLength.Statement (.rld) := rfl
theorem EncodeLength.cup : EncodeLength.Statement (.cup) := rfl
theorem EncodeLength.dlf : EncodeLength.Statement (.dlf) := rfl
theorem EncodeLength.dbk : EncodeLength.Statement (.dbk) := rfl
theorem EncodeLength.lzCtlb (bits : Byte) : EncodeLength.Statement (.lzCtlb bits) := rfl
theorem EncodeLength.lzLit (n : Byte) : EncodeLength.Statement (.lzLit n) := rfl
theorem EncodeLength.lzShort (dist : BitVec 12) (cnt : BitVec 3) : EncodeLength.Statement (.lzShort dist cnt) := rfl
theorem EncodeLength.lzLong (dist : BitVec 12) (c10 : BitVec 10) (lo2 : BitVec 2) : EncodeLength.Statement (.lzLong dist c10 lo2) := rfl
theorem EncodeLength.rlRep (cnt : BitVec 7) : EncodeLength.Statement (.rlRep cnt) := rfl
theorem EncodeLength.rlRaw (cnt : BitVec 7) : EncodeLength.Statement (.rlRaw cnt) := rfl
theorem EncodeLength.dfH : EncodeLength.Statement (.dfH) := rfl
theorem EncodeLength.dfV : EncodeLength.Statement (.dfV) := rfl
theorem EncodeLength.dfA : EncodeLength.Statement (.dfA) := rfl
theorem EncodeLength.dbkHdr (skip depth width height : Half) : EncodeLength.Statement (.dbkHdr skip depth width height) := rfl

end Sys2Proof.Laws
end

