-- ==== Sys2Proof/Machine/Written.lean ====
section
/-!
DEFINITION. The written syntax of the spec (30_encoding.md R109 to R111) as text. Nothing in the machine depends on it.
-/
namespace Sys2Proof.Machine

/-- One hexadecimal digit. -/
def hexDigit (n : Nat) : String := String.singleton ("0123456789ABCDEF".toList.getD n '?')

/-- A byte as R10 lists it: two hexadecimal digits. -/
def writtenByte (b : Byte) : String := hexDigit (b.toNat / 16) ++ hexDigit (b.toNat % 16)

/-- A control byte as R110 writes it, `0b` and two groups of four bits. -/
def writtenBits (b : Byte) : String :=
  let bit (i : Nat) : String := if b.getLsbD i then "1" else "0"
  "0b" ++ bit 7 ++ bit 6 ++ bit 5 ++ bit 4 ++ "_" ++ bit 3 ++ bit 2 ++ bit 1 ++ bit 0

/-- An instruction as R109 (host commands, the operand of `BGET` in decimal) and R110 (stream items, without the bytes
that follow the item's own fields) write it. -/
def written : Instr → String
  | .clr => "CLR"
  | .bget n => "BGET " ++ toString n.toNat
  | .lzd => "LZD"
  | .rld => "RLD"
  | .cup => "CUP"
  | .dlf => "DLF"
  | .dbk => "DBK"
  | .lzCtlb bits => "CTLB " ++ writtenBits bits
  | .lzLit n => "LIT " ++ toString n.toNat
  | .lzShort dist cnt => "SHORT " ++ toString dist.toNat ++ ", " ++ toString (shortRepeat cnt)
  | .lzLong dist c10 lo2 => "LONG " ++ toString dist.toNat ++ ", " ++ toString (longRepeat c10 lo2)
  | .rlRep cnt => "REP " ++ toString (packetCount cnt)
  | .rlRaw cnt => "RAW " ++ toString (packetCount cnt)
  | .dfH => "H"
  | .dfV => "V"
  | .dfA => "A"
  | .dbkHdr skip depth width height =>
    String.intercalate " " ((encode (.dbkHdr skip depth width height)).map writtenByte)

/-- A number as R10 writes it in hexadecimal, `0x` first. -/
def writtenHex (n : Nat) : String := "0x" ++ (String.ofList (Nat.toDigits 16 n)).toUpper

/-- A host action as R109 and R195 write it: register numbers in hexadecimal, buffer indices and values in decimal, bytes
as R10 lists them. -/
def HostAction.written : HostAction → String
  | .readReg i => "x[" ++ writtenHex i ++ "]"
  | .writeReg i v => "x[" ++ writtenHex i ++ "] <- " ++ toString v.toNat
  | .writeIn a v => "HostWrite(IN:" ++ toString a ++ ", " ++ writtenByte v ++ ")"
  | .writeSel a v => "HostWrite(SEL:" ++ toString a ++ ", " ++ writtenByte v ++ ")"
  | .readIn a => "HostRead(IN:" ++ toString a ++ ")"
  | .readSel a => "HostRead(SEL:" ++ toString a ++ ")"
  | .readOut a => "HostRead(OUT:" ++ toString a ++ ")"
  | .reset => "reset"

end Sys2Proof.Machine
end

