-- ==== Sys2Proof/Tests/Slice0.lean ====
section
/-!
SUPPORT. The model's own tests: ill-formed terms refused, a word of every row decoded as the spec's tables write it, the
vectors of spec/95_test_vectors.md (named by their section), and for every statement with hypotheses a state that meets
them all.
-/
namespace Sys2Proof.Tests

open Sys2Proof.Machine

/-! ### Helpers -/

/-- Bytes at the start of a buffer. -/
def bytesAt0 (bs : List Byte) : Mem := bs.zipIdx.map fun x => (x.2, x.1)

/-- The reset state with a stream in `IN` (the conventions of 95_test_vectors.md). -/
def streamOf (bs : List Byte) : State :=
  { State.reset with inBuf := bytesAt0 bs, inLen := BitVec.ofNat 32 bs.length }

/-- The reset state with one pending host action. -/
def withAction (a : HostAction) (s : State) : State := { s with pending := [a] }

/-- The next state, if the outcome is one. -/
def nextOf : Host.Outcome State Fault Refusal → Option State
  | .next t => some t
  | .fault _ => none
  | .refused _ => none

/-- STATUS and ERR after an outcome. -/
def codesOf (o : Host.Outcome State Fault Refusal) : Option (BitVec 3 × BitVec 4 × Word) :=
  (nextOf o).map fun t => (t.statusWord, t.errCode, t.errInfo)

/-- `IPOS` and the bytes of `OUT` after an outcome. -/
def outOf (o : Host.Outcome State Fault Refusal) : Option (BitVec 3 × Word × List Byte) :=
  (nextOf o).map fun t => (t.statusWord, t.ipos, t.outBuf.map (·.2))

/-! ### Ill-formed terms are refused -/

theorem test_wf_bget_33_refused : WellFormed (.bget 33#6) = false := by decide
theorem test_wf_bget_32_accepted : WellFormed (.bget 32#6) = true := by decide
theorem test_wf_long_flag_refused : WellFormed (.lzLong 9#12 2#10 1#2) = false := by decide

/-! ### A word of every row, written out from 30_encoding.md -/

theorem test_decode_clr : decode .command [0b00000000, 0b00000000] = .instr .clr := by decide
theorem test_decode_bget : decode .command [0b00001100, 0b00010000] = .instr (.bget 12#6) := by decide
theorem test_decode_lzd : decode .command [0b00000000, 0b00100000] = .instr .lzd := by decide
theorem test_decode_rld : decode .command [0b00000000, 0b00110000] = .instr .rld := by decide
theorem test_decode_cup : decode .command [0b00000000, 0b01000000] = .instr .cup := by decide
theorem test_decode_dlf : decode .command [0b00000000, 0b01010000] = .instr .dlf := by decide
theorem test_decode_dbk : decode .command [0b00000000, 0b01100000] = .instr .dbk := by decide
theorem test_decode_ctlb : decode .lzControl [0b01100000] = .instr (.lzCtlb 0x60#8) := by decide
theorem test_decode_lit : decode .lzLiteral [0b00000011] = .instr (.lzLit 3#8) := by decide
/-- S-C: `w = 0x000C`, look 0, count bits `100`. -/
theorem test_decode_short : decode .lzBackref [0b00001100, 0b00000000] = .instr (.lzShort 0#12 4#3) := by decide
/-- R148: bytes `01 90 00`, look 9, repeat 5. -/
theorem test_decode_long : decode .lzBackref [0b00000001, 0b10010000, 0b00000000] = .instr (.lzLong 9#12 0#10 1#2) := by
  decide
theorem test_decode_rep : decode .runLength [0b10000101] = .instr (.rlRep 5#7) := by decide
theorem test_decode_raw : decode .runLength [0b01111111] = .instr (.rlRaw 127#7) := by decide
theorem test_decode_h : decode .selector [0b00000001] = .instr .dfH := by decide
theorem test_decode_v : decode .selector [0b00000010] = .instr .dfV := by decide
theorem test_decode_a : decode .selector [0b00000100] = .instr .dfA := by decide
/-- 2.6: depth 8, width 3, height 2. -/
theorem test_decode_hdr :
    decode .blockHeader [0x00, 0x00, 0x08, 0x00, 0x03, 0x00, 0x02, 0x00] = .instr (.dbkHdr 0#16 8#16 3#16 2#16) := by
  decide

/-- 2.7: illegal words. -/
theorem test_decode_illegal :
    [0x7000#16, 0xF000#16, 0x0001#16, 0x2001#16, 0x6020#16, 0x1040#16, 0x2800#16].all
      (fun c => decode .command (le16 c) == .reject (.illegalCommand c)) = true := by decide

theorem test_decode_selector_unknown : decode .selector [0x03] = .reject (.unknownSelector 3#8) := by decide
theorem test_decode_long_truncated : decode .lzBackref [0x00, 0x00] = .reject .truncated := by decide

/-- 2.2, field extremes, and S-E. -/
theorem test_repeat_counts :
    shortRepeat 7#3 = 11 ∧ shortRepeat 0#3 = 4 ∧ longRepeat 0x3FD#10 3#2 = 4091 ∧ longRepeat 0#10 0#2 = 4 ∧
      longRepeat 4#10 0#2 = 20 ∧ longRepeat 0x1FC#10 0#2 = 2036 := by decide

/-- R110: the written tokens of program P2, and a repeat count that no token can spell. -/
theorem test_written_tokens :
    (writtenShort 3 6).map encode = some [0x3A, 0x00] ∧ (writtenLong 9 5).map encode = some [0x01, 0x90, 0x00] ∧
      writtenLong 9 12 = none := by decide

/-! ### The host's two probes -/

theorem test_table_words :
    decodeTableWord 16 0x1020 = some (.bget 32#6) ∧ decodeTableWord 16 0x0008 = some (.lzShort 0#12 0#3) ∧
      decodeTableWord 24 0x009001 = some (.lzLong 9#12 0#10 1#2) ∧ decodeTableWord 8 0x80 = some (.rlRep 0#7) ∧
      decodeTableWord 8 0x00 = some (.rlRaw 0#7) ∧ decodeTableWord 8 0x02 = some .dfV ∧
      decodeTableWord 64 0x0002000300080000 = some (.dbkHdr 0#16 8#16 3#16 2#16) := by decide

theorem test_fetch_word_command : outOf (step (State.reset.withFetchWord 16 0x2000)) = some (5#3, 0#32, []) := by decide

/-- A short token placed for the fetch, at `OPOS = 0`: look 1 reaches before the output. -/
theorem test_fetch_word_token : codesOf (step (State.reset.withFetchWord 16 0x0018)) = some (2#3, 2#4, 0#32) := by decide

theorem test_fetch_word_selector :
    (nextOf (step (State.reset.withFetchWord 8 0x01))).map (·.row) = some 1 := by decide

/-! ### Vectors of 95_test_vectors.md -/

/-- 2.1: the second, crossing read of `A5 3C F0 0F 81`. -/
theorem test_bget_12 :
    (nextOf (exec (.bget 12#6) { streamOf [0xA5, 0x3C, 0xF0, 0x0F, 0x81] with bpos := 8 })).map
      (fun t => (t.bres, t.bpos, t.statusWord)) = some (0x3CF#32, 20#32, 1#3) := by decide

/-- 2.1: 31 bits remain. -/
theorem test_bget_out_of_data :
    (nextOf (exec (.bget 32#6) { streamOf [0xA5, 0x3C, 0xF0, 0x0F, 0x81] with bpos := 9 })).map
      (fun t => (t.errCode, t.bpos, t.statusWord)) = some (1#4, 9#32, 2#3) := by decide

/-- 2.2, the main example. -/
theorem test_lzd_main :
    (nextOf (exec .lzd { streamOf [0x60, 0x03, 0x41, 0x42, 0x43, 0x3A, 0x00, 0x01, 0x90, 0x00, 0x02, 0x58, 0x59, 0xEE]
      with outLen := 16 })).map (fun t => (t.ipos, t.ctl, t.statusWord, t.outBuf.map (·.2))) =
      some (13#32, 0xF000#16, 5#3, [0x41, 0x42, 0x43, 0x41, 0x42, 0x43, 0x41, 0x42, 0x43, 0x41, 0x42, 0x43, 0x41, 0x42,
        0x58, 0x59]) := by decide

/-- 2.2: the ninth token needs a second control byte. -/
theorem test_lzd_second_group :
    (nextOf (exec .lzd { streamOf [0x00, 0x01, 0x30, 0x01, 0x31, 0x01, 0x32, 0x01, 0x33, 0x01, 0x34, 0x01, 0x35, 0x01,
      0x36, 0x01, 0x37, 0x00, 0x01, 0x38] with outLen := 9 })).map (fun t => (t.ipos, t.ctl, t.outBuf.map (·.2))) =
      some (20#32, 0xFE00#16, [0x30, 0x31, 0x32, 0x33, 0x34, 0x35, 0x36, 0x37, 0x38]) := by decide

/-- 2.2: look 1 at `OPOS = 0`, and the same token truncated. -/
theorem test_lzd_failures :
    codesOf (exec .lzd { streamOf [0x80, 0x18, 0x00] with outLen := 4 }) = some (2#3, 2#4, 0#32) ∧
      codesOf (exec .lzd { streamOf [0x80, 0x18] with outLen := 4 }) = some (2#3, 1#4, 0#32) := by decide

/-- The control byte of S-E. -/
theorem test_ctlb : (nextOf (exec (.lzCtlb 0x60#8) State.reset)).map (·.ctl) = some 0xFF60#16 := by decide

/-- `LIT 4` cut to 2 (R145), after its count byte. -/
theorem test_lit_cut :
    outOf (exec (.lzLit 4#8) { streamOf [0x00, 0x04, 0x01, 0x02, 0x03, 0x04, 0x99] with ipos := 2, outLen := 2 }) =
      some (0#3, 4#32, [0x01, 0x02]) := by decide

/-- Overlap with look 2: `AA BB` repeated (R149). -/
theorem test_short_overlap :
    outOf (exec (.lzShort 2#12 0#3) { State.reset with outBuf := bytesAt0 [0xAA, 0xBB], opos := 2, outLen := 6 }) =
      some (0#3, 0#32, [0xAA, 0xBB, 0xAA, 0xBB, 0xAA, 0xBB]) := by decide

/-- `LONG` look 3 repeat 8 cut to 4. -/
theorem test_long_cut :
    outOf (exec (.lzLong 3#12 1#10 0#2) { State.reset with outBuf := bytesAt0 [1, 2, 3], opos := 3, outLen := 7 }) =
      some (0#3, 0#32, [1, 2, 3, 1, 2, 3, 1]) := by decide

/-- 2.3, three-byte chunks, the last packet cut. -/
theorem test_rld_chunks :
    outOf (exec .rld { streamOf [0x81, 0x01, 0x02, 0x03, 0x00, 0x0A, 0x0B, 0x0C, 0x85, 0xFF, 0xFE, 0xFD, 0x77] with
      width := 2, height := 2, channels := 3 }) = some (5#3, 12#32, [0x01, 0x02, 0x03, 0x01, 0x02, 0x03, 0x0A, 0x0B, 0x0C,
        0xFF, 0xFE, 0xFD]) := by decide

/-- 2.3: a chunk cut in the middle, and an output size over every capacity. -/
theorem test_rld_failures :
    codesOf (exec .rld { streamOf [0x00, 0x01] with width := 1, height := 1, channels := 2 }) = some (2#3, 1#4, 0#32) ∧
      codesOf (exec .rld { State.reset with width := 65535, height := 65535, channels := 255 }) =
        some (2#3, 5#4, 0#32) := by decide

/-- `REP 2` of a three-byte chunk (R161), after its control byte. -/
theorem test_rep :
    outOf (exec (.rlRep 1#7) { streamOf [0x81, 0x01, 0x02, 0x03] with ipos := 1, channels := 3, outLen := 12 }) =
      some (0#3, 4#32, [1, 2, 3, 1, 2, 3]) := by decide

/-- `RAW 4` cut to 2 (R162), after its control byte. -/
theorem test_raw_cut :
    outOf (exec (.rlRaw 3#7) { streamOf [0x03, 0x01, 0x02, 0x03, 0x04] with ipos := 1, channels := 1, outLen := 2 }) =
      some (0#3, 3#32, [1, 2]) := by decide

/-- 2.4, the 4 x 2 case. -/
theorem test_cup_4x2 :
    outOf (exec .cup { streamOf [0x10, 0xF0, 0x20, 0xE0, 0x10, 0x20, 0x30, 0x40, 0x50, 0x60, 0x70, 0x80] with
      width := 4, height := 2 }) = some (5#3, 12#32, [0x2C, 0x00, 0x3C, 0x3C, 0x04, 0x4C, 0x13, 0x4B, 0x03, 0x23, 0x5B,
        0x13, 0x6C, 0x34, 0x7C, 0x7C, 0x44, 0x8C, 0x53, 0x8B, 0x43, 0x63, 0x9B, 0x53]) := by decide

/-- 2.4: short input, odd width. -/
theorem test_cup_failures :
    codesOf (exec .cup { streamOf [0, 0, 0, 0x80, 0xFF] with width := 2, height := 2 }) = some (2#3, 4#4, 0#32) ∧
      codesOf (exec .cup { State.reset with width := 1, height := 2, outv := true }) = some (6#3, 5#4, 0#32) := by decide

/-- 2.5, the first row of the table: all three codes, two channels. -/
theorem test_dlf_three_codes :
    outOf (exec .dlf { streamOf [0x0A, 0x14, 0x05, 0x03, 0x01, 0x02, 0x03, 0x04, 0x02, 0x02, 0x02, 0x02] with
      width := 2, height := 3, channels := 2, selBuf := bytesAt0 [1, 2, 4], selLen := 3 }) =
      some (5#3, 12#32, [0x0A, 0x14, 0x05, 0x11, 0x09, 0x12, 0x02, 0x0D, 0x02, 0x02, 0x00, 0x05]) := by decide

/-- 2.5: an unknown selector over an empty row; a short payload before a bad selector. -/
theorem test_dlf_failures :
    codesOf (exec .dlf { State.reset with
      width := 0, height := 2, channels := 1, selBuf := bytesAt0 [7, 1], selLen := 2 }) = some (2#3, 3#4, 7#32) ∧
      codesOf (exec .dlf { streamOf [5, 10] with
        width := 3, height := 1, channels := 1, selBuf := bytesAt0 [3], selLen := 1 }) = some (2#3, 4#4, 0#32) := by
  decide

/-- A block of 2.6. -/
def block : List Byte :=
  [0xAB, 0xCD, 0x18, 0x00, 0x03, 0x00, 0x02, 0x00, 0x02, 0x01, 0x0A, 0x0B, 0x0C, 0x01, 0x01, 0x01, 0xEE]

/-- 2.6, the second row. -/
theorem test_dbk :
    (nextOf (exec .dbk { streamOf block with width := 3, height := 2, channels := 1 })).map
      (fun t => (t.ipos, t.depth, t.selLen, t.selBuf.map (·.2), t.outBuf.map (·.2))) =
      some (16#32, 24#16, 2#16, [2, 1], [0xF6, 0xF5, 0xF4, 0x01, 0x00, 0xFF]) := by decide

/-- 2.6: a wrong width, a wrong height, a truncated header. -/
theorem test_dbk_failures :
    codesOf (exec .dbk { streamOf block with width := 4, height := 2, channels := 1 }) = some (2#3, 4#4, 0#32) ∧
      codesOf (exec .dbk { streamOf block with width := 3, height := 3, channels := 1 }) = some (2#3, 4#4, 0#32) ∧
      codesOf (exec .dbk { streamOf (block.take 7) with width := 3, height := 2, channels := 1 }) =
        some (2#3, 1#4, 0#32) := by decide

/-- A row under each selector: row 0 of `05 0A 0F`, one channel (2.5), and Scenario B under code 2. -/
def rowState : State :=
  { streamOf [0x05, 0x0A, 0x0F] with width := 3, height := 1, channels := 1, outLen := 3, phase := .rows .dlf }

theorem test_df_h : (nextOf (exec .dfH rowState)).map (fun t => t.outBuf.map (·.2)) = some [0x05, 0xFB, 0xEC] := by decide
theorem test_df_a : (nextOf (exec .dfA rowState)).map (fun t => t.outBuf.map (·.2)) = some [0x05, 0xF8, 0x6D] := by decide
theorem test_df_v :
    (nextOf (exec .dfV { streamOf [0x9C, 0x1E] with
      width := 1, height := 2, channels := 1, outLen := 2, opos := 1, row := 1, outBuf := bytesAt0 [100],
      phase := .rows .dlf })).map (fun t => t.outBuf.map (·.2)) =
      some [100, 70] := by decide

/-- The header's item of `block`, after its 8 bytes. -/
theorem test_dbk_hdr :
    (nextOf (exec (.dbkHdr 0xCDAB#16 24#16 3#16 2#16) { streamOf block with ipos := 8, width := 3, height := 2 })).map
      (fun t => (t.selBuf.map (·.2), t.selLen, t.depth, t.ipos, t.phase)) =
      some ([2, 1], 2#16, 24#16, 10#32, .body .dbk) := by decide

/-- 2.7: `CLR` after a failed `LZD` (R196). -/
theorem test_clr :
    exec .clr { State.reset with st := .failed, err := some .badBackReference, ipos := 3, outLen := 4 } =
      .next State.reset := by rfl

/-- 2.7: an illegal word leaves an earlier result readable: `STATUS = 0x6`. -/
theorem test_illegal_keeps_outv :
    codesOf (step (withAction (.writeReg 0 0x7000) { State.reset with st := .done, outv := true })) =
      some (6#3, 5#4, 0#32) := by decide

/-- 2.7: a 16-bit register keeps the low bits; read-only registers and numbers above 0xF ignore writes. -/
theorem test_register_writes :
    (State.reset.writeReg 0xA 0x12345).readReg 0xA = 0x2345#32 ∧ State.reset.writeReg 0x9 7 = State.reset ∧
      State.reset.writeReg 0x10 7 = State.reset ∧ State.reset.readReg 0x10 = 0#32 := by decide

/-- R109: the written form of a command. -/
theorem test_written : written (.bget 12#6) = "BGET 12" := by decide

/-! ### Witnesses: for each statement with hypotheses, a state and operands that meet them all

The theorem `witness_<Name>` belongs to the statement `Obligations.<Name>`; where that has several clauses, each conjunct
meets the hypotheses of one, at a boundary of its range where it has one. -/

/-- The next state, or the reset state where there is none. -/
def resultOf (o : Host.Outcome State Fault Refusal) : State := (nextOf o).getD State.reset

/-- An `LZD` of one literal token of two bytes. -/
def lzLiteralState : State := { streamOf [0x00, 0x02, 0x41, 0x42] with outLen := 2 }

/-- An `LZD` of one short token with look-behind 0. -/
def lzZeroState : State := { streamOf [0x80, 0x09, 0x00] with outLen := 5 }

/-- The inside of an `LZD` after two bytes of output, with room for three. -/
def lzInside : State :=
  { streamOf [0x01, 0x02, 0x03] with
    phase := .lzd, ctl := 0xFF80, outBuf := bytesAt0 [0xAA, 0xBB, 0, 0, 0], opos := 2, outLen := 5 }

/-- An `RLD` of one packet; `b` is its control byte. -/
def rldState (b : Byte) : State :=
  { streamOf [b, 0x01, 0x02, 0x03, 0x04] with width := 2, height := 1, channels := 2 }

/-- The inside of an `RLD` with room for two chunks of two bytes. -/
def rldInside : State := { streamOf [0x01, 0x02, 0x03, 0x04] with phase := .rld, channels := 2, outLen := 4 }

/-- A `CUP` of one 2 x 2 block. -/
def cupState : State := { streamOf [0x7F, 0x80, 1, 2, 3, 255] with width := 2, height := 2 }

/-- A `DLF` of two rows of two one-byte pixels. -/
def dlfState : State :=
  { streamOf [5, 10, 15, 20] with width := 2, height := 2, channels := 1, selBuf := bytesAt0 [1, 4], selLen := 2 }

/-- A `DBK` of `block`. -/
def dbkState : State := { streamOf block with width := 3, height := 2, channels := 1 }

theorem witness_DecodeGivesBackEncoded :
    WellFormed (.bget 32#6) = true ∧ WellFormed (.lzLong 4095#12 0x3FD#10 3#2) = true := by decide

theorem witness_EncodeGivesBackDecoded :
    decode .lzBackref [0xFF, 0xFF, 0x77] = .instr (.lzShort 4095#12 7#3) ∧
      decode .lzBackref [0xF7, 0xFF, 0xFF] = .instr (.lzLong 4095#12 0x3FD#10 3#2) := by decide

theorem witness_IllegalCommandWordsFail :
    IllegalWord 0x7000#16 ∧ IllegalWord 0x1021#16 ∧ IllegalWord 0x1800#16 ∧ IllegalWord 0x2001#16 ∧
      ¬ IllegalWord 0x1020#16 ∧ ¬ IllegalWord 0x6000#16 ∧
      (withAction (.writeReg 0 0x1020) State.reset).phase = .host := by unfold IllegalWord; decide

theorem witness_RepeatCountsOfTokens :
    (0x3FD#10).getLsbD 1 = false ∧ (0#10).getLsbD 1 = false ∧ (4091 / 4 % 4 = 2 ∧ 4 / 4 % 4 = 1) := by decide

theorem witness_StepRunsWrittenCommand :
    decode .command (le16 ((0x1020#32 : Word).setWidth 16)) = .instr (.bget 32#6) ∧
      (withAction (.writeReg 0 0x1020) State.reset).phase = .host := by decide

theorem witness_StepRunsStreamItem :
    (lzInside.phase = .lzd ∧ lzInside.opos.toNat < lzInside.outLen.toNat ∧
      decode lzInside.lzContext lzInside.streamWindow = .instr (.lzLong 48#12 128#10 1#2)) ∧
    (rldInside.phase = .rld ∧ rldInside.opos.toNat < rldInside.outLen.toNat ∧
      decode .runLength rldInside.streamWindow = .instr (.rlRaw 1#7)) ∧
    decode .blockHeader dbkState.streamWindow = .instr (.dbkHdr 0xCDAB#16 24#16 3#16 2#16) ∧
    (rowState.phase = .rows .dlf ∧ dlfState.row < dlfState.height.toNat ∧
      decode .selector [dlfState.selByte dlfState.row] = .instr .dfH) := by decide

/-- One byte short of each item's head: the control byte, the literal count, `b1`, `b2`, the packet's control byte, the
header's last byte; and an unknown selector. -/
theorem witness_StepRunsStreamItem_rejects :
    let a : State := { lzInside with ipos := 3, ctl := 0 }
    let b : State := { lzInside with ipos := 3, ctl := 0xFF00 }
    let c : State := { lzInside with ipos := 2 }
    let d : State := { lzInside with ipos := 1 }
    let r : State := { rldInside with ipos := 4 }
    let h : State := { dbkState with phase := .dbkHeader, inLen := 7 }
    let u : State := { rowState with selBuf := bytesAt0 [3] }
    (a.phase = .lzd ∧ a.opos.toNat < a.outLen.toNat ∧ a.ctl.getLsbD 15 = false ∧ a.avail < 1) ∧
    (b.ctl.getLsbD 15 = true ∧ b.ctl.getLsbD 7 = false ∧ b.avail < 1) ∧
    (c.ctl.getLsbD 15 = true ∧ c.ctl.getLsbD 7 = true ∧ c.avail < 2) ∧
    (d.ctl.getLsbD 7 = true ∧ d.avail < 3 ∧ (d.inByte d.ipos.toNat).getLsbD 3 = false) ∧
    (r.phase = .rld ∧ r.opos.toNat < r.outLen.toNat ∧ r.avail < 1) ∧ (h.phase = .dbkHeader ∧ h.avail < 8) ∧
    (u.phase = .rows .dlf ∧ u.row < u.height.toNat ∧ u.selByte u.row ≠ 1#8 ∧ u.selByte u.row ≠ 2#8 ∧
      u.selByte u.row ≠ 4#8) := by decide

theorem witness_CommandIsItsItemsStepByStep :
    lzLiteralState.inLen.toNat ≤ lzLiteralState.inCap ∧ lzLiteralState.outLen.toNat ≤ lzLiteralState.outCap ∧
      exec .lzd lzLiteralState = .next (resultOf (exec .lzd lzLiteralState)) ∧
      (rldState 0x01).total ≤ (rldState 0x01).outCap ∧
      exec .rld (rldState 0x01) = .next (resultOf (exec .rld (rldState 0x01))) ∧
      exec .dlf dlfState = .next (resultOf (exec .dlf dlfState)) ∧
      exec .dbk dbkState = .next (resultOf (exec .dbk dbkState)) :=
  ⟨by decide, by decide, rfl, by decide, rfl, rfl, rfl⟩

theorem witness_HostRegisterAccessHasNoSideEffect :
    (withAction (.readReg 0x10) State.reset).pending = [.readReg 0x10] ∧
      (withAction (.writeReg 0xF 7) State.reset).pending = [.writeReg 0xF 7] ∧ State.reset.phase = .host := by decide

theorem witness_HostBufferWrites :
    (withAction (.writeIn 536870910 7) State.reset).pending = [.writeIn 536870910 7] ∧ 536870910 < State.reset.inCap ∧
      (withAction (.writeIn 536870911 7) State.reset).pending = [.writeIn 536870911 7] ∧
      (withAction (.writeSel 65534 7) State.reset).pending = [.writeSel 65534 7] := by decide

theorem witness_HostBufferReads :
    (3 < lzInside.inCap ∧ lzInside.inBuf.read 2 = some 3#8) ∧ dlfState.selBuf.read 1 = some 4#8 ∧
      ((resultOf (exec .dlf dlfState)).outv = true ∧ 3 < (resultOf (exec .dlf dlfState)).outLen.toNat ∧
        (resultOf (exec .dlf dlfState)).outBuf.read 3 = some 113#8) := by decide

theorem witness_UnpermittedOutReadGoesOn :
    State.reset.outv = false ∧ (resultOf (exec .dlf dlfState)).outLen.toNat ≤ 4 ∧
      (withAction (.readOut 4) State.reset).pending = [.readOut 4] := by decide

theorem witness_ResetLeavesEmptyState :
    (withAction .reset dlfState).phase = .host ∧ (withAction .reset dlfState).pending = [.reset] := by decide

theorem witness_CommandsFromResetRegisters :
    { State.reset with inBuf := bytesAt0 [1], outBuf := bytesAt0 [2] } =
      ({ State.reset with inBuf := bytesAt0 [1], outBuf := bytesAt0 [2] } : State).clearRegisters := by decide

theorem witness_BgetReadsNextBits :
    (32#6).toNat ≤ 32 ∧ (streamOf [1, 2, 3, 4]).inLen.toNat ≤ (streamOf [1, 2, 3, 4]).inCap ∧
      (32#6).toNat ≤ (streamOf [1, 2, 3, 4]).bitsLeft := by decide

theorem witness_BgetFailsConsumingNothing :
    ({ streamOf [1, 2, 3, 4] with bpos := 1 } : State).bitsLeft < (32#6).toNat ∧ 32 < (33#6).toNat ∧
      ({ State.reset with inLen := 536870912 } : State).inCap < ({ State.reset with inLen := 536870912 } : State).inLen.toNat := by
  decide

theorem witness_BgetSplitsAnywhere :
    (32#6).toNat = (13#6).toNat + (19#6).toNat ∧ (32#6).toNat ≤ (streamOf [1, 2, 3, 4]).bitsLeft := by decide

theorem witness_BgetAtByteBoundary :
    ({ streamOf [1, 2, 3, 4, 5] with bpos := 8 } : State).bpos.toNat = 8 * 1 ∧
      1 + 4 ≤ ({ streamOf [1, 2, 3, 4, 5] with bpos := 8 } : State).inLen.toNat := by decide

theorem witness_LzLitCopiesFromStream :
    lzInside.opos.toNat ≤ lzInside.outLen.toNat ∧
      min (4#8).toNat (lzInside.outLen.toNat - lzInside.opos.toNat) ≤ lzInside.avail := by decide

theorem witness_LzLitTruncatedFails :
    let s : State := { lzInside with ipos := 1 }
    s.opos.toNat ≤ s.outLen.toNat ∧ s.avail < min (3#8).toNat (s.outLen.toNat - s.opos.toNat) := by decide

theorem witness_LzShortCopiesCyclically :
    (2#12).toNat ≤ lzInside.opos.toNat ∧ lzInside.opos.toNat ≤ lzInside.outLen.toNat := by decide

theorem witness_LzLongCopiesCyclically :
    (0x3FD#10).getLsbD 1 = false ∧ (2#12).toNat ≤ lzInside.opos.toNat ∧ lzInside.opos.toNat ≤ lzInside.outLen.toNat := by
  decide

theorem witness_BackReferenceBoundsCheck :
    lzInside.opos.toNat < (3#12).toNat ∧ (2#12).toNat ≤ lzInside.opos.toNat ∧
      ∃ cnt, Instr.lzShort 3#12 0#3 = .lzShort 3#12 cnt := ⟨by decide, by decide, 0#3, rfl⟩

theorem witness_LzdEndsFullOrFails :
    lzZeroState.inLen.toNat ≤ lzZeroState.inCap ∧ lzZeroState.outLen.toNat ≤ lzZeroState.outCap := by decide

theorem witness_LzdOfOneLiteralToken :
    let s := lzLiteralState
    s.inLen.toNat ≤ s.inCap ∧ s.outLen.toNat ≤ s.outCap ∧ 0 < s.outLen.toNat ∧
      (s.inByte s.ipos.toNat).getLsbD 7 = false ∧ s.outLen.toNat ≤ (s.inByte (s.ipos.toNat + 1)).toNat ∧
      s.ipos.toNat + 2 + s.outLen.toNat ≤ s.inLen.toNat := by decide

theorem witness_RlRepRepeatsChunk :
    rldInside.channels.toNat ≤ rldInside.avail ∧ rldInside.opos.toNat ≤ rldInside.outLen.toNat ∧
      rldInside.channels.toNat ∣ rldInside.outLen.toNat - rldInside.opos.toNat := by decide

theorem witness_RlRawCopiesChunks :
    min ((127#7).toNat + 1) ((rldInside.outLen.toNat - rldInside.opos.toNat) / rldInside.channels.toNat) *
        rldInside.channels.toNat ≤ rldInside.avail ∧ rldInside.opos.toNat ≤ rldInside.outLen.toNat ∧
      rldInside.channels.toNat ∣ rldInside.outLen.toNat - rldInside.opos.toNat := by decide

theorem witness_RunLengthTruncatedFails :
    let s : State := { rldInside with ipos := 3 }
    s.avail < s.channels.toNat ∧ s.opos.toNat ≤ s.outLen.toNat ∧ s.channels.toNat ∣ s.outLen.toNat - s.opos.toNat ∧
      s.avail < min ((1#7).toNat + 1) ((s.outLen.toNat - s.opos.toNat) / s.channels.toNat) * s.channels.toNat := by decide

theorem witness_RldEndsFullOrFails :
    (rldState 0x01).inLen.toNat ≤ (rldState 0x01).inCap ∧ (rldState 0x01).total ≤ (rldState 0x01).outCap := by decide

/-- Both packets cover the image's two pixels exactly. -/
theorem witness_RldOfOnePacket :
    let s := rldState 0x81
    let r := rldState 0x01
    (0 < s.total ∧ s.width.toNat * s.height.toNat ≤ ((s.inByte s.ipos.toNat).extractLsb' 0 7).toNat + 1 ∧
      (s.inByte s.ipos.toNat).getLsbD 7 = true ∧ s.ipos.toNat + 1 + s.channels.toNat ≤ s.inLen.toNat) ∧
    (r.width.toNat * r.height.toNat ≤ ((r.inByte r.ipos.toNat).extractLsb' 0 7).toNat + 1 ∧
      (r.inByte r.ipos.toNat).getLsbD 7 = false ∧ r.ipos.toNat + 1 + r.total ≤ r.inLen.toNat) := by decide

theorem witness_CupUpsamplesEveryPixel :
    let s := cupState
    s.inLen.toNat ≤ s.inCap ∧ s.width.toNat % 2 = 0 ∧ s.height.toNat % 2 = 0 ∧
      s.width.toNat * s.height.toNat * 3 ≤ s.outCap ∧
      s.width.toNat * s.height.toNat + 2 * (s.width.toNat / 2 * (s.height.toNat / 2)) ≤ s.avail := by decide

theorem witness_CupRejectsOddAndShort :
    let s : State := { cupState with ipos := 1 }
    ({ cupState with width := 1 } : State).width.toNat % 2 = 1 ∧
      s.width.toNat % 2 = 0 ∧ 3 * s.width.toNat * s.height.toNat ≤ s.outCap ∧
      s.avail < 3 * s.width.toNat * s.height.toNat / 2 := by decide

/-- Beyond and at the ends of 0..255; and samples whose sums lie beyond them. -/
theorem witness_PixelRanges :
    (-1 : Int) < 0 ∧ (255 : Int) < 256 ∧ (0 : Int) ≤ 0 ∧ (255 : Int) ≤ 255 ∧
      ((0#8).toNat : Int) * 128 + 179 * sint8 0xFF#8 < 0 ∧
      255 < (((255#8).toNat : Int) * 128 + 226 * sint8 1#8) / 128 := by decide

theorem witness_DeltaRowsReconstruct :
    rowState.opos.toNat = rowState.row * rowState.stride ∧ rowState.opos.toNat + rowState.stride < 2 ^ 32 := by decide

/-- The values 5, 251, 236 are the row of `test_df_h`; the other two rows are stored from the value 0 alone. -/
theorem witness_ForwardFilterThenRowGivesBack :
    let s := rowState
    let z : State := { rowState with inBuf := bytesAt0 [0, 0, 0] }
    let v (j : Nat) : Byte := [5#8, 251#8, 236#8].getD j 0#8
    (∀ j, j < s.stride → s.inByte (s.ipos.toNat + s.row * s.stride + j) =
      if j < s.channels.toNat then v j else v (j - s.channels.toNat) - v j) ∧
    (∀ j, j < z.stride → z.inByte (z.ipos.toNat + z.row * z.stride + j) = 0#8 - 0#8) ∧
    (∀ j, j < z.stride → z.inByte (z.ipos.toNat + z.row * z.stride + j) =
      if j < z.channels.toNat then 0#8 else BitVec.ofNat 8 (((0#8).toNat + (0#8).toNat) / 2) - 0#8) := by decide

theorem witness_DlfReconstructsImage :
    let s := dlfState
    s.inLen.toNat ≤ s.inCap ∧ s.total ≤ s.outCap ∧ s.total ≤ s.avail ∧ s.height.toNat ≤ s.selLen.toNat ∧
      ∀ y, y < s.height.toNat → s.selByte y = 1#8 ∨ s.selByte y = 2#8 ∨ s.selByte y = 4#8 := by decide

theorem witness_DlfFailuresInOrder :
    let a : State := { dlfState with ipos := 1 }
    let b : State := { dlfState with selLen := 1 }
    let c : State := { dlfState with selBuf := bytesAt0 [1, 3] }
    a.avail < a.total ∧ b.selLen.toNat < b.height.toNat ∧
      (c.total ≤ c.avail ∧ c.height.toNat ≤ c.selLen.toNat ∧ 1 < c.height.toNat ∧
        (∀ x, x < 1 → c.selByte x = 1#8 ∨ c.selByte x = 2#8 ∨ c.selByte x = 4#8) ∧
        c.selByte 1 ≠ 1#8 ∧ c.selByte 1 ≠ 2#8 ∧ c.selByte 1 ≠ 4#8) := by decide

theorem witness_BlockHeaderLoadsSelectors :
    3#16 = dbkState.width ∧ 2#16 = dbkState.height ∧ dbkState.height.toNat ≤ dbkState.avail := by decide

theorem witness_BlockHeaderMismatchFails :
    4#16 ≠ dbkState.width ∧ 3#16 ≠ dbkState.height ∧
      ({ dbkState with ipos := 16 } : State).avail < ({ dbkState with ipos := 16 } : State).height.toNat := by decide

theorem witness_DbkIsDlfOnThePayload :
    let s := dbkState
    s.inLen.toNat ≤ s.inCap ∧ s.total ≤ s.outCap ∧ 8 + s.height.toNat + s.total ≤ s.avail ∧
      s.inByte 5 ++ s.inByte 4 = s.width ∧ s.inByte 7 ++ s.inByte 6 = s.height ∧ s.ipos.toNat = 0 ∧
      ∀ y, y < s.height.toNat → s.inByte (8 + y) = 1#8 ∨ s.inByte (8 + y) = 2#8 ∨ s.inByte (8 + y) = 4#8 := by decide

theorem witness_DbkFailuresInOrder :
    let a : State := { dbkState with inLen := 7 }
    let b : State := { dbkState with width := 2 }
    let c : State := { dbkState with inLen := 15 }
    let d : State := { dbkState with inBuf := dbkState.inBuf.write 9 0x03 }
    a.avail < 8 ∧ (8 ≤ b.avail ∧ b.inByte 5 ++ b.inByte 4 ≠ b.width) ∧
      (8 ≤ c.avail ∧ c.avail < 8 + c.height.toNat + c.total) ∧
      (8 + d.height.toNat + d.total ≤ d.avail ∧ 1 < d.height.toNat ∧
        (∀ x, x < 1 → d.inByte (8 + x) = 1#8 ∨ d.inByte (8 + x) = 2#8 ∨ d.inByte (8 + x) = 4#8) ∧
        d.inByte 9 ≠ 1#8 ∧ d.inByte 9 ≠ 2#8 ∧ d.inByte 9 ≠ 4#8) := by decide

theorem witness_PreStartChecksRefuse :
    let a : State := { State.reset with inLen := 536870912 }
    let b : State := { State.reset with outLen := 4294967295, outCapPred := 0 }
    let c : State := { State.reset with width := 2, height := 2, channels := 1, outCapPred := 0 }
    IllegalWord 0x103F#16 ∧ a.inCap < a.inLen.toNat ∧ b.outCap < b.outLen.toNat ∧
      c.outCap < c.width.toNat * c.height.toNat * c.channels.toNat ∧ c.outCap < 3 * c.width.toNat * c.height.toNat := by
  unfold IllegalWord; decide

theorem witness_EmptyOutputCompletes :
    let s : State := { streamOf [1] with width := 2, channels := 3 }
    s.inLen.toNat ≤ s.inCap ∧ s.outLen = 0#32 ∧ s.total = 0 ∧ s.height = 0#16 ∧ s.width.toNat % 2 = 0 := by decide

theorem witness_LookBehindZeroWritesZeros :
    let s := lzZeroState
    s.inLen.toNat ≤ s.inCap ∧ s.outLen.toNat ≤ s.outCap ∧ 0 < s.outLen.toNat ∧
      (s.inByte s.ipos.toNat).getLsbD 7 = true ∧ s.ipos.toNat + 3 ≤ s.inLen.toNat ∧
      (s.inByte (s.ipos.toNat + 1)).toNat / 8 = 1 ∧ s.inByte (s.ipos.toNat + 2) = 0#8 ∧
      s.outLen.toNat ≤ (s.inByte (s.ipos.toNat + 1)).toNat % 8 + 4 := by decide

/-- The other contents differ from `IN_LEN` on. -/
theorem witness_CommandsSeeOnlyTheStream :
    let m := bytesAt0 [0x00, 0x02, 0x41, 0x42, 0xEE]
    (∀ a, a < lzLiteralState.inLen.toNat →
      ({ lzLiteralState with inBuf := m, inSeed := 9 } : State).inByte a = lzLiteralState.inByte a) ∧
      exec .lzd lzLiteralState = .next (resultOf (exec .lzd lzLiteralState)) := ⟨by decide, rfl⟩

theorem witness_DecodeForgetsEarlierOutput :
    exec .lzd lzLiteralState = .next (resultOf (exec .lzd lzLiteralState)) ∧
      (resultOf (exec .lzd lzLiteralState)).err ≠ some .illegalOperation := ⟨rfl, by decide⟩

theorem witness_EachCommandIsANewAttempt :
    exec .cup cupState = .next (resultOf (exec .cup cupState)) ∧
      (resultOf (exec .cup cupState)).err ≠ some .illegalOperation := ⟨rfl, by decide⟩

theorem witness_StepKeepsBuffersCanonical :
    (withAction (.writeIn 9 1) dlfState).memOk ∧
      step (withAction (.writeIn 9 1) dlfState) = .next (resultOf (step (withAction (.writeIn 9 1) dlfState))) :=
  ⟨⟨by decide, by decide, by decide⟩, rfl⟩

/-- A state whose buffers hold nothing, inside a running `LZD` at the full size of the output. -/
theorem witness_StepKeepsWithinCapacities :
    let s : State := { State.reset with phase := .lzd, outLen := 4294967295 }
    s.boundsOk ∧ step s = .next (resultOf (step s)) :=
  ⟨⟨nofun, nofun, nofun, And.intro (by decide) (by decide)⟩, rfl⟩

theorem witness_StepKeepsFailureRecord :
    dlfState.recordOk ∧ step (withAction (.writeReg 0 0x5000) dlfState) =
      .next (resultOf (step (withAction (.writeReg 0 0x5000) dlfState))) :=
  ⟨by unfold State.recordOk; decide, rfl⟩

theorem witness_CommandsAreAtomic :
    (withAction (.writeReg 0 0x6000) dbkState).settled ∧ step (withAction (.writeReg 0 0x6000) dbkState) =
      .next (resultOf (step (withAction (.writeReg 0 0x6000) dbkState))) := ⟨⟨rfl, rfl⟩, rfl⟩

theorem witness_StepKeepsCapacities : step cupState = .next cupState := rfl

/-- The two reads that do not end in a next state, each at the first address where no byte is; one that does; waiting. -/
theorem witness_EveryStepEnds :
    let a := withAction (.readIn 536870911) State.reset
    let b := withAction (.readSel 65535) State.reset
    let c := withAction (.readIn 0) lzInside
    (a.phase = .host ∧ a.pending = [.readIn 536870911] ∧ a.inCap ≤ 536870911) ∧
    (b.phase = .host ∧ b.pending = [.readSel 65535] ∧ 65535 ≤ 65535) ∧
    (c.pending = [.readIn 0] ∧ ¬ c.inCap ≤ 0) ∧
    (dlfState.phase = .host ∧ dlfState.pending = []) := by decide

end Sys2Proof.Tests
end

