-- ==== Sys2Proof/Proofs/Storage.lean ====
section
/-!
PROOFS. What every step keeps of the storage: the three buffers and the two capacities. A property of the storage alone
that survives each way of changing it (one byte written, the output zero-filled, a buffer forgotten) holds after every
step; the walk through the machine's definitions that shows this is made once, for any such property.
-/
namespace Sys2Proof.Machine

/-- The buffers and the capacities: everything of a state but its registers and the model's own counters. -/
def State.storage (s : State) : Mem × Mem × Mem × Fin 536870911 × Fin 4294967295 :=
  (s.inBuf, s.selBuf, s.outBuf, s.inCapPred, s.outCapPred)

/-- A property of the storage that each way of changing the storage keeps. `IN` and `SEL` are written below their
capacities only; no bound on the writes of `OUT` is asked for. -/
structure StorageInvariant (P : State → Prop) : Prop where
  congr : ∀ {s t : State}, P s → t.storage = s.storage → P t
  writeIn : ∀ {s : State} {a : Nat} (v : Byte), a < s.inCap → P s → P { s with inBuf := s.inBuf.write a v }
  writeSel : ∀ {s : State} {a : Nat} (v : Byte),
    a < constants.selCap → P s → P { s with selBuf := s.selBuf.write a v }
  writeOut : ∀ {s : State} (a : Nat) (v : Byte), P s → P { s with outBuf := s.outBuf.write a v }
  zeroOut : ∀ {s : State} (n : Nat), P s → P { s with outBuf := Mem.zeros n }
  forgetIn : ∀ {s : State}, P s → P { s with inBuf := [] }
  forgetSel : ∀ {s : State}, P s → P { s with selBuf := [] }
  forgetOut : ∀ {s : State}, P s → P { s with outBuf := [] }

/-- The state a fetch leaves, whether an item follows or not. -/
def Fetched.state : Fetched → State
  | .item _ s => s
  | .settled s => s

/-- What holds of the state an outcome is built from holds of the next state it names. -/
theorem of_next_eq_next {P : State → Prop} {u t : State} (hu : P u)
    (h : (.next u : Host.Outcome State Fault Refusal) = .next t) : P t := by
  cases h
  exact hu

namespace StorageInvariant

variable {P : State → Prop} (hP : StorageInvariant P)
include hP

/-! ### The named operations -/

theorem outPut {s : State} (hs : P s) (v : Byte) : P (s.outPut v) :=
  hP.congr (hP.writeOut s.opos.toNat v hs) rfl

theorem consume {s : State} (hs : P s) (n : Nat) : P (s.consume n) := hP.congr hs rfl

theorem complete {s : State} (hs : P s) : P s.complete := hP.congr hs rfl

theorem refuse {s : State} (hs : P s) : P s.refuse := hP.congr hs rfl

theorem clearRegisters {s : State} (hs : P s) : P s.clearRegisters := hP.congr hs rfl

theorem startDecode {s : State} (hs : P s) (n : Word) (p : Phase) : P (s.startDecode n p) :=
  hP.congr (hP.zeroOut n.toNat hs) rfl

theorem forget {s : State} (hs : P s) (c : Command) : P (s.forget c) := by
  have hout : P { s with outBuf := [] } := hP.forgetOut hs
  cases c with
  | bget => exact hs
  | lzd | rld | cup | dlf => exact hP.congr hout rfl
  | dbk => exact hP.congr (hP.forgetSel hout) rfl

theorem raise {s : State} (hs : P s) (c : Command) (f : Failure) : P (s.raise c f) :=
  hP.congr (hP.forget hs c) rfl

theorem resetEvent {s : State} (hs : P s) : P s.resetEvent :=
  hP.congr (hP.forgetIn (hP.forgetSel (hP.forgetOut hs))) rfl

theorem writeReg {s : State} (hs : P s) (i : Nat) (v : Word) : P (s.writeReg i v) := by
  unfold State.writeReg
  split
  case h_1 r _ => exact hP.congr hs (by cases r <;> rfl)
  case h_2 => exact hs

theorem hostWriteIn {s : State} (hs : P s) (a : Nat) (v : Byte) : P (s.hostWriteIn a v) := by
  unfold State.hostWriteIn
  split
  · exact hP.writeIn v ‹_› hs
  · exact hs

theorem hostWriteSel {s : State} (hs : P s) (a : Nat) (v : Byte) : P (s.hostWriteSel a v) := by
  unfold State.hostWriteSel
  split
  · exact hP.writeSel v ‹_› hs
  · exact hs

theorem inRead8 {s t : State} {b : Byte} (hs : P s) (h : s.inRead8 = some (b, t)) : P t := by
  obtain ⟨-, -, rfl⟩ := State.inRead8_eq_some.mp h
  exact hP.congr hs rfl

/-! ### The loops of the stream items -/

theorem lzLitLoop : ∀ k {s : State}, P s → P (lzLitLoop k s)
  | 0, _, hs => hs
  | k + 1, s, hs => by
    unfold Machine.lzLitLoop
    split
    · exact hs
    · split
      · exact hP.raise hs _ _
      · exact lzLitLoop k (hP.outPut (hP.inRead8 hs ‹_›) _)

theorem lzCopyLoop : ∀ k src {s : State}, P s → P (lzCopyLoop k src s)
  | 0, _, _, hs => hs
  | k + 1, src, s, hs => by
    unfold Machine.lzCopyLoop
    split
    · exact hs
    · exact lzCopyLoop k (src + 1) (hP.outPut hs _)

theorem lzCopy {s : State} (hs : P s) (look count : Nat) : P (s.lzCopy look count) := by
  unfold State.lzCopy
  split
  · exact hP.raise hs _ _
  · exact hP.lzCopyLoop _ _ hs

theorem readChunk : ∀ k {s t : State} {bs : List Byte}, P s → readChunk k s = some (bs, t) → P t
  | 0, s, t, bs, hs, h => by
    cases h
    exact hs
  | k + 1, s, t, bs, hs, h => by
    unfold Machine.readChunk at h
    split at h
    · cases h
    · split at h <;> cases h
      exact readChunk k (hP.inRead8 hs ‹_›) ‹_›

theorem putChunk : ∀ bs {s : State}, P s → P (putChunk bs s)
  | [], _, hs => hs
  | b :: bs, _, hs => putChunk bs (hP.outPut hs b)

theorem copyChunk : ∀ k {s t : State}, P s → copyChunk k s = some t → P t
  | 0, s, t, hs, h => by
    cases h
    exact hs
  | k + 1, s, t, hs, h => by
    unfold Machine.copyChunk at h
    split at h
    · cases h
    · exact copyChunk k (hP.outPut (hP.inRead8 hs ‹_›) _) h

theorem rlRepLoop (chunk : List Byte) : ∀ k {s : State}, P s → P (rlRepLoop chunk k s)
  | 0, _, hs => hs
  | k + 1, s, hs => by
    unfold Machine.rlRepLoop
    split
    · exact hs
    · exact rlRepLoop chunk k (hP.putChunk chunk hs)

theorem rlRawLoop : ∀ k {s : State}, P s → P (rlRawLoop k s)
  | 0, _, hs => hs
  | k + 1, s, hs => by
    unfold Machine.rlRawLoop
    split
    · exact hs
    · split
      · exact hP.raise hs _ _
      · exact rlRawLoop k (hP.copyChunk _ hs ‹_›)

theorem deltaRow {s : State} (hs : P s) (value : State → Nat → Byte) : P (s.deltaRow value) :=
  hP.congr (forUp_keeps (P := P) (fun _ _ hu => hP.outPut hu _) s.stride 0 s hs) rfl

/-- The selector indices of a block stay below its height, so inside `SEL`. -/
theorem loadSelectors : ∀ k y {s : State}, y + k ≤ constants.selCap → P s → P (loadSelectors k y s)
  | 0, _, _, _, hs => hs
  | k + 1, y, s, hy, hs => by
    unfold Machine.loadSelectors
    split
    · exact hP.raise hs _ _
    · exact loadSelectors k (y + 1) (by omega) (hP.writeSel _ (by omega) (hP.inRead8 hs ‹_›))

/-! ### The stream items -/

theorem rlRep {s : State} (hs : P s) (cnt : BitVec 7) : P (s.rlRep cnt) := by
  unfold State.rlRep
  split
  · exact hP.raise hs _ _
  · exact hP.rlRepLoop _ _ (hP.readChunk _ hs ‹_›)

theorem dbkHdr {s : State} (hs : P s) (depth width height : Half) : P (s.dbkHdr depth width height) := by
  have ht : P { s with depth := depth } := hP.congr hs rfl
  have hheight : 0 + s.height.toNat ≤ constants.selCap := by
    have : constants.selCap = 65535 := rfl
    omega
  simp only [State.dbkHdr]
  split_ifs
  · exact hP.raise ht _ _
  · exact hP.raise ht _ _
  · exact hP.raise ht _ _
  · exact hP.congr (hP.loadSelectors _ 0 hheight ht) rfl

theorem runItem (i : Instr) {s : State} (hs : P s) : P (runItem i s) := by
  cases i with
  | clr | bget | lzd | rld | cup | dlf | dbk => exact hs
  | lzCtlb => exact hP.congr hs rfl
  | lzLit => exact hP.lzLitLoop _ hs
  | lzShort | lzLong => exact hP.lzCopy hs _ _
  | rlRep => exact hP.rlRep hs _
  | rlRaw => exact hP.rlRawLoop _ hs
  | dfH | dfV | dfA => exact hP.deltaRow hs _
  | dbkHdr => exact hP.dbkHdr hs _ _ _

/-! ### A running command -/

theorem fetchAt {s : State} (hs : P s) (ctx : Context) (cmd : Command) : P (s.fetchAt ctx cmd).state := by
  rcases s.fetchAt_cases ctx cmd with ⟨_, _, he⟩ | ⟨_, he⟩ <;> rw [he]
  · exact hP.consume hs _
  · exact hP.raise hs _ _

theorem fetchLz {s : State} (hs : P s) : P s.fetchLz.state := by
  have htake : P { s with ctl := ctlTake s.ctl } := hP.congr hs rfl
  unfold State.fetchLz
  split
  · exact hP.fetchAt hs _ _
  · exact hP.fetchAt htake _ _

theorem fetchRow {s : State} (hs : P s) (c : DeltaCommand) : P (s.fetchRow c).state := by
  rcases s.fetchRow_cases c with ⟨_, _, _, he⟩ | ⟨_, _, he⟩ | ⟨_, he⟩ <;> rw [he]
  · exact hs
  · exact hP.raise hs _ _
  · exact hP.complete (hP.consume hs _)

theorem bodyChecks {s : State} (hs : P s) (c : DeltaCommand) : P (s.bodyChecks c) := by
  rcases s.bodyChecks_cases c with ⟨_, he⟩ | ⟨_, _, he⟩ | ⟨_, _, he⟩ <;> rw [he]
  · exact hP.raise hs _ _
  · exact hP.raise hs _ _
  · exact hP.congr hs rfl

theorem fetch {s : State} (hs : P s) : P s.fetch.state := by
  unfold State.fetch
  split
  case h_1 => exact hs
  case h_2 =>
    split
    · exact hP.fetchLz hs
    · exact hP.complete hs
  case h_3 =>
    split
    · exact hP.fetchAt hs _ _
    · exact hP.complete hs
  case h_4 => exact hP.fetchAt hs _ _
  case h_5 => exact hP.bodyChecks hs _
  case h_6 => exact hP.fetchRow hs _

theorem turn {s : State} (hs : P s) : P s.turn := by
  have hf : P s.fetch.state := hP.fetch hs
  unfold State.turn
  cases hfetch : s.fetch with
  | item i u =>
    rw [hfetch] at hf
    exact hP.runItem i hf
  | settled u =>
    rw [hfetch] at hf
    exact hf

theorem runCommand {k : Nat} {s t : State} (hs : P s) (h : runCommand k s = .next t) : P t :=
  runToEnd_keeps (fun _ _ hu => hP.turn hu) k s t hs (runCommand_eq_next.mp h)

/-! ### The host commands -/

theorem bget {s : State} (hs : P s) (n : Nat) : P (s.bget n) := by
  have hu : P { s with err := none, errInfo := 0#32 } := hP.congr hs rfl
  simp only [State.bget]
  split
  · exact hP.raise hu _ _
  · exact hP.congr hs rfl

theorem cupPixel (y x : Nat) {s : State} (hs : P s) : P (cupPixel y x s) :=
  hP.outPut (hP.outPut (hP.outPut hs _) _) _

theorem cup {s : State} (hs : P s) : P s.cup := by
  have ht : P (s.startDecode (BitVec.ofNat 32 s.cupTotal) .host) := hP.startDecode hs _ _
  simp only [State.cup]
  split
  · exact hP.raise ht _ _
  · exact hP.congr (forUp_keeps (fun y _ hr => forUp_keeps (fun x _ hu => hP.cupPixel y x hu) _ _ _ hr) _ _ _ ht) rfl

/-- A pre-start check (R216): the command is refused, or what comes after the check decides. -/
theorem refuseIf {s t : State} {c : Prop} [Decidable c] {o : Host.Outcome State Fault Refusal} (hs : P s)
    (ho : o = .next t → P t) (h : (if c then .next s.refuse else o) = .next t) : P t := by
  split at h
  · cases h
    exact hP.refuse hs
  · exact ho h

theorem exec (i : Instr) {s t : State} (hs : P s) (h : exec i s = .next t) : P t := by
  have hstart (n : Word) (p : Phase) : P (s.startDecode n p) := hP.startDecode hs n p
  have hlzd : P s.lzdStart := hP.congr (hstart s.outLen .lzd) rfl
  cases i with
  | clr => exact of_next_eq_next (hP.clearRegisters hs) h
  | bget => exact hP.refuseIf hs (hP.refuseIf hs (of_next_eq_next (hP.bget hs _))) h
  | cup => exact hP.refuseIf hs (hP.refuseIf hs (hP.refuseIf hs (of_next_eq_next (hP.cup hs)))) h
  | lzd => exact hP.refuseIf hs (hP.refuseIf hs (hP.runCommand hlzd)) h
  | rld | dlf | dbk => exact hP.refuseIf hs (hP.refuseIf hs (hP.runCommand (hstart _ _))) h
  | _ => exact of_next_eq_next (hP.runItem _ hs) ((exec_item rfl s).symm.trans h)

/-! ### The host's actions and the step -/

theorem perform (a : HostAction) {s t : State} (hs : P s) (h : perform a s = .next t) : P t := by
  cases a with
  | readReg => cases h; exact hP.congr hs rfl
  | writeReg i v =>
    simp only [Machine.perform, writeCommand] at h
    split at h
    · split at h
      · exact hP.exec _ hs h
      · cases h; exact hP.refuse hs
    · cases h; exact hP.writeReg hs i v
  | writeIn a v => cases h; exact hP.hostWriteIn hs a v
  | writeSel a v => cases h; exact hP.hostWriteSel hs a v
  | readIn | readSel =>
    simp only [Machine.perform, hostReadIn, hostReadSel] at h
    split at h <;> cases h
    exact hP.congr hs rfl
  | readOut =>
    simp only [Machine.perform, hostReadOut] at h
    split at h <;> cases h <;> exact hP.congr hs rfl
  | reset => cases h; exact hP.resetEvent hs

/-- Every step keeps a storage invariant. -/
theorem step {s t : State} (hs : P s) (h : step s = .next t) : P t := by
  by_cases hp : s.phase = .host
  · rw [step_host hp] at h
    unfold hostTurn at h
    split at h
    · cases h; exact hs
    case h_2 a rest _ =>
      have hrest : P { s with pending := rest } := hP.congr hs rfl
      exact hP.perform a hrest h
  · rw [step_turn hp] at h
    cases h
    exact hP.turn hs

end StorageInvariant

/-- Having given capacities is a storage invariant: nothing writes the capacities. -/
theorem storageInvariant_caps (m n : Nat) : StorageInvariant fun s => s.inCap = m ∧ s.outCap = n where
  congr := by
    rintro s t ⟨hin, hout⟩ h
    simp only [State.storage, Prod.mk.injEq] at h
    obtain ⟨-, -, -, hincap, houtcap⟩ := h
    exact ⟨by simpa [State.inCap, hincap] using hin, by simpa [State.outCap, houtcap] using hout⟩
  writeIn _ _ h := h
  writeSel _ _ h := h
  writeOut _ _ h := h
  zeroOut _ h := h
  forgetIn h := h
  forgetSel h := h
  forgetOut h := h

/-- Settles O59: the capacities a state has are a storage invariant, so every step keeps them. -/
theorem stepKeepsCapacities : Obligations.StepKeepsCapacities := by
  intro s t h
  exact (storageInvariant_caps s.inCap s.outCap).step ⟨rfl, rfl⟩ h

end Sys2Proof.Machine
end

