-- ==== Sys2Proof/Proofs/Reset.lean ====
section
/-!
PROOFS. The initial case of the buffers' bounds: after reset no buffer holds a byte (R236).
-/
namespace Sys2Proof.Machine

/-- An empty buffer lies below every bound. -/
theorem Mem.below_nil (n : Nat) : Mem.below [] n := nofun

/-- Settles O54: the three buffers are empty at reset, and no command is running. -/
theorem resetWithinCapacities : Obligations.ResetWithinCapacities :=
  ⟨Mem.below_nil _, Mem.below_nil _, Mem.below_nil _, trivial⟩

end Sys2Proof.Machine
end

