-- ==== Sys2Proof/Proofs/Pixel.lean ====
section
/-!
PROOFS. The arithmetic of one pixel of the upsampler: `clamp` and `sint8` (R11, R12), the three formulas of R173 as
integer expressions, and the ranges of their sums (R175).
-/
namespace Sys2Proof.Machine

/-! ### clamp and sint8 -/

/-- `clamp` as a number: the nearest value of 0..255. -/
theorem clamp_toNat (v : Int) : (clamp v).toNat = min v.toNat 255 := by
  have hlt : min v.toNat 255 < 2 ^ 8 := by omega
  rw [clamp, BitVec.toNat_ofNat, Nat.mod_eq_of_lt hlt]

theorem clamp_of_neg {v : Int} (h : v < 0) : clamp v = 0#8 := by
  have hv : v.toNat = 0 := by omega
  rw [clamp, hv]
  rfl

theorem clamp_of_gt {v : Int} (h : 255 < v) : clamp v = 255#8 := by
  have hv : min v.toNat 255 = 255 := by omega
  rw [clamp, hv]

theorem clamp_toNat_of_mem {v : Int} (h0 : 0 ≤ v) (h1 : v ≤ 255) : ((clamp v).toNat : Int) = v := by
  rw [clamp_toNat]
  omega

/-- `clamp` saturates at both ends and is the identity between them (R11). -/
theorem clamp_saturates (v : Int) :
    (v < 0 → clamp v = 0#8) ∧ (255 < v → clamp v = 255#8) ∧ (0 ≤ v → v ≤ 255 → ((clamp v).toNat : Int) = v) :=
  ⟨clamp_of_neg, clamp_of_gt, clamp_toNat_of_mem⟩

/-- `clamp` gives a byte's value back as the byte. -/
theorem clamp_toNat_self (b : Byte) : clamp b.toNat = b := by
  apply BitVec.eq_of_toNat_eq
  rw [clamp_toNat]
  omega

theorem sint8_eq (b : Byte) : sint8 b = if b.toNat < 128 then (b.toNat : Int) else (b.toNat : Int) - 256 := by
  rw [sint8, BitVec.toInt_eq_toNat_cond]
  split_ifs <;> omega

theorem sint8_range (b : Byte) : -128 ≤ sint8 b ∧ sint8 b ≤ 127 := by
  rw [sint8_eq]
  split_ifs <;> omega

/-! ### The formulas of R173 -/

theorem blueOf_eq (l cb : Int) : blueOf l cb = clamp ((l * 128 + 226 * cb) / 128) := rfl

theorem greenOf_eq (l cb cr : Int) : greenOf l cb cr = clamp ((l * 128 - 43 * cb - 89 * cr) / 128) := rfl

theorem redOf_eq (l cr : Int) : redOf l cr = clamp ((l * 128 + 179 * cr) / 128) := rfl

/-- A zero chroma pair gives a grey pixel (R176). -/
theorem grey_of_zero_chroma (b : Byte) : blueOf b.toNat 0 = b ∧ greenOf b.toNat 0 0 = b ∧ redOf b.toNat 0 = b := by
  simp [blueOf_eq, greenOf_eq, redOf_eq, clamp_toNat_self]

/-- Settles O37: each byte is the clamp of its shifted sum, and the sums are linear in samples of known range. -/
theorem pixelRanges : Obligations.PixelRanges := by
  refine ⟨clamp_saturates, sint8_eq, grey_of_zero_chroma, fun l cb cr => ?_⟩
  obtain ⟨hcb0, hcb1⟩ := sint8_range cb
  obtain ⟨hcr0, hcr1⟩ := sint8_range cr
  have hl : l.toNat < 256 := l.isLt
  dsimp only
  rw [blueOf_eq, greenOf_eq, redOf_eq]
  exact ⟨clamp_saturates _, by omega, by omega, clamp_saturates _, by omega, by omega, clamp_saturates _, by omega,
    by omega⟩

end Sys2Proof.Machine
end

