-- ==== Sys2Proof/Proofs/Copied.lean ====
section
/-!
PROOFS. What a stream item does to the state, said once: it moves the byte cursor on inside the stream, appends a number
of bytes to the output and changes nothing else, or it raises a failure after having done so. The commands' end states,
their invariants and the end of every run are derived from this.
-/
namespace Sys2Proof.Machine

/-- `t` is `s` after `n` bytes were appended to the output and some bytes of the stream were read, none of them at or
beyond `IN_LEN`. What `OUT` then holds is said where the output cursor does not wrap. -/
structure Copied (n : Nat) (s t : State) : Prop where
  frame : t = { s with ipos := t.ipos, opos := s.opos + BitVec.ofNat 32 n, outBuf := t.outBuf }
  ipos_le : s.ipos.toNat ≤ t.ipos.toNat
  ipos_in : t.ipos = s.ipos ∨ t.ipos.toNat ≤ s.inLen.toNat
  held : s.opos.toNat + n < 2 ^ 32 → ∀ a, (t.outBuf.read a).isSome ↔
    (s.outBuf.read a).isSome ∨ (s.opos.toNat ≤ a ∧ a < s.opos.toNat + n)

/-! ### The output cursor -/

theorem opos_add_toNat {p : Word} {n : Nat} (h : p.toNat + n < 2 ^ 32) :
    (p + BitVec.ofNat 32 n).toNat = p.toNat + n := by
  rw [BitVec.toNat_add, BitVec.toNat_ofNat, Nat.add_mod_mod, Nat.mod_eq_of_lt h]

namespace Copied

variable {n m : Nat} {s t u : State}

theorem opos (h : Copied n s t) : t.opos = s.opos + BitVec.ofNat 32 n := by rw [h.frame]

theorem opos_toNat (h : Copied n s t) (hn : s.opos.toNat + n < 2 ^ 32) : t.opos.toNat = s.opos.toNat + n := by
  rw [h.opos, opos_add_toNat hn]

theorem outLen (h : Copied n s t) : t.outLen = s.outLen := by rw [h.frame]

theorem inLen (h : Copied n s t) : t.inLen = s.inLen := by rw [h.frame]

theorem channels (h : Copied n s t) : t.channels = s.channels := by rw [h.frame]

theorem phase (h : Copied n s t) : t.phase = s.phase := by rw [h.frame]

/-- The byte cursor stays inside the stream where it was inside. -/
theorem ipos_le_inLen (h : Copied n s t) (hs : s.ipos.toNat ≤ s.inLen.toNat) : t.ipos.toNat ≤ s.inLen.toNat := by
  rcases h.ipos_in with he | hle
  · rwa [he]
  · exact hle

theorem refl (s : State) : Copied 0 s s where
  frame := by simp
  ipos_le := Nat.le_refl _
  ipos_in := .inl rfl
  held _ a := by simp

theorem trans (h : Copied n s t) (k : Copied m t u) : Copied (n + m) s u where
  frame := by
    rw [k.frame, h.frame, BitVec.ofNat_add, BitVec.add_assoc]
  ipos_le := h.ipos_le.trans k.ipos_le
  ipos_in := by
    have hlen : t.inLen = s.inLen := h.inLen
    rcases k.ipos_in with he | hle
    · rw [he]
      exact h.ipos_in
    · exact .inr (hlen ▸ hle)
  held hn a := by
    have ht : t.opos.toNat = s.opos.toNat + n := h.opos_toNat (by omega)
    rw [k.held (by omega) a, h.held (by omega) a, ht, or_assoc]
    exact or_congr_right (by omega)

/-- The control word stands beside everything that is copied. -/
theorem withCtl (h : Copied n s t) (c : Half) : Copied n { s with ctl := c } { t with ctl := c } where
  frame := by rw [h.frame]
  ipos_le := h.ipos_le
  ipos_in := h.ipos_in
  held := h.held

end Copied

/-! ### The primitives -/

theorem copied_outPut (s : State) (v : Byte) : Copied 1 s (s.outPut v) where
  frame := rfl
  ipos_le := Nat.le_refl _
  ipos_in := .inl rfl
  held _ a := by
    rw [State.outPut_outBuf, Mem.read_write]
    split_ifs <;> simp <;> omega

/-- The byte cursor moved past bytes of the stream. -/
theorem copied_consume {s : State} {n : Nat} (h : s.ipos.toNat + n ≤ s.inLen.toNat) : Copied 0 s (s.consume n) where
  frame := by simp [State.consume]
  ipos_le := by
    have hlt : s.ipos.toNat + n < 2 ^ 32 := by omega
    rw [State.consume_ipos, opos_add_toNat hlt]
    omega
  ipos_in := by
    have hlt : s.ipos.toNat + n < 2 ^ 32 := by omega
    rw [State.consume_ipos, opos_add_toNat hlt]
    exact .inr h
  held _ a := by simp

theorem copied_inRead8 {s t : State} {b : Byte} (h : s.inRead8 = some (b, t)) : Copied 0 s t := by
  obtain ⟨hlt, -, rfl⟩ := State.inRead8_eq_some.mp h
  exact copied_consume (n := 1) hlt

/-! ### Loops that always append -/

theorem copied_putChunk : ∀ (bs : List Byte) (s : State), Copied bs.length s (putChunk bs s)
  | [], s => .refl s
  | b :: bs, s => by
    rw [List.length_cons, Nat.add_comm]
    exact (copied_outPut s b).trans (copied_putChunk bs (s.outPut b))

theorem copied_readChunk : ∀ {k : Nat} {s t : State} {bs : List Byte},
    readChunk k s = some (bs, t) → bs.length = k ∧ Copied 0 s t
  | 0, s, t, bs, h => by
    cases h
    exact ⟨rfl, .refl s⟩
  | k + 1, s, t, bs, h => by
    unfold readChunk at h
    split at h
    · cases h
    · split at h <;> cases h
      obtain ⟨hlen, hrest⟩ := copied_readChunk ‹readChunk k _ = _›
      exact ⟨congrArg (· + 1) hlen, (copied_inRead8 ‹_›).trans hrest⟩

theorem copied_copyChunk : ∀ {k : Nat} {s t : State}, copyChunk k s = some t → Copied k s t
  | 0, s, t, h => by
    cases h
    exact .refl s
  | k + 1, s, t, h => by
    unfold copyChunk at h
    split at h
    · cases h
    · have hall := ((copied_inRead8 ‹_›).trans (copied_outPut _ _)).trans (copied_copyChunk h)
      rwa [Nat.zero_add, Nat.add_comm] at hall

/-- A loop whose body appends `n` bytes each time. -/
theorem copied_forUp {f : Nat → State → State} {n : Nat} (hf : ∀ i s, Copied n s (f i s)) :
    ∀ k a s, Copied (k * n) s (forUp f k a s)
  | 0, a, s => by
    rw [Nat.zero_mul]
    exact .refl s
  | k + 1, a, s => by
    rw [Nat.succ_mul, Nat.add_comm]
    exact (hf a s).trans (copied_forUp hf k (a + 1) (f a s))

/-- A delta row appends its `stride` bytes and moves on to the next row (R180). -/
theorem deltaRow_copied (s : State) (value : State → Nat → Byte) :
    ∃ t, Copied s.stride s t ∧ t.ipos = s.ipos ∧ s.deltaRow value = { t with row := s.row + 1 } := by
  have hrow : Copied (s.stride * 1) s (forUp (fun i u => u.outPut (value u i)) s.stride 0 s) :=
    copied_forUp (fun i u => copied_outPut u (value u i)) s.stride 0 s
  rw [Nat.mul_one] at hrow
  have hipos : (forUp (fun i u => u.outPut (value u i)) s.stride 0 s).ipos = s.ipos :=
    forUp_keeps (f := fun i u => u.outPut (value u i)) (P := fun u => u.ipos = s.ipos) (fun _ _ hu => hu) _ _ s rfl
  refine ⟨_, hrow, hipos, ?_⟩
  have hsame : (forUp (fun i u => u.outPut (value u i)) s.stride 0 s).row = s.row := by rw [hrow.frame]
  rw [State.deltaRow, hsame]

/-! ### Loops that stop when the output is full -/

/-- `n` bytes keep to the output in whole chunks of `c`, where the output still to be written is whole chunks (R163). A
back-reference or a literal has chunks of one byte (R151). -/
def State.fits (s : State) (c n : Nat) : Prop :=
  s.opos.toNat ≤ s.outLen.toNat → c ∣ s.outLen.toNat - s.opos.toNat → c ∣ n ∧ s.opos.toNat + n ≤ s.outLen.toNat

theorem State.fits_zero (s : State) (c : Nat) : s.fits c 0 := fun h _ => ⟨Nat.dvd_zero c, h⟩

/-- One more chunk fits before those that fit after it, as long as the output is not full. -/
theorem State.fits_add {s t : State} {c n : Nat} (hfull : s.opos ≠ s.outLen) (h : Copied c s t) (hn : t.fits c n) :
    s.fits c (c + n) := by
  intro hle hdvd
  have hne : s.opos.toNat ≠ s.outLen.toNat := fun he => hfull (BitVec.eq_of_toNat_eq he)
  have hc : c ≤ s.outLen.toNat - s.opos.toNat := Nat.le_of_dvd (by omega) hdvd
  have hopos : t.opos.toNat = s.opos.toNat + c := h.opos_toNat (by omega)
  have hrest : c ∣ t.outLen.toNat - t.opos.toNat := by
    rw [h.outLen, hopos, Nat.sub_add_eq]
    exact Nat.dvd_sub hdvd (Nat.dvd_refl c)
  obtain ⟨hdn, hroom⟩ := hn (by rw [h.outLen]; omega) hrest
  rw [h.outLen] at hroom
  exact ⟨Nat.dvd_add (Nat.dvd_refl c) hdn, by omega⟩

/-- What an item of the LZ or the run-length stream can do: it copies bytes that fit in chunks of `k`, or it raises one
of the failures `fs` after having copied some. -/
def CopiesOrFails (c : Command) (fs : List Failure) (k : Nat) (s t : State) : Prop :=
  (∃ n, s.fits k n ∧ Copied n s t) ∨ ∃ n u f, f ∈ fs ∧ Copied n s u ∧ t = u.raise c f

namespace CopiesOrFails

variable {c : Command} {fs gs : List Failure} {k : Nat} {s t u : State}

theorem done (s : State) : CopiesOrFails c fs k s s := .inl ⟨0, s.fits_zero k, .refl s⟩

theorem fails (s : State) {f : Failure} (hf : f ∈ fs) : CopiesOrFails c fs k s (s.raise c f) :=
  .inr ⟨0, s, f, hf, .refl s, rfl⟩

/-- One chunk, and what comes after it. -/
theorem chunk (hfull : s.opos ≠ s.outLen) (h : Copied k s t) (hu : CopiesOrFails c fs k t u) :
    CopiesOrFails c fs k s u := by
  rcases hu with ⟨n, hfit, hcopy⟩ | ⟨n, v, f, hf, hcopy, rfl⟩
  · exact .inl ⟨k + n, State.fits_add hfull h hfit, h.trans hcopy⟩
  · exact .inr ⟨k + n, v, f, hf, h.trans hcopy, rfl⟩

/-- Bytes read before the first chunk. -/
theorem read (h : Copied 0 s t) (hu : CopiesOrFails c fs k t u) : CopiesOrFails c fs k s u := by
  have hopos : t.opos = s.opos := by rw [h.opos]; simp
  rcases hu with ⟨n, hfit, hcopy⟩ | ⟨n, v, f, hf, hcopy, rfl⟩
  · rw [State.fits, hopos, h.outLen] at hfit
    exact .inl ⟨n, hfit, Nat.zero_add n ▸ h.trans hcopy⟩
  · exact .inr ⟨n, v, f, hf, Nat.zero_add n ▸ h.trans hcopy, rfl⟩

theorem mono (hfs : fs ⊆ gs) (h : CopiesOrFails c fs k s t) : CopiesOrFails c gs k s t :=
  h.imp_right fun ⟨n, u, f, hf, hu⟩ => ⟨n, u, f, hfs hf, hu⟩

end CopiesOrFails

theorem lzLitLoop_copies : ∀ k s, CopiesOrFails .lzd [.outOfData] 1 s (lzLitLoop k s)
  | 0, s => .done s
  | k + 1, s => by
    unfold lzLitLoop
    split
    · exact .done s
    · split
      · exact .fails s (by simp)
      · exact .chunk ‹_› ((copied_inRead8 ‹_›).trans (copied_outPut _ _)) (lzLitLoop_copies k _)

theorem lzCopyLoop_copies : ∀ k src s, CopiesOrFails .lzd [.badBackReference] 1 s (lzCopyLoop k src s)
  | 0, _, s => .done s
  | k + 1, src, s => by
    unfold lzCopyLoop
    split
    · exact .done s
    · exact .chunk ‹_› (copied_outPut _ _) (lzCopyLoop_copies k (src + 1) _)

theorem lzCopy_copies (s : State) (look count : Nat) :
    CopiesOrFails .lzd [.badBackReference] 1 s (s.lzCopy look count) := by
  unfold State.lzCopy
  split
  · exact .fails s (by simp)
  · exact lzCopyLoop_copies _ _ s

theorem rlRepLoop_copies (chunk : List Byte) :
    ∀ k s, CopiesOrFails .rld [.outOfData] chunk.length s (rlRepLoop chunk k s)
  | 0, s => .done s
  | k + 1, s => by
    unfold rlRepLoop
    split
    · exact .done s
    · exact .chunk ‹_› (copied_putChunk chunk s) (rlRepLoop_copies chunk k _)

theorem rlRawLoop_copies : ∀ k s, CopiesOrFails .rld [.outOfData] s.channels.toNat s (rlRawLoop k s)
  | 0, s => .done s
  | k + 1, s => by
    unfold rlRawLoop
    split
    · exact .done s
    · split
      · exact .fails s (by simp)
      case h_2 t ht =>
        have hcopy := copied_copyChunk ht
        exact .chunk ‹_› hcopy (hcopy.channels ▸ rlRawLoop_copies k t)

theorem rlRep_copies (s : State) (cnt : BitVec 7) :
    CopiesOrFails .rld [.outOfData] s.channels.toNat s (s.rlRep cnt) := by
  unfold State.rlRep
  split
  · exact .fails s (by simp)
  case h_2 chunk t h =>
    obtain ⟨hlen, hread⟩ := copied_readChunk h
    exact .read hread (hlen ▸ rlRepLoop_copies chunk _ t)

end Sys2Proof.Machine
end

