-- ==== Sys2Proof/Proofs/Turn.lean ====
section
/-!
PROOFS. What one turn of a running command can do, phase by phase: the fetch moves the byte cursor past an item's own
bytes, which all lie in the stream; the item then copies or fails. Every turn goes on, completes the command or raises.
-/
namespace Sys2Proof.Machine

/-! ### The fetch stays inside the stream -/

theorem State.length_streamFrom (s : State) : ∀ k a, (s.streamFrom k a).length = min k (s.inLen.toNat - a)
  | 0, a => by simp [State.streamFrom]
  | k + 1, a => by
    unfold State.streamFrom
    split
    · rw [List.length_cons, State.length_streamFrom s k (a + 1)]
      omega
    · rw [List.length_nil]
      omega

/-- An item has at least one byte of its own (R153). -/
theorem headLength_pos (i : Instr) : 0 < headLength i := by
  cases i <;> simp [headLength, constants]

/-- The decoder answers only where all the bytes of the item's head are there (R64). -/
theorem headLength_le_of_decode {c : Context} {bs : List Byte} {i : Instr} (h : decode c bs = .instr i) :
    headLength i ≤ bs.length := by
  have hc := decode_context h
  cases c with
  | command | lzControl | lzLiteral | runLength | selector | blockHeader =>
    cases i <;> cases hc
    all_goals
      simp only [decode] at h
      split at h
      · simp [headLength, constants]
      · cases h
  | lzBackref =>
    simp only [decode] at h
    split at h
    · simp only [decodeBackref] at h
      split at h
      · cases h; simp [headLength]
      · split at h <;> cases h
        simp [headLength]
    · cases h

/-- A fetch from the stream gives an item whose own bytes are read, or it raises `OutOfData`. -/
theorem State.fetchAt_copied (s : State) (ctx : Context) (cmd : Command) :
    (∃ i t, itemContext i = ctx ∧ Copied 0 s t ∧ s.ipos.toNat < t.ipos.toNat ∧ s.fetchAt ctx cmd = .item i t) ∨
    s.fetchAt ctx cmd = .settled (s.raise cmd .outOfData) := by
  rcases s.fetchAt_cases ctx cmd with ⟨i, hi, he⟩ | ⟨-, he⟩
  · have hlen := headLength_le_of_decode hi
    have hpos := headLength_pos i
    rw [State.streamWindow, State.length_streamFrom] at hlen
    have hin : s.ipos.toNat + headLength i ≤ s.inLen.toNat := by omega
    refine .inl ⟨i, _, decode_context hi, copied_consume hin, ?_, he⟩
    rw [State.consume_ipos, opos_add_toNat (by omega)]
    omega
  · exact .inr he

/-- What a turn makes of its fetch: the item's effect, or the state it has settled. -/
def Fetched.turned : Fetched → State
  | .item i t => runItem i t
  | .settled t => t

theorem State.turn_eq (s : State) : s.turn = s.fetch.turned := by
  unfold State.turn
  cases s.fetch <;> rfl

/-! ### The stream commands -/

/-- The two commands that read items until the output is full. -/
inductive StreamCommand where
  | lzd
  | rld

namespace StreamCommand

/-- The command by its name in a raise. -/
def command : StreamCommand → Command
  | .lzd => .lzd
  | .rld => .rld

/-- Where its loop stands. -/
def phase : StreamCommand → Phase
  | .lzd => .lzd
  | .rld => .rld

/-- The failures its items raise (R154, R165). -/
def failures : StreamCommand → List Failure
  | .lzd => [.outOfData, .badBackReference]
  | .rld => [.outOfData]

/-- The bytes that its items append at a time (R151, R163). -/
def chunk : StreamCommand → State → Nat
  | .lzd, _ => 1
  | .rld, s => s.channels.toNat

/-- Only `LZD` writes the control word (R24, R33). -/
def ctlOk : StreamCommand → State → Half → Prop
  | .lzd, _, _ => True
  | .rld, s, w => w = s.ctl

/-- `t` is `s` after items of the command have appended `n` bytes; `w` is the control word they leave. -/
def Ran (c : StreamCommand) (n : Nat) (s t : State) : Prop := ∃ w, c.ctlOk s w ∧ Copied n { s with ctl := w } t

theorem Ran.trans {c : StreamCommand} {n m : Nat} {s t u : State} (h : c.Ran n s t) (k : c.Ran m t u) :
    c.Ran (n + m) s u := by
  obtain ⟨w, hw, hcopy⟩ := h
  obtain ⟨x, hx, hcopy'⟩ := k
  refine ⟨x, ?_, (hcopy.withCtl x).trans hcopy'⟩
  cases c with
  | lzd => trivial
  | rld =>
    rw [ctlOk, hcopy.frame] at hx
    exact hx.trans hw

/-- A turn of the command's loop that is not its end: an item read from the stream and copied, or a failure. -/
def Turn (c : StreamCommand) (s t : State) : Prop :=
  (∃ n, s.fits (c.chunk s) n ∧ c.Ran n s t ∧ s.ipos.toNat < t.ipos.toNat) ∨
  ∃ n u f, f ∈ c.failures ∧ c.Ran n s u ∧ t = u.raise c.command f

/-- What follows an item's own bytes makes the turn. -/
theorem Turn.of_copies {c : StreamCommand} {s t u : State} (hread : c.Ran 0 s t) (hpos : s.ipos.toNat < t.ipos.toNat)
    (h : CopiesOrFails c.command c.failures (c.chunk s) t u) : c.Turn s u := by
  obtain ⟨w, hw, hcopy⟩ := hread
  rcases h with ⟨n, hfit, hn⟩ | ⟨n, v, f, hf, hn, rfl⟩
  · rw [State.fits, hcopy.opos, hcopy.outLen, BitVec.add_zero] at hfit
    exact .inl ⟨n, hfit, ⟨w, hw, Nat.zero_add n ▸ hcopy.trans hn⟩, hpos.trans_le hn.ipos_le⟩
  · exact .inr ⟨0 + n, v, f, hf, ⟨w, hw, hcopy.trans hn⟩, rfl⟩

/-- A fetch that finds no item. -/
theorem Turn.of_truncated {c : StreamCommand} {s : State} {w : Half} (hw : c.ctlOk s w) :
    c.Turn s ({ s with ctl := w }.raise c.command .outOfData) :=
  .inr ⟨0, _, _, by cases c <;> simp [failures], ⟨w, hw, .refl _⟩, rfl⟩

/-- An LZ item after its fetch: the control byte refills the control word, a token copies or fails. -/
theorem turn_lzItem {s t : State} {w : Half} {i : Instr}
    (hi : itemContext i ∈ [Context.lzControl, .lzLiteral, .lzBackref]) (hread : Copied 0 { s with ctl := w } t)
    (hpos : s.ipos.toNat < t.ipos.toNat) : lzd.Turn s (runItem i t) := by
  have hran : lzd.Ran 0 s t := ⟨w, trivial, hread⟩
  cases i <;> simp [itemContext] at hi
  case lzCtlb b => exact .inl ⟨0, s.fits_zero _, ⟨ctlRefill b, trivial, hread.withCtl _⟩, hpos⟩
  case lzLit n => exact .of_copies hran hpos (.mono (by simp [failures]) (lzLitLoop_copies n.toNat t))
  case lzShort | lzLong => exact .of_copies hran hpos (.mono (by simp [failures]) (lzCopy_copies t _ _))

/-- A packet after its fetch. -/
theorem turn_packet {s t : State} {i : Instr} (hi : itemContext i = .runLength) (hread : Copied 0 s t)
    (hpos : s.ipos.toNat < t.ipos.toNat) : rld.Turn s (runItem i t) := by
  have hran : rld.Ran 0 s t := ⟨s.ctl, rfl, hread⟩
  have hchunk : rld.chunk s = t.channels.toNat := by rw [hread.channels, chunk]
  cases i <;> cases hi
  case rlRep cnt => exact .of_copies hran hpos (hchunk ▸ rlRep_copies t cnt)
  case rlRaw cnt => exact .of_copies hran hpos (hchunk ▸ rlRawLoop_copies _ t)

theorem turn_fetchLz (s : State) : lzd.Turn s s.fetchLz.turned := by
  have hctx : s.lzContext ∈ [Context.lzControl, .lzLiteral, .lzBackref] := by
    unfold State.lzContext
    split_ifs <;> simp
  have hfetch (w : Half) : lzd.Turn s ({ s with ctl := w }.fetchAt s.lzContext .lzd).turned := by
    rcases State.fetchAt_copied { s with ctl := w } s.lzContext .lzd with ⟨i, t, hi, hread, hpos, he⟩ | he <;> rw [he]
    · exact turn_lzItem (hi ▸ hctx) hread hpos
    · exact .of_truncated (c := lzd) trivial
  unfold State.fetchLz
  split
  · exact hfetch s.ctl
  · exact hfetch (ctlTake s.ctl)

theorem turn_fetchPacket (s : State) : rld.Turn s (s.fetchAt .runLength .rld).turned := by
  rcases s.fetchAt_copied .runLength .rld with ⟨i, t, hi, hread, hpos, he⟩ | he <;> rw [he]
  · exact turn_packet hi hread hpos
  · exact Turn.of_truncated (c := rld) (w := s.ctl) rfl

/-- A turn of a stream command: the loop's end (R140, R160), or an item. -/
theorem turn_cases (c : StreamCommand) {s : State} (hp : s.phase = c.phase) :
    (s.outLen.toNat ≤ s.opos.toNat ∧ s.turn = s.complete) ∨
    (s.opos.toNat < s.outLen.toNat ∧ c.Turn s s.turn) := by
  by_cases hroom : s.opos.toNat < s.outLen.toNat
  · refine .inr ⟨hroom, ?_⟩
    rw [State.turn_eq]
    cases c with
    | lzd =>
      have hfetch : s.fetch = s.fetchLz := by simp [State.fetch, hp, phase, hroom]
      exact hfetch ▸ turn_fetchLz s
    | rld =>
      have hfetch : s.fetch = s.fetchAt .runLength .rld := by simp [State.fetch, hp, phase, hroom]
      exact hfetch ▸ turn_fetchPacket s
  · refine .inl ⟨by omega, ?_⟩
    cases c <;> simp [State.turn, State.fetch, hp, phase, hroom]

end StreamCommand

/-! ### The delta commands -/

/-- The selector load with enough bytes left never fails: only the byte cursor and `SEL` change (R189). -/
theorem loadSelectors_eq : ∀ k y (s : State), k ≤ s.avail →
    ∃ m, loadSelectors k y s = { s with ipos := s.ipos + BitVec.ofNat 32 k, selBuf := m }
  | 0, _, s, _ => ⟨s.selBuf, by simp [loadSelectors]⟩
  | k + 1, y, s, hk => by
    have hlt : s.ipos.toNat < s.inLen.toNat := by
      unfold State.avail at hk
      omega
    have hread : s.inRead8 = some (s.inByte s.ipos.toNat, { s with ipos := s.ipos + 1#32 }) :=
      State.inRead8_eq_some.mpr ⟨hlt, rfl, rfl⟩
    have hone : (s.ipos + 1#32).toNat = s.ipos.toNat + 1 := ipos_add_one hlt
    obtain ⟨m, hm⟩ := loadSelectors_eq k (y + 1)
      { s with ipos := s.ipos + 1#32, selBuf := s.selBuf.write y (s.inByte s.ipos.toNat) } (by
        simp only [State.avail, hone] at hk ⊢
        omega)
    refine ⟨m, ?_⟩
    simp only [loadSelectors, hread]
    rw [hm, Nat.add_comm k 1, BitVec.ofNat_add, ← BitVec.add_assoc]

/-- The header does not fit the declared image, or too few selector bytes follow it (R190, R211). -/
def State.hdrMismatch (s : State) (width height : Half) : Prop :=
  width ≠ s.width ∨ height ≠ s.height ∨ s.avail < s.height.toNat

theorem State.dbkHdr_of_mismatch {s : State} {depth width height : Half} (h : s.hdrMismatch width height) :
    s.dbkHdr depth width height = { s with depth := depth }.raise .dbk .sizeMismatch := by
  simp only [State.dbkHdr]
  split_ifs with hw hh hk
  · rfl
  · rfl
  · rfl
  · exact absurd h (not_or.mpr ⟨hw, not_or.mpr ⟨hh, hk⟩⟩)

theorem State.dbkHdr_of_match {s : State} {depth width height : Half} (h : ¬ s.hdrMismatch width height) :
    s.dbkHdr depth width height =
      { loadSelectors s.height.toNat 0 { s with depth := depth } with
        selLen := s.height, phase := .body .dbk, row := 0 } := by
  obtain ⟨hw, hh, hk⟩ : ¬ width ≠ s.width ∧ ¬ height ≠ s.height ∧ ¬ s.avail < s.height.toNat := by
    simpa [State.hdrMismatch] using h
  exact (if_neg hw).trans ((if_neg hh).trans (if_neg hk))

/-- The header's item: a mismatch, or on to the body with the depth, the selectors and their number taken over. -/
theorem State.dbkHdr_cases (s : State) (depth width height : Half) :
    s.dbkHdr depth width height = { s with depth := depth }.raise .dbk .sizeMismatch ∨
    ∃ p m, s.dbkHdr depth width height =
      { s with depth := depth, ipos := p, selBuf := m, selLen := s.height, phase := .body .dbk, row := 0 } := by
  by_cases h : s.hdrMismatch width height
  · exact .inl (State.dbkHdr_of_mismatch h)
  · have hk : s.height.toNat ≤ s.avail := Nat.le_of_not_lt fun hlt => h (.inr (.inr hlt))
    obtain ⟨m, hm⟩ := loadSelectors_eq s.height.toNat 0 { s with depth := depth } hk
    exact .inr ⟨_, m, by rw [State.dbkHdr_of_match h, hm]⟩

/-- The turn of `DBK` before its header. -/
theorem turn_dbkHeader {s : State} (hp : s.phase = .dbkHeader) :
    (∃ p d f, s.turn = { s with ipos := p, depth := d }.raise .dbk f) ∨
    ∃ p m d, s.turn =
      { s with depth := d, ipos := p, selBuf := m, selLen := s.height, phase := .body .dbk, row := 0 } := by
  have hfetch : s.fetch = s.fetchAt .blockHeader .dbk := by simp [State.fetch, hp]
  rcases s.fetchAt_cases .blockHeader .dbk with ⟨i, hi, he⟩ | ⟨-, he⟩
  · have hctx := decode_context hi
    cases i <;> simp [itemContext] at hctx
    case dbkHdr skip depth width height =>
      have hturn : s.turn = (s.consume 8).dbkHdr depth width height := by
        simp [State.turn, hfetch, he, runItem, headLength, constants]
      rw [hturn]
      rcases (s.consume 8).dbkHdr_cases depth width height with h | ⟨p, m, h⟩
      · exact .inl ⟨(s.consume 8).ipos, depth, _, h⟩
      · exact .inr ⟨p, m, depth, h⟩
  · exact .inl ⟨s.ipos, s.depth, .outOfData, by simp [State.turn, hfetch, he]⟩

/-- The turn of the size checks (R181). -/
theorem turn_body {s : State} {c : DeltaCommand} (hp : s.phase = .body c) :
    s.turn = s.raise c.command .sizeMismatch ∨
      (s.total ≤ s.avail ∧ s.turn = { s with phase := .rows c, row := 0 }) := by
  have hturn : s.turn = s.bodyChecks c := by simp [State.turn, State.fetch, hp]
  rw [hturn]
  rcases s.bodyChecks_cases c with ⟨-, h⟩ | ⟨-, -, h⟩ | ⟨hpayload, -, h⟩
  · exact .inl h
  · exact .inl h
  · exact .inr ⟨hpayload, h⟩

/-- A turn of the row loop: the next row appended, an unknown selector, or the end (R182, R183). -/
theorem turn_rows {s : State} {c : DeltaCommand} (hp : s.phase = .rows c) :
    (s.row < s.height.toNat ∧ ∃ t, Copied s.stride s t ∧ t.ipos = s.ipos ∧ s.turn = { t with row := s.row + 1 }) ∨
    (∃ b, s.turn = s.raise c.command (.unknownDeltaFilter b)) ∨
    s.turn = (s.consume s.total).complete := by
  have hfetch : s.fetch = s.fetchRow c := by simp [State.fetch, hp]
  rcases s.fetchRow_cases c with ⟨hrow, i, hi, he⟩ | ⟨-, -, he⟩ | ⟨-, he⟩
  · have hctx := decode_context hi
    have hturn : s.turn = runItem i s := by simp [State.turn, hfetch, he]
    rw [hturn]
    cases i <;> cases hctx <;> exact .inl ⟨hrow, deltaRow_copied s _⟩
  · exact .inr (.inl ⟨_, by simp [State.turn, hfetch, he]; rfl⟩)
  · exact .inr (.inr (by simp [State.turn, hfetch, he]))

end Sys2Proof.Machine
end

