-- ==== Sys2Proof/Proofs/Record.lean ====
section
/-!
PROOFS. How every command and every host action ends, as far as the outcome registers and the place inside a command go:
the inversion of exec and of a step between commands, and from it the failure record (R31, R32) and atomicity (R74).
-/
namespace Sys2Proof.Machine

/-! ### How a turn and a command end -/

/-- A turn of a running command goes on with the failure record as it was, completes the command, or raises. -/
def GoesOnOrEnds (s t : State) : Prop :=
  (t.phase ≠ .host ∧ t.err = s.err ∧ t.errInfo = s.errInfo) ∨
  (∃ u : State, u.err = s.err ∧ u.errInfo = s.errInfo ∧ t = u.complete) ∨
  ∃ (u : State) (c : Command) (f : Failure), t = u.raise c f

theorem StreamCommand.turn_goesOnOrEnds (c : StreamCommand) {s : State} (hc : s.phase = c.phase) :
    GoesOnOrEnds s s.turn := by
  rcases c.turn_cases hc with ⟨-, h⟩ | ⟨-, ⟨n, -, ⟨w, -, hcopy⟩, -⟩ | ⟨n, u, f, -, -, h⟩⟩
  · exact .inr (.inl ⟨s, rfl, rfl, h⟩)
  · have hphase : s.turn.phase ≠ .host := by
      rw [hcopy.phase, hc]
      cases c <;> nofun
    exact .inl ⟨hphase, by rw [hcopy.frame], by rw [hcopy.frame]⟩
  · exact .inr (.inr ⟨u, _, f, h⟩)

theorem turn_goesOnOrEnds {s : State} (hp : s.phase ≠ .host) : GoesOnOrEnds s s.turn := by
  cases hphase : s.phase with
  | host => exact absurd hphase hp
  | lzd => exact StreamCommand.lzd.turn_goesOnOrEnds hphase
  | rld => exact StreamCommand.rld.turn_goesOnOrEnds hphase
  | dbkHeader =>
    rcases turn_dbkHeader hphase with ⟨q, e, f, h⟩ | ⟨p, m, d, h⟩
    · exact .inr (.inr ⟨_, _, f, h⟩)
    · rw [h]
      exact .inl ⟨nofun, rfl, rfl⟩
  | body c =>
    rcases turn_body hphase with h | ⟨-, h⟩
    · exact .inr (.inr ⟨s, _, _, h⟩)
    · rw [h]
      exact .inl ⟨nofun, rfl, rfl⟩
  | rows c =>
    rcases turn_rows hphase with ⟨-, t, hcopy, -, h⟩ | ⟨b, h⟩ | h
    · rw [h, hcopy.frame]
      exact .inl ⟨hp, rfl, rfl⟩
    · exact .inr (.inr ⟨s, _, _, h⟩)
    · exact .inr (.inl ⟨s.consume s.total, rfl, rfl, h⟩)

/-- How a host command ends: what its last state is made of. -/
inductive CommandEnd (s : State) : State → Prop where
  /-- `CLR` (R196). -/
  | cleared : CommandEnd s s.clearRegisters
  /-- Refused before its start (R93, R216). -/
  | refused : CommandEnd s s.refuse
  /-- `BGET` completed (R131). -/
  | gotBits (v p : Word) :
    CommandEnd s { s with err := none, errInfo := 0#32, bres := v, bpos := p, st := .done }
  /-- A decode command completed. -/
  | completed (u : State) (herr : u.err = none) (hinfo : u.errInfo = 0#32) : CommandEnd s u.complete
  /-- Failed after its start (R212). -/
  | failed (u : State) (c : Command) (f : Failure) : CommandEnd s (u.raise c f)

/-- What holds when a run ends: `R` is kept while the command goes on, and the turn that ends it gives `D`. -/
theorem runToEnd_ends_in {R D : State → Prop}
    (hturn : ∀ s, s.phase ≠ .host → R s →
      (s.turn.phase ≠ .host ∧ R s.turn) ∨ (s.turn.phase = .host ∧ D s.turn)) {k : Nat} {s t : State}
    (hp : s.phase ≠ .host) (hs : R s) (h : runToEnd k s = some t) : D t := by
  have hkeep : ∀ u : State, u.phase ≠ .host → (u.phase ≠ .host → R u) ∧ (u.phase = .host → D u) →
      (u.turn.phase ≠ .host → R u.turn) ∧ (u.turn.phase = .host → D u.turn) := by
    rintro u hu ⟨hR, -⟩
    rcases hturn u hu (hR hu) with ⟨hp', hR'⟩ | ⟨hp', hD'⟩
    · exact ⟨fun _ => hR', fun he => absurd he hp'⟩
    · exact ⟨fun hne => absurd hp' hne, fun _ => hD'⟩
  exact (runToEnd_keeps hkeep k s t ⟨fun _ => hs, fun he => absurd he hp⟩ h).2 (runToEnd_phase k s t h)

/-- A started command with a cleared failure record completes or raises, if it ends. -/
theorem runCommand_end {k : Nat} {s u t : State} (hp : u.phase ≠ .host) (herr : u.err = none)
    (hinfo : u.errInfo = 0#32) (h : runCommand k u = .next t) : CommandEnd s t := by
  refine runToEnd_ends_in (R := fun v => v.err = none ∧ v.errInfo = 0#32) ?_ hp ⟨herr, hinfo⟩
    (runCommand_eq_next.mp h)
  rintro v hv ⟨he, hi⟩
  rcases turn_goesOnOrEnds hv with ⟨hv', he', hi'⟩ | ⟨w, he', hi', hw⟩ | ⟨w, c, f, hw⟩
  · exact .inl ⟨hv', he'.trans he, hi'.trans hi⟩
  · rw [hw]
    exact .inr ⟨rfl, .completed w (he'.trans he) (hi'.trans hi)⟩
  · rw [hw]
    exact .inr ⟨w.raise_phase c f, .failed w c f⟩

theorem bget_end (s : State) (n : Nat) : CommandEnd s (s.bget n) := by
  simp only [State.bget]
  split
  · exact .failed _ _ _
  · exact .gotBits _ _

/-- The pixel loop of `CUP` (R170). -/
def State.pixels (s : State) : State :=
  forUp (fun y => forUp (cupPixel y) s.width.toNat 0) s.height.toNat 0 s

/-- Every pixel appends three bytes (R174). -/
theorem copied_pixels (s : State) : Copied (s.height.toNat * (s.width.toNat * 3)) s s.pixels :=
  copied_forUp (fun _ u => copied_forUp (fun _ v =>
    ((copied_outPut v _).trans (copied_outPut _ _)).trans (copied_outPut _ _)) s.width.toNat 0 u) s.height.toNat 0 s

/-- The started `CUP` (R170). -/
def State.cupStart (s : State) : State := s.startDecode (BitVec.ofNat 32 s.cupTotal) .host

theorem State.cup_of_short {s : State} (h : s.avail < s.cupNeed) : s.cup = s.cupStart.raise .cup .sizeMismatch :=
  if_pos h

theorem State.cup_of_enough {s : State} (h : s.cupNeed ≤ s.avail) :
    s.cup = { s.cupStart.pixels with ipos := s.cupStart.pixels.ipos + BitVec.ofNat 32 s.cupNeed }.complete :=
  if_neg (Nat.not_lt.mpr h)

/-- `CUP` after its pre-start checks: too little input, or all pixels appended (R170). -/
theorem cup_cases (s : State) :
    s.cup = s.cupStart.raise .cup .sizeMismatch ∨
    ∃ u p, Copied (s.height.toNat * (s.width.toNat * 3)) s.cupStart u ∧ s.cup = { u with ipos := p }.complete := by
  by_cases h : s.avail < s.cupNeed
  · exact .inl (State.cup_of_short h)
  · exact .inr ⟨_, _, copied_pixels s.cupStart, State.cup_of_enough (Nat.le_of_not_lt h)⟩

theorem cup_end (s : State) : CommandEnd s s.cup := by
  rcases cup_cases s with h | ⟨u, p, hcopy, h⟩ <;> rw [h]
  · exact .failed s.cupStart _ _
  · exact .completed _ (by rw [hcopy.frame]; rfl) (by rw [hcopy.frame]; rfl)

/-- A pre-start check (R216) refuses, or what comes after it decides how the command ends. -/
theorem refuseIf_end {s t : State} {c : Prop} [Decidable c] {o : Host.Outcome State Fault Refusal}
    (ho : o = .next t → CommandEnd s t) (h : (if c then .next s.refuse else o) = .next t) : CommandEnd s t := by
  split at h
  · cases h
    exact .refused
  · exact ho h

/-- Every host command that answers next has come to one of the ends. -/
theorem exec_end {i : Instr} {s t : State} (hi : itemContext i = .command) (h : exec i s = .next t) :
    CommandEnd s t := by
  cases i <;> simp [itemContext] at hi
  case clr => exact of_next_eq_next .cleared h
  case bget n => exact refuseIf_end (refuseIf_end (of_next_eq_next (bget_end s n.toNat))) h
  case cup => exact refuseIf_end (refuseIf_end (refuseIf_end (of_next_eq_next (cup_end s)))) h
  case lzd => exact refuseIf_end (refuseIf_end (runCommand_end (u := s.lzdStart) (by simp [State.lzdStart]) rfl rfl)) h
  case rld | dlf | dbk =>
    exact refuseIf_end (refuseIf_end (runCommand_end (u := s.startDecode _ _) (by simp) rfl rfl)) h

/-! ### What a step between commands can do -/

/-- What every host action but a command and the reset event leaves alone: the outcome registers, the place inside a
command, the output and its capacity. -/
def State.quiet (s : State) : RunStatus × Option FailKind × Word × Phase × Nat × Mem × Fin 4294967295 :=
  (s.st, s.err, s.errInfo, s.phase, s.row, s.outBuf, s.outCapPred)

theorem State.writeReg_quiet (s : State) (i : Nat) (v : Word) : (s.writeReg i v).quiet = s.quiet := by
  unfold State.writeReg
  split
  case h_1 r _ => cases r <;> rfl
  case h_2 => rfl

/-- The effect of a host action: nothing of the above, or the reset event, or a command, legal or not. -/
inductive HostEffect (s : State) : State → Prop where
  /-- A register access or a buffer access (R23, R76 to R78), or waiting. -/
  | quiet {t : State} (h : t.quiet = s.quiet) : HostEffect s t
  /-- The reset event (R235). -/
  | reset : HostEffect s s.resetEvent
  /-- An illegal word written to `CMD` (R93). -/
  | illegal : HostEffect s s.refuse
  /-- A legal word written to `CMD`. -/
  | command {t : State} {i : Instr} (hi : itemContext i = .command) (h : exec i s = .next t) : HostEffect s t

theorem perform_effect {a : HostAction} {s t : State} (h : perform a s = .next t) : HostEffect s t := by
  cases a with
  | readReg => cases h; exact .quiet rfl
  | writeReg i v =>
    simp only [perform, writeCommand] at h
    split at h
    · split at h
      · exact .command (decode_context ‹_›) h
      · cases h; exact .illegal
    · cases h; exact .quiet (s.writeReg_quiet i v)
  | writeIn =>
    cases h
    unfold State.hostWriteIn
    split <;> exact .quiet rfl
  | writeSel =>
    cases h
    unfold State.hostWriteSel
    split <;> exact .quiet rfl
  | readIn | readSel =>
    simp only [perform, hostReadIn, hostReadSel] at h
    split at h <;> cases h
    exact .quiet rfl
  | readOut =>
    simp only [perform, hostReadOut] at h
    split at h <;> cases h <;> exact .quiet rfl
  | reset => cases h; exact .reset

/-- A step between commands has the effect of the host action it takes off the pending ones, or none. -/
theorem step_host_effect {s t : State} (hp : s.phase = .host) (h : step s = .next t) :
    ∃ rest, HostEffect { s with pending := rest } t := by
  rw [step_host hp] at h
  unfold hostTurn at h
  split at h
  · cases h; exact ⟨[], .quiet rfl⟩
  · exact ⟨_, perform_effect h⟩

/-! ### Atomicity -/

theorem CommandEnd.settled {s t : State} (h : CommandEnd s t) (hs : s.settled) : t.settled := by
  cases h with
  | cleared | refused | gotBits => exact hs
  | completed => exact ⟨rfl, rfl⟩
  | failed u c f => exact ⟨u.raise_phase c f, u.raise_row c f⟩

theorem HostEffect.settled {s t : State} (h : HostEffect s t) (hs : s.settled) : t.settled := by
  cases h with
  | quiet h =>
    simp only [State.quiet, Prod.mk.injEq] at h
    obtain ⟨-, -, -, hphase, hrow, -, -⟩ := h
    exact ⟨hphase.trans hs.1, hrow.trans hs.2⟩
  | reset => exact ⟨rfl, rfl⟩
  | illegal => exact hs
  | command hi h => exact (exec_end hi h).settled hs

/-- Settles O58: a step between commands leaves the place alone, resets, or runs a command to its end. -/
theorem commandsAreAtomic : Obligations.CommandsAreAtomic := by
  intro s t hs h
  obtain ⟨rest, heffect⟩ := step_host_effect hs.1 h
  exact heffect.settled hs

/-! ### The failure record -/

/-- A failure has a parameter in one kind only, and it is a byte (R206). -/
theorem Failure.info_spec (f : Failure) :
    (f.kind ≠ .unknownDeltaFilter → f.info = 0#32) ∧ f.info.toNat < 256 := by
  cases f with
  | unknownDeltaFilter b => exact ⟨fun h => absurd rfl h, by simp [Failure.info]; omega⟩
  | outOfData | badBackReference | sizeMismatch | illegalOperation => exact ⟨fun _ => rfl, by decide⟩

theorem State.recordOk_raise (s : State) (c : Command) (f : Failure) : (s.raise c f).recordOk := by
  obtain ⟨hzero, hbyte⟩ := f.info_spec
  simp [State.recordOk, hbyte]
  exact hzero

theorem State.recordOk_complete {s : State} (herr : s.err = none) (hinfo : s.errInfo = 0#32) :
    s.complete.recordOk := by
  simp [State.recordOk, herr, hinfo]

theorem CommandEnd.recordOk {s t : State} (h : CommandEnd s t) (hp : s.phase = .host) : t.recordOk := by
  cases h with
  | cleared | refused | gotBits => simp [State.recordOk, hp]
  | completed u herr hinfo => exact State.recordOk_complete herr hinfo
  | failed u c f => exact u.recordOk_raise c f

theorem HostEffect.recordOk {s t : State} (h : HostEffect s t) (hp : s.phase = .host) (hs : s.recordOk) :
    t.recordOk := by
  cases h with
  | quiet h =>
    simp only [State.quiet, Prod.mk.injEq] at h
    obtain ⟨hst, herr, hinfo, hphase, -, -, -⟩ := h
    rwa [State.recordOk, hst, herr, hinfo, hphase]
  | reset => simp [State.recordOk]
  | illegal => exact CommandEnd.refused.recordOk hp
  | command hi h => exact (exec_end hi h).recordOk hp

theorem turn_recordOk {s : State} (hp : s.phase ≠ .host) (hs : s.recordOk) : s.turn.recordOk := by
  obtain ⟨-, hclear, hzero, hbyte⟩ := hs
  have herr : s.err = none := hclear hp
  have hinfo : s.errInfo = 0#32 := hzero (by simp [herr])
  rcases turn_goesOnOrEnds hp with ⟨hp', he, hi⟩ | ⟨u, he, hi, h⟩ | ⟨u, c, f, h⟩
  · simp [State.recordOk, hp', he, hi, herr, hinfo]
  · exact h ▸ State.recordOk_complete (he.trans herr) (hi.trans hinfo)
  · exact h ▸ u.recordOk_raise c f

/-- Settles O57: between commands by the ends of the host's actions, inside a command by the ends of a turn. -/
theorem stepKeepsFailureRecord : Obligations.StepKeepsFailureRecord := by
  intro s t hs h
  by_cases hp : s.phase = .host
  · obtain ⟨rest, heffect⟩ := step_host_effect hp h
    exact heffect.recordOk hp hs
  · rw [step_turn hp] at h
    cases h
    exact turn_recordOk hp hs

/-- Settles O56: at reset nothing has failed and no command is running. -/
theorem resetRecordAndRest : Obligations.ResetRecordAndRest :=
  ⟨by simp [State.recordOk, State.reset], rfl, rfl⟩

end Sys2Proof.Machine
end

