-- ==== Sys2Proof/Proofs/Bounds.lean ====
section
/-!
PROOFS. Every step keeps the buffers inside their capacities and the output cursor inside the output (R36, R70). For
`IN` and `SEL` this is a storage invariant; for `OUT` it rests on the cursor's invariant of each phase.
-/
namespace Sys2Proof.Machine

/-! ### IN and SEL -/

/-- That `IN` and `SEL` keep inside their capacities is a storage invariant. -/
theorem storageInvariant_inputsBelow :
    StorageInvariant fun s => s.inBuf.below s.inCap ∧ s.selBuf.below constants.selCap where
  congr := by
    rintro s t ⟨hin, hsel⟩ h
    simp only [State.storage, Prod.mk.injEq] at h
    obtain ⟨hinBuf, hselBuf, -, hinCap, -⟩ := h
    simp only [State.inCap, hinBuf, hselBuf, hinCap]
    exact ⟨hin, hsel⟩
  writeIn v ha h := ⟨Mem.below_write h.1 ha v, h.2⟩
  writeSel v ha h := ⟨h.1, Mem.below_write h.2 ha v⟩
  writeOut _ _ h := h
  zeroOut _ h := h
  forgetIn h := ⟨Mem.below_nil _, h.2⟩
  forgetSel h := ⟨h.1, Mem.below_nil _⟩
  forgetOut h := h

/-! ### OUT -/

/-- `OUT` keeps inside its capacity, and the cursor of a running command to the output. -/
def State.outOk (s : State) : Prop := s.outBuf.below s.outCap ∧ s.cursorOk

theorem State.outCap_lt (s : State) : s.outCap < 2 ^ 32 := by
  have := s.outCapPred.isLt
  unfold State.outCap
  omega

theorem Mem.below_iff {m : Mem} {n : Nat} : m.below n ↔ ∀ a, (m.read a).isSome → a < n := by
  simp only [Mem.below, Option.isSome_iff_exists]
  exact ⟨fun h a ⟨v, hv⟩ => h a v hv, fun h a v hv => h a ⟨v, hv⟩⟩

theorem Mem.below_zeros {n k : Nat} (h : n ≤ k) : (Mem.zeros n).below k := by
  simp only [Mem.below_iff, Mem.read_zeros]
  intro a ha
  split at ha
  · omega
  · cases ha

/-- Bytes appended below a bound keep the output below it. -/
theorem Copied.below {n b : Nat} {s t : State} (h : Copied n s t) (hs : s.outBuf.below b)
    (hn : s.opos.toNat + n ≤ b) (hb : b < 2 ^ 32) : t.outBuf.below b := by
  rw [Mem.below_iff] at hs ⊢
  intro a ha
  rcases (h.held (by omega) a).mp ha with hold | hnew
  · exact hs a hold
  · omega

theorem State.raise_outBuf {c : Command} (s : State) (f : Failure) (hc : c ≠ .bget) : (s.raise c f).outBuf = [] := by
  cases c with
  | bget => exact absurd rfl hc
  | lzd | rld | cup | dlf | dbk => rfl

theorem State.outOk_raise {c : Command} (s : State) (f : Failure) (hc : c ≠ .bget) : (s.raise c f).outOk := by
  constructor
  · rw [s.raise_outBuf f hc]
    exact Mem.below_nil _
  · simp [State.cursorOk]

theorem State.outOk_complete {s : State} (h : s.outBuf.below s.outCap) : s.complete.outOk := ⟨h, trivial⟩

/-- The cursor's invariant inside a stream command: the rest of the output lies inside the capacity, in whole chunks. -/
theorem StreamCommand.cursorOk_iff (c : StreamCommand) {s : State} (hp : s.phase = c.phase) :
    s.cursorOk ↔ s.opos.toNat ≤ s.outLen.toNat ∧ s.outLen.toNat ≤ s.outCap ∧
      c.chunk s ∣ s.outLen.toNat - s.opos.toNat := by
  cases c <;> simp [State.cursorOk, hp, phase, chunk]

theorem StreamCommand.turn_outOk (c : StreamCommand) {s : State} (hp : s.phase = c.phase) (hs : s.outOk) :
    s.turn.outOk := by
  obtain ⟨hbelow, hcursor⟩ := hs
  obtain ⟨hle, hcap, hdvd⟩ := (c.cursorOk_iff hp).mp hcursor
  have hlt := s.outCap_lt
  rcases c.turn_cases hp with ⟨-, h⟩ | ⟨-, ⟨n, hfit, ⟨w, -, hcopy⟩, -⟩ | ⟨n, u, f, -, -, h⟩⟩
  · exact h ▸ State.outOk_complete hbelow
  · obtain ⟨hn, hroom⟩ := hfit hle hdvd
    have hopos : s.turn.opos.toNat = s.opos.toNat + n := hcopy.opos_toNat (by show s.opos.toNat + n < 2 ^ 32; omega)
    have houtLen : s.turn.outLen = s.outLen := hcopy.outLen
    have houtCap : s.turn.outCap = s.outCap := by rw [hcopy.frame]; rfl
    have hchunk : c.chunk s.turn = c.chunk s := by cases c <;> simp [chunk, hcopy.channels]
    refine ⟨houtCap ▸ hcopy.below hbelow (hroom.trans hcap) hlt, (c.cursorOk_iff (hcopy.phase.trans hp)).mpr ?_⟩
    rw [hopos, houtLen, houtCap, hchunk, Nat.sub_add_eq]
    exact ⟨hroom, hcap, Nat.dvd_sub hdvd hn⟩
  · rw [h]
    exact u.outOk_raise f (by cases c <;> nofun)

/-- The rows before `y` and the row `y` make the rows before `y + 1`, and all rows the whole output. -/
theorem State.row_bytes (s : State) {y : Nat} (hy : y < s.height.toNat) : y * s.stride + s.stride ≤ s.total := by
  calc y * s.stride + s.stride = (y + 1) * s.stride := (Nat.succ_mul y s.stride).symm
    _ ≤ s.height.toNat * s.stride := Nat.mul_le_mul_right _ hy
    _ = s.total := by unfold State.stride State.total; ring

theorem DeltaCommand.command_ne_bget (c : DeltaCommand) : c.command ≠ .bget := by
  cases c <;> nofun

theorem turn_outOk {s : State} (hp : s.phase ≠ .host) (hs : s.outOk) : s.turn.outOk := by
  obtain ⟨hbelow, hcursor⟩ := hs
  cases hphase : s.phase with
  | host => exact absurd hphase hp
  | lzd => exact StreamCommand.lzd.turn_outOk hphase ⟨hbelow, hcursor⟩
  | rld => exact StreamCommand.rld.turn_outOk hphase ⟨hbelow, hcursor⟩
  | dbkHeader =>
    simp only [State.cursorOk, hphase] at hcursor
    rcases turn_dbkHeader hphase with ⟨q, e, f, h⟩ | ⟨p, m, d, h⟩ <;> rw [h]
    · exact State.outOk_raise _ f nofun
    · exact ⟨hbelow, hcursor⟩
  | body c =>
    simp only [State.cursorOk, hphase] at hcursor
    obtain ⟨hopos, hlen, htotal⟩ := hcursor
    rcases turn_body hphase with h | ⟨-, h⟩ <;> rw [h]
    · exact s.outOk_raise _ c.command_ne_bget
    · exact ⟨hbelow, Nat.zero_le _, hopos.trans (Nat.zero_mul _).symm, hlen, htotal⟩
  | rows c =>
    simp only [State.cursorOk, hphase] at hcursor
    obtain ⟨-, hopos, hlen, htotal⟩ := hcursor
    rcases turn_rows hphase with ⟨hrow, t, hcopy, -, h⟩ | ⟨b, h⟩ | h <;> rw [h]
    · have hbytes := s.row_bytes hrow
      have hlt := s.outCap_lt
      have ht : t.opos.toNat = (s.row + 1) * s.stride := by
        rw [hcopy.opos_toNat (by omega), hopos, Nat.succ_mul]
      have hin : t.outBuf.below s.outCap := hcopy.below hbelow (by omega) hlt
      rw [hcopy.frame] at ht ⊢
      refine ⟨hin, ?_⟩
      simp only [State.cursorOk, hphase]
      exact ⟨hrow, ht, hlen, htotal⟩
    · exact s.outOk_raise _ c.command_ne_bget
    · exact State.outOk_complete hbelow

/-! ### The commands -/

theorem runCommand_outOk {k : Nat} {s t : State} (hs : s.outOk) (h : runCommand k s = .next t) : t.outOk :=
  runToEnd_keeps (fun _ hp hu => turn_outOk hp hu) k s t hs (runCommand_eq_next.mp h)

/-- A declared size within the capacity is no larger than its register. -/
theorem declared_toNat {s : State} {n : Nat} (h : n ≤ s.outCap) : (BitVec.ofNat 32 n).toNat = n := by
  have := s.outCap_lt
  rw [BitVec.toNat_ofNat, Nat.mod_eq_of_lt (by omega)]

theorem State.cupTotal_eq (s : State) : s.height.toNat * (s.width.toNat * 3) = s.cupTotal := by
  unfold State.cupTotal
  ring

theorem State.outOk_cup {s : State} (h : s.cupTotal ≤ s.outCap) : s.cup.outOk := by
  rcases cup_cases s with hshort | ⟨u, p, hcopy, hu⟩
  · rw [hshort]
    exact State.outOk_raise _ _ nofun
  · have hzeros : s.cupStart.outBuf.below s.outCap := Mem.below_zeros ((declared_toNat h).trans_le h)
    have hroom : s.cupStart.opos.toNat + s.height.toNat * (s.width.toNat * 3) ≤ s.outCap := by
      rw [s.cupTotal_eq]
      exact (Nat.zero_add _).trans_le h
    have hbelow : u.outBuf.below s.outCap := hcopy.below hzeros hroom s.outCap_lt
    have hcap : u.outCap = s.outCap := by rw [hcopy.frame]; rfl
    rw [hu]
    exact State.outOk_complete (hcap ▸ hbelow)

/-- A started delta command has the cursor's invariant of its first phase. -/
theorem State.outOk_startDelta {s : State} (h : s.total ≤ s.outCap) {p : Phase}
    (hp : p = .dbkHeader ∨ ∃ c, p = .body c) :
    (s.startDecode (BitVec.ofNat 32 s.total) p).outOk := by
  have hlen := declared_toNat h
  refine ⟨Mem.below_zeros (hlen.trans_le h), ?_⟩
  rcases hp with rfl | ⟨c, rfl⟩ <;> exact ⟨rfl, hlen, h⟩

theorem State.outOk_lzdStart {s : State} (h : s.outLen.toNat ≤ s.outCap) : s.lzdStart.outOk :=
  ⟨Mem.below_zeros h, Nat.zero_le _, h⟩

/-- The declared size is whole chunks (R160). -/
theorem State.channels_dvd_total (s : State) : s.channels.toNat ∣ s.total := Nat.dvd_mul_left _ _

theorem State.outOk_rldStart {s : State} (h : s.total ≤ s.outCap) : s.rldStart.outOk := by
  have hlen : s.rldStart.outLen.toNat = s.total := declared_toNat h
  have hdvd : s.channels.toNat ∣ s.rldStart.outLen.toNat - 0 := hlen ▸ s.channels_dvd_total
  exact ⟨Mem.below_zeros (hlen.trans_le h),
    (StreamCommand.rld.cursorOk_iff rfl).mpr ⟨Nat.zero_le _, hlen.trans_le h, hdvd⟩⟩

theorem State.outOk_of_host {s : State} (hp : s.phase = .host) (hs : s.outBuf.below s.outCap) : s.outOk :=
  ⟨hs, by simp [State.cursorOk, hp]⟩

theorem State.outOk_bget {s : State} (hp : s.phase = .host) (hs : s.outBuf.below s.outCap) (n : Nat) :
    (s.bget n).outOk := by
  simp only [State.bget]
  split
  · exact State.outOk_of_host rfl hs
  · exact State.outOk_of_host hp hs

/-- Between commands every command leaves `OUT` inside its capacity: its pre-start checks see to the size (R216). -/
theorem exec_outOk {i : Instr} {s t : State} (hi : itemContext i = .command) (hp : s.phase = .host)
    (hs : s.outBuf.below s.outCap) (h : exec i s = .next t) : t.outOk := by
  have hrefuse : s.refuse.outOk := State.outOk_of_host hp hs
  cases i <;> simp [itemContext] at hi
  case clr => cases h; exact State.outOk_of_host hp hs
  case bget n =>
    simp only [exec, execBget] at h
    split_ifs at h <;> cases h
    · exact hrefuse
    · exact hrefuse
    · exact State.outOk_bget hp hs n.toNat
  case lzd =>
    simp only [exec, execLzd] at h
    split_ifs at h with _ hcap
    · cases h; exact hrefuse
    · cases h; exact hrefuse
    · exact runCommand_outOk (State.outOk_lzdStart (Nat.le_of_not_lt hcap)) h
  case rld =>
    simp only [exec, execRld] at h
    split_ifs at h with _ hcap
    · cases h; exact hrefuse
    · cases h; exact hrefuse
    · exact runCommand_outOk (State.outOk_rldStart (Nat.le_of_not_lt hcap)) h
  case cup =>
    simp only [exec, execCup] at h
    split_ifs at h with _ _ hcap <;> cases h
    · exact hrefuse
    · exact hrefuse
    · exact hrefuse
    · exact State.outOk_cup (Nat.le_of_not_lt hcap)
  case dlf | dbk =>
    simp only [exec, execDlf, execDbk] at h
    split_ifs at h with _ hcap
    · cases h; exact hrefuse
    · cases h; exact hrefuse
    · exact runCommand_outOk (State.outOk_startDelta (Nat.le_of_not_lt hcap) (by simp)) h

/-! ### The step -/

theorem HostEffect.outOk {s t : State} (h : HostEffect s t) (hp : s.phase = .host)
    (hs : s.outBuf.below s.outCap) : t.outOk := by
  cases h with
  | quiet h =>
    simp only [State.quiet, Prod.mk.injEq] at h
    obtain ⟨-, -, -, hphase, -, hout, hcap⟩ := h
    refine State.outOk_of_host (hphase.trans hp) ?_
    rwa [hout, State.outCap, hcap]
  | reset => exact State.outOk_of_host rfl (Mem.below_nil _)
  | illegal => exact State.outOk_of_host hp hs
  | command hi h => exact exec_outOk hi hp hs h

/-- Settles O55: `IN` and `SEL` by the storage invariant, `OUT` by the host's actions and the turns. -/
theorem stepKeepsWithinCapacities : Obligations.StepKeepsWithinCapacities := by
  rintro s t ⟨hin, hsel, hout, hcursor⟩ h
  obtain ⟨hin', hsel'⟩ := storageInvariant_inputsBelow.step ⟨hin, hsel⟩ h
  have hout' : t.outOk := by
    by_cases hp : s.phase = .host
    · obtain ⟨rest, heffect⟩ := step_host_effect hp h
      exact heffect.outOk hp hout
    · rw [step_turn hp] at h
      cases h
      exact turn_outOk hp ⟨hout, hcursor⟩
  exact ⟨hin', hsel', hout'⟩

end Sys2Proof.Machine
end

