-- ==== Sys2Proof/Proofs/Ending.lean ====
section
/-!
PROOFS. Every command ends: each turn of a stream command reads at least one byte (R153, R165), and the delta commands
run through their parts and rows (R249). From it, that every step ends, and how `LZD` and `RLD` end.
-/
namespace Sys2Proof.Machine

/-! ### Fuel -/

/-- A stream command's loop ends within as many turns as bytes are left, and one. -/
theorem StreamCommand.run_ends (c : StreamCommand) {k : Nat} {s : State} (hp : s.phase = c.phase) (hk : s.avail < k) :
    ∃ t, runToEnd k s = some t := by
  refine runToEnd_ends (P := fun u => u.phase = c.phase) (μ := State.avail) ?_ k s hp hk
  intro u _ hu
  rcases c.turn_cases hu with ⟨-, h⟩ | ⟨-, ⟨n, -, ⟨w, -, hcopy⟩, hpos⟩ | ⟨n, v, f, -, -, h⟩⟩
  · exact .inl (by rw [h, State.complete_phase])
  · have hlen : u.turn.inLen = u.inLen := hcopy.inLen
    have hin : u.turn.ipos.toNat ≤ u.inLen.toNat := by
      rcases hcopy.ipos_in with he | hle
      · rw [he] at hpos
        exact absurd hpos (Nat.lt_irrefl _)
      · exact hle
    refine .inr ⟨hcopy.phase.trans hu, ?_⟩
    rw [State.avail, State.avail, hlen]
    omega
  · exact .inl (by rw [h, State.raise_phase])

/-- No stream command is running: if any, a delta command is. -/
def State.inDelta (s : State) : Prop := s.phase ≠ .lzd ∧ s.phase ≠ .rld

/-- The turns a delta command has left at most, one less (R249). -/
def State.deltaLeft (s : State) : Nat :=
  match s.phase with
  | .dbkHeader => s.height.toNat + 2
  | .body _ => s.height.toNat + 1
  | .rows _ => s.height.toNat - s.row
  | _ => 0

theorem delta_run_ends {k : Nat} {s : State} (hs : s.inDelta) (hk : s.deltaLeft < k) : ∃ t, runToEnd k s = some t := by
  refine runToEnd_ends (P := State.inDelta) (μ := State.deltaLeft) ?_ k s hs hk
  rintro u hu ⟨hlzd, hrld⟩
  cases hphase : u.phase with
  | host => exact absurd hphase hu
  | lzd => exact absurd hphase hlzd
  | rld => exact absurd hphase hrld
  | dbkHeader =>
    rcases turn_dbkHeader hphase with ⟨q, e, f, h⟩ | ⟨p, m, d, h⟩ <;> rw [h]
    · exact .inl (State.raise_phase _ _ _)
    · exact .inr ⟨⟨nofun, nofun⟩, by simp [State.deltaLeft, hphase]⟩
  | body c =>
    rcases turn_body hphase with h | ⟨-, h⟩ <;> rw [h]
    · exact .inl (u.raise_phase _ _)
    · exact .inr ⟨⟨nofun, nofun⟩, by simp [State.deltaLeft, hphase]⟩
  | rows c =>
    rcases turn_rows hphase with ⟨hrow, t, hcopy, -, h⟩ | ⟨b, h⟩ | h <;> rw [h]
    · rw [hcopy.frame]
      refine .inr ⟨⟨hlzd, hrld⟩, ?_⟩
      simp only [State.deltaLeft, hphase]
      omega
    · exact .inl (u.raise_phase _ _)
    · exact .inl rfl

/-! ### Every command and every step ends -/

theorem State.avail_lt_streamFuel (s : State) : s.avail < s.streamFuel := by
  unfold State.avail State.streamFuel
  omega

theorem runToEnd_lzdStart (s : State) : ∃ t, runToEnd s.streamFuel s.lzdStart = some t :=
  StreamCommand.lzd.run_ends rfl s.avail_lt_streamFuel

theorem runToEnd_rldStart (s : State) : ∃ t, runToEnd s.streamFuel s.rldStart = some t :=
  StreamCommand.rld.run_ends rfl s.avail_lt_streamFuel

theorem runToEnd_dlfStart (s : State) : ∃ t, runToEnd s.deltaFuel s.dlfStart = some t :=
  delta_run_ends ⟨nofun, nofun⟩ (Nat.add_lt_add_left (by decide : 1 < 3) s.height.toNat)

theorem runToEnd_dbkStart (s : State) : ∃ t, runToEnd s.deltaFuel s.dbkStart = some t :=
  delta_run_ends ⟨nofun, nofun⟩ (Nat.add_lt_add_left (by decide : 2 < 3) s.height.toNat)

/-- Every instruction answers next: a stream item at once, a command within its fuel. -/
theorem exec_next (i : Instr) (s : State) : ∃ t, exec i s = .next t := by
  have refuseIf {c : Prop} [Decidable c] {o : Host.Outcome State Fault Refusal} (ho : ∃ t, o = .next t) :
      ∃ t, (if c then .next s.refuse else o) = .next t := by
    split
    · exact ⟨_, rfl⟩
    · exact ho
  have run {k : Nat} {u : State} (h : ∃ t, runToEnd k u = some t) : ∃ t, runCommand k u = .next t :=
    h.imp fun _ ht => runCommand_eq_next.mpr ht
  cases i with
  | clr => exact ⟨_, rfl⟩
  | bget => exact refuseIf (refuseIf ⟨_, rfl⟩)
  | cup => exact refuseIf (refuseIf (refuseIf ⟨_, rfl⟩))
  | lzd => exact refuseIf (refuseIf (run (runToEnd_lzdStart s)))
  | rld => exact refuseIf (refuseIf (run (runToEnd_rldStart s)))
  | dlf => exact refuseIf (refuseIf (run (runToEnd_dlfStart s)))
  | dbk => exact refuseIf (refuseIf (run (runToEnd_dbkStart s)))
  | _ => exact ⟨_, exec_item rfl s⟩

theorem writeCommand_next (c : Half) (s : State) : ∃ t, writeCommand c s = .next t := by
  unfold writeCommand
  split
  · exact exec_next _ s
  · exact ⟨_, rfl⟩

/-- The host actions that read where no byte is (R36, R73). -/
def HostAction.readsNoByte (s : State) : HostAction → Prop
  | .readIn a => s.inCap ≤ a
  | .readSel a => constants.selCap ≤ a
  | _ => False

/-- A host action answers next unless it reads where no byte is; then it is the fault. -/
theorem perform_next_or_fault (a : HostAction) (s : State) :
    (¬ a.readsNoByte s ∧ ∃ t, perform a s = .next t) ∨ (a.readsNoByte s ∧ perform a s = .fault .noSuchByte) := by
  cases a with
  | readReg | writeIn | writeSel | reset => exact .inl ⟨id, _, rfl⟩
  | writeReg i v =>
    refine .inl ⟨id, ?_⟩
    simp only [perform]
    split
    · exact writeCommand_next _ s
    · exact ⟨_, rfl⟩
  | readIn a =>
    by_cases ha : a < s.inCap
    · exact .inl ⟨Nat.not_le_of_lt ha, _, if_pos ha⟩
    · exact .inr ⟨Nat.le_of_not_lt ha, if_neg ha⟩
  | readSel a =>
    by_cases ha : a < constants.selCap
    · exact .inl ⟨Nat.not_le_of_lt ha, _, if_pos ha⟩
    · exact .inr ⟨Nat.le_of_not_lt ha, if_neg ha⟩
  | readOut a =>
    refine .inl ⟨id, ?_⟩
    simp only [perform, hostReadOut]
    split <;> exact ⟨_, rfl⟩

/-- Between commands a step performs the first pending host action. -/
theorem step_pending {s : State} {a : HostAction} {rest : List HostAction} (hp : s.phase = .host)
    (h : s.pending = a :: rest) : step s = perform a { s with pending := rest } := by
  rw [step_host hp, hostTurn, h]

/-- Between commands with nothing pending the block waits (R235). -/
theorem step_waiting {s : State} (hp : s.phase = .host) (h : s.pending = []) : step s = .next s := by
  rw [step_host hp, hostTurn, h]

/-- Settles O60: inside a command a step is a turn, between commands the host's action decides. -/
theorem everyStepEnds : Obligations.EveryStepEnds := by
  intro s noByte
  refine ⟨fun h => ?_, ?_, step_waiting⟩
  · by_cases hp : s.phase = .host
    · cases hpend : s.pending with
      | nil => exact ⟨s, step_waiting hp hpend⟩
      | cons a rest =>
        rw [step_pending hp hpend]
        rcases perform_next_or_fault a { s with pending := rest } with ⟨-, hnext⟩ | ⟨hread, -⟩
        · exact hnext
        · refine absurd ⟨hp, ?_⟩ h
          cases a <;> simp only [HostAction.readsNoByte] at hread
          case readIn a => exact ⟨a, rest, .inl ⟨hpend, hread⟩⟩
          case readSel a => exact ⟨a, rest, .inr ⟨hpend, hread⟩⟩
    · exact ⟨_, step_turn hp⟩
  · rintro ⟨hp, a, rest, ⟨hpend, ha⟩ | ⟨hpend, ha⟩⟩ <;> rw [step_pending hp hpend]
    · exact if_neg (Nat.not_lt_of_le ha)
    · exact if_neg (Nat.not_lt_of_le ha)

/-! ### How the stream commands end -/

namespace StreamCommand

/-- The running command: the bytes appended so far keep to the output, and whole chunks are still to come. -/
def Running (c : StreamCommand) (s t : State) : Prop :=
  ∃ n, c.Ran n s t ∧ s.opos.toNat + n ≤ s.outLen.toNat ∧ c.chunk s ∣ s.outLen.toNat - (s.opos.toNat + n)

/-- The ended command: it has filled the output exactly and completed, or it has raised one of its failures. -/
def Result (c : StreamCommand) (s t : State) : Prop :=
  ∃ n u, c.Ran n s u ∧
    ((s.opos.toNat + n = s.outLen.toNat ∧ t = u.complete) ∨ ∃ f ∈ c.failures, t = u.raise c.command f)

theorem Ran.refl (c : StreamCommand) (s : State) : c.Ran 0 s s :=
  ⟨s.ctl, by cases c <;> trivial, .refl s⟩

theorem run_result (c : StreamCommand) {k : Nat} {s t : State} (hp : s.phase = c.phase)
    (hle : s.opos.toNat ≤ s.outLen.toNat) (hdvd : c.chunk s ∣ s.outLen.toNat - s.opos.toNat)
    (h : runToEnd k s = some t) : c.Result s t := by
  have hhost : s.phase ≠ .host := by
    rw [hp]
    cases c <;> nofun
  refine runToEnd_ends_in (R := c.Running s) ?_ hhost ⟨0, .refl c s, hle, hdvd⟩ h
  rintro v hv ⟨n, hran, hroom, hrest⟩
  obtain ⟨w, -, hcopy⟩ := id hran
  have hopos : v.opos.toNat = s.opos.toNat + n := hcopy.opos_toNat (by show s.opos.toNat + n < 2 ^ 32; omega)
  have hlen : v.outLen = s.outLen := hcopy.outLen
  have hchunk : c.chunk v = c.chunk s := by cases c <;> simp [chunk, hcopy.channels]
  rcases c.turn_cases (hcopy.phase.trans hp) with ⟨hfull, hend⟩ | ⟨-, ⟨m, hfit, hm, -⟩ | ⟨m, u, f, hf, hm, hend⟩⟩
  · rw [hend]
    rw [hopos, hlen] at hfull
    exact .inr ⟨rfl, n, v, hran, .inl ⟨by omega, rfl⟩⟩
  · obtain ⟨x, -, hcopy'⟩ := id hm
    have hgoes : v.turn.phase ≠ .host := by
      rw [hcopy'.phase]
      exact hv
    rw [State.fits, hopos, hlen, hchunk] at hfit
    obtain ⟨hdm, hroom'⟩ := hfit hroom hrest
    refine .inl ⟨hgoes, n + m, hran.trans hm, by omega, ?_⟩
    rw [← Nat.add_assoc, Nat.sub_add_eq]
    exact Nat.dvd_sub hrest hdm
  · rw [hend]
    exact .inr ⟨u.raise_phase _ _, n + m, u, hran.trans hm, .inr ⟨f, hf, rfl⟩⟩

end StreamCommand

end Sys2Proof.Machine
end

