-- ==== Sys2Proof/Proofs/StreamEnds.lean ====
section
/-!
PROOFS. `LZD` and `RLD` within capacity end with the output exactly full or fail with one of their kinds, and write
nothing but what R24 lists.
-/
namespace Sys2Proof.Machine

/-- A zero-filled output, filled exactly, holds the bytes below its size and no other. -/
theorem Copied.held_full {n : Nat} {s u : State} (h : Copied n s u) (hzero : s.outBuf = Mem.zeros s.outLen.toNat)
    (hfull : s.opos.toNat + n = s.outLen.toNat) (a : Nat) : (u.outBuf.read a).isSome ↔ a < s.outLen.toNat := by
  rw [h.held (by omega), hzero, Mem.read_zeros]
  split_ifs <;> simp <;> omega

/-- The cursor of an exactly filled output stands at its size. -/
theorem Copied.opos_full {n : Nat} {s u : State} (h : Copied n s u) (hfull : s.opos.toNat + n = s.outLen.toNat) :
    u.opos = s.outLen :=
  BitVec.eq_of_toNat_eq ((h.opos_toNat (by omega)).trans hfull)

/-- Settles O28: the run's result with the started `LZD` put in. -/
theorem lzdEndsFullOrFails : Obligations.LzdEndsFullOrFails := by
  intro s hin hcap
  obtain ⟨t, ht⟩ := runToEnd_lzdStart s
  have hexec : exec .lzd s = .next t := by
    simp only [exec, execLzd, if_neg (Nat.not_lt.mpr hin), if_neg (Nat.not_lt.mpr hcap)]
    exact runCommand_eq_next.mpr ht
  refine ⟨t, hexec, ?_⟩
  obtain ⟨n, u, ⟨w, -, hcopy⟩, ⟨hfull, rfl⟩ | ⟨f, hf, rfl⟩⟩ :=
    StreamCommand.lzd.run_result (s := s.lzdStart) rfl (Nat.zero_le _) (Nat.one_dvd _) ht
  · refine .inl ⟨?_, hcopy.ipos_le, hcopy.ipos_le_inLen, hcopy.held_full rfl hfull⟩
    have hopos : u.opos = s.outLen := hcopy.opos_full hfull
    have hframe := hcopy.frame
    rw [← hcopy.opos, hopos] at hframe
    rw [hframe]
    rfl
  · refine .inr ⟨?_, ?_⟩
    · have hfail : failedAfterStart .lzd f s (u.raise .lzd f) := by
        rw [hcopy.frame]
        simp [failedAfterStart, State.raise, State.forget, State.lzdStart]
      simp only [StreamCommand.failures, List.mem_cons, List.not_mem_nil, or_false] at hf
      rcases hf with rfl | rfl
      · exact .inl hfail
      · exact .inr hfail
    · rw [State.raise_outv, hcopy.frame]
      rfl

/-- Settles O33: the run's result with the started `RLD` put in. -/
theorem rldEndsFullOrFails : Obligations.RldEndsFullOrFails := by
  intro s hin hcap
  obtain ⟨t, ht⟩ := runToEnd_rldStart s
  have hexec : exec .rld s = .next t := by
    simp only [exec, execRld, if_neg (Nat.not_lt.mpr hin), if_neg (Nat.not_lt.mpr hcap)]
    exact runCommand_eq_next.mpr ht
  have hlen : s.rldStart.outLen.toNat = s.total := declared_toNat hcap
  refine ⟨t, hexec, ?_⟩
  obtain ⟨n, u, ⟨w, hw, hcopy⟩, ⟨hfull, rfl⟩ | ⟨f, hf, rfl⟩⟩ :=
    StreamCommand.rld.run_result (s := s.rldStart) rfl (Nat.zero_le _) (hlen ▸ s.channels_dvd_total) ht
  · have hopos : u.opos = s.rldStart.outLen := hcopy.opos_full hfull
    have hulen : u.outLen = s.rldStart.outLen := hcopy.outLen
    refine .inl ⟨?_, hulen ▸ hlen, hcopy.ipos_le, hcopy.ipos_le_inLen, hlen ▸ hcopy.held_full rfl hfull⟩
    have hframe := hcopy.frame
    rw [← hcopy.opos, hopos, hw] at hframe
    rw [hframe]
    rfl
  · simp only [StreamCommand.failures, List.mem_singleton] at hf
    subst hf hw
    rw [hcopy.frame]
    exact .inr ⟨by simp [failedAfterStart, State.raise, State.forget, State.rldStart, StreamCommand.command], rfl⟩

end Sys2Proof.Machine
end

