-- ==== Sys2Proof/Proofs/BitCursor.lean ====
section
/-!
PROOFS. `BGET`: the value of the next bits, bit by bit (R131), and the failures that consume nothing (R132).
-/
namespace Sys2Proof.Machine

/-- `n` bits make a number below `2 ^ n`. -/
theorem State.bitsValue_lt (s : State) (p : Nat) : ∀ n, s.bitsValue p n < 2 ^ n
  | 0 => Nat.one_pos
  | n + 1 => by
    have ih := s.bitsValue_lt p n
    have hbit := Bool.toNat_lt (s.bitAt (p + n))
    rw [State.bitsValue, Nat.pow_succ]
    omega

/-- Counted from the top, the bits of the value are the bits of the stream in their order (R131, D8). -/
theorem State.testBit_bitsValue (s : State) (p : Nat) :
    ∀ n i, i < n → (s.bitsValue p n).testBit (n - 1 - i) = s.bitAt (p + i)
  | n + 1, i, hi => by
    rw [State.bitsValue]
    rcases Nat.lt_succ_iff_lt_or_eq.mp hi with hlt | rfl
    · have hidx : n + 1 - 1 - i = (n - 1 - i) + 1 := by omega
      rw [hidx, Nat.testBit_succ, Nat.mul_add_div (by decide), Nat.div_eq_of_lt (Bool.toNat_lt _), Nat.add_zero]
      exact s.testBit_bitsValue p n i hlt
    · cases hb : s.bitAt (p + i) <;> simp [Nat.testBit_zero]

/-- Where the same bits stand, the value is the same. -/
theorem State.bitsValue_congr {s t : State} {p : Nat} :
    ∀ {n}, (∀ i, i < n → t.bitAt (p + i) = s.bitAt (p + i)) → t.bitsValue p n = s.bitsValue p n
  | 0, _ => rfl
  | n + 1, h => by
    have ih : t.bitsValue p n = s.bitsValue p n := State.bitsValue_congr fun i hi => h i (by omega)
    rw [State.bitsValue, State.bitsValue, ih, h n (Nat.lt_succ_self n)]

/-- `BGET` with enough bits left (R131). -/
theorem State.bget_of_le {s : State} {n : Nat} (h : n ≤ s.bitsLeft) :
    s.bget n = { s with
      err := none, errInfo := 0#32, bres := BitVec.ofNat 32 (s.bitsValue s.bpos.toNat n),
      bpos := s.bpos + BitVec.ofNat 32 n, st := .done } := by
  have hvalue : State.bitsValue { s with err := none, errInfo := 0#32 } s.bpos.toNat n = s.bitsValue s.bpos.toNat n :=
    State.bitsValue_congr fun _ _ => rfl
  rw [← hvalue]
  exact if_neg (Nat.not_lt.mpr h)

/-- `BGET` with too few bits left (R132). -/
theorem State.bget_of_lt {s : State} {n : Nat} (h : s.bitsLeft < n) :
    s.bget n = { s with err := none, errInfo := 0#32 }.raise .bget .outOfData :=
  if_pos h

/-- `BGET` past its pre-start checks (R216). -/
theorem exec_bget {n : BitVec 6} {s : State} (hn : n.toNat ≤ 32) (hin : s.inLen.toNat ≤ s.inCap) :
    exec (.bget n) s = .next (s.bget n.toNat) := by
  have hmax : ¬ constants.bgetMax < n.toNat := Nat.not_lt.mpr hn
  rw [exec, execBget, if_neg hmax, if_neg (Nat.not_lt.mpr hin)]

/-- The bits left end inside a stream whose bit size the cursor can hold (R9). -/
theorem bpos_add_toNat {n : Nat} {s : State} (hin : s.inLen.toNat ≤ s.inCap) (hleft : n ≤ s.bitsLeft) :
    (s.bpos + BitVec.ofNat 32 n).toNat = s.bpos.toNat + n := by
  have hcap := s.inCapPred.isLt
  have hbpos := s.bpos.isLt
  unfold State.inCap at hin
  unfold State.bitsLeft at hleft
  rw [opos_add_toNat (by omega)]

/-- Settles O17: the value of the next bits, read as a register. -/
theorem bgetReadsNextBits : Obligations.BgetReadsNextBits := by
  intro n s hn hin hleft
  have hlt := s.bitsValue_lt s.bpos.toNat n.toNat
  have hpow : 2 ^ n.toNat ≤ 2 ^ 32 := Nat.pow_le_pow_right (by decide) hn
  have hval : (BitVec.ofNat 32 (s.bitsValue s.bpos.toNat n.toNat)).toNat = s.bitsValue s.bpos.toNat n.toNat := by
    rw [BitVec.toNat_ofNat, Nat.mod_eq_of_lt (hlt.trans_le hpow)]
  refine ⟨BitVec.ofNat 32 (s.bitsValue s.bpos.toNat n.toNat), ?_, bpos_add_toNat hin hleft, hval.trans_lt hlt, ?_⟩
  · rw [exec_bget hn hin, State.bget_of_le hleft]
  · intro i hi
    rw [BitVec.getLsbD, hval]
    exact s.testBit_bitsValue _ _ i hi

/-- Settles O18: too few bits raise, a bad count or stream is refused, and neither writes the cursor. -/
theorem bgetFailsConsumingNothing : Obligations.BgetFailsConsumingNothing := by
  intro n s
  refine ⟨fun hn hin hleft => ?_, fun h => ?_⟩
  · rw [exec_bget hn hin, State.bget_of_lt hleft]
    rfl
  · simp only [exec, execBget]
    split_ifs with hmax hcap
    · rfl
    · rfl
    · exact absurd h (not_or.mpr ⟨hmax, hcap⟩)

end Sys2Proof.Machine
end

