-- ==== Sys2Proof/Proofs/Registers.lean ====
section
/-!
PROOFS. The registers by number (R22, R23): what a read returns, what a write leaves, what reset leaves; and the write
of `CMD` (R35).
-/
namespace Sys2Proof.Machine

/-! ### Numbers and registers -/

/-- The number of a register (R22). -/
def Csr.number (r : Csr) : Nat := csrTable.idxOf r

theorem csrOf_number (r : Csr) : csrOf r.number = some r := by
  cases r <;> rfl

theorem number_of_csrOf {i : Nat} {r : Csr} (h : csrOf i = some r) : i = r.number := by
  have hlt : i < csrTable.length := (List.getElem?_eq_some_iff.mp h).1
  have hnodup : csrTable.Nodup := by decide
  exact (List.getElem?_inj hlt hnodup).mp (h.trans (csrOf_number r).symm)

/-- A number names a register, or lies above 0xF (R22, R23). -/
theorem number_or_above (i : Nat) : (∃ r : Csr, i = r.number) ∨ (0xF < i ∧ csrOf i = none) := by
  cases h : csrOf i with
  | some r => exact .inl ⟨r, number_of_csrOf h⟩
  | none => exact .inr ⟨List.getElem?_eq_none_iff.mp h, rfl⟩

theorem Csr.number_inj {r q : Csr} : r.number = q.number ↔ r = q :=
  ⟨fun h => Option.some_inj.mp (((csrOf_number r).symm.trans (congrArg csrOf h)).trans (csrOf_number q)),
    congrArg _⟩

@[simp] theorem State.readReg_number (s : State) (r : Csr) : s.readReg r.number = s.readCsr r := by
  rw [State.readReg, csrOf_number]

theorem State.readReg_above (s : State) {i : Nat} (h : csrOf i = none) : s.readReg i = 0#32 := by
  rw [State.readReg, h]

/-- A read is zero-extended from the register's width (R22). -/
theorem State.readCsr_lt (s : State) (r : Csr) : (s.readCsr r).toNat < 2 ^ csrWidth r.number := by
  have hwide (w : Word) : w.toNat < 2 ^ 32 := w.isLt
  have hzext {n : Nat} (hn : n ≤ 32) (b : BitVec n) : (b.setWidth 32).toNat < 2 ^ n := by
    rw [BitVec.toNat_setWidth_of_le hn]
    exact b.isLt
  cases r with
  | cmd => exact Nat.two_pow_pos _
  | errInfo | inLen | ipos | bpos | bres | outLen | opos => exact hwide _
  | status | err | width | height | channels | selLen | depth | ctl => exact hzext (by decide) _

theorem State.readReg_lt (s : State) (i : Nat) : (s.readReg i).toNat < 2 ^ csrWidth i := by
  rcases number_or_above i with ⟨r, rfl⟩ | ⟨-, hnone⟩
  · rw [s.readReg_number]
    exact s.readCsr_lt r
  · rw [s.readReg_above hnone]
    exact Nat.two_pow_pos _

/-! ### Writes -/

/-- A write changes no other register. -/
theorem State.readCsr_writeCsr_of_ne (s : State) (v : Word) {r q : Csr} (h : q ≠ r) :
    (s.writeCsr v r).readCsr q = s.readCsr q := by
  cases r with
  | cmd | status | err | errInfo | bres | opos | depth | ctl => rfl
  | inLen | ipos | bpos | outLen | width | height | channels | selLen =>
    cases q <;> first | rfl | exact absurd rfl h

/-- A writable register reads back the low bits written (R22, R197). -/
theorem State.readCsr_writeCsr_self (s : State) (v : Word) {r : Csr} (h : csrWritable r.number) :
    ((s.writeCsr v r).readCsr r).toNat = v.toNat % 2 ^ csrWidth r.number := by
  have hwide : v.toNat = v.toNat % 2 ^ 32 := (Nat.mod_eq_of_lt v.isLt).symm
  have hlow {n : Nat} (hn : n ≤ 32) : ((v.setWidth n).setWidth 32).toNat = v.toNat % 2 ^ n := by
    rw [BitVec.toNat_setWidth_of_le hn, BitVec.toNat_setWidth]
  cases r with
  | cmd | status | err | errInfo | bres | opos | depth | ctl => exact absurd h (by decide)
  | inLen | ipos | bpos | outLen => exact hwide
  | width | height | channels | selLen => exact hlow (by decide)

/-- A read-only register ignores a write (R23). -/
theorem State.writeCsr_readOnly (s : State) (v : Word) {r : Csr} (h : ¬ csrWritable r.number) : s.writeCsr v r = s := by
  cases r with
  | cmd | status | err | errInfo | bres | opos | depth | ctl => rfl
  | inLen | ipos | bpos | outLen | width | height | channels | selLen => exact absurd (by decide) h

/-- What a register reads after a write by number (R22, R23, R197). -/
theorem State.readReg_writeReg (s : State) (v : Word) (i j : Nat) :
    ((s.writeReg i v).readReg j).toNat =
      if j = i ∧ csrWritable i then v.toNat % 2 ^ csrWidth i else (s.readReg j).toNat := by
  rcases number_or_above i with ⟨r, rfl⟩ | ⟨hi, hnone⟩
  · rw [State.writeReg, csrOf_number]
    dsimp only
    by_cases hw : csrWritable r.number
    · rcases number_or_above j with ⟨q, rfl⟩ | ⟨hj, hnone⟩
      · rw [State.readReg_number, State.readReg_number]
        by_cases hq : q = r
        · rw [hq, if_pos ⟨rfl, hw⟩, s.readCsr_writeCsr_self v hw]
        · rw [if_neg fun h => hq (Csr.number_inj.mp h.1), s.readCsr_writeCsr_of_ne v hq]
      · have hne : j ≠ r.number := fun he => by simp [he, csrOf_number] at hnone
        rw [if_neg fun h => hne h.1, State.readReg_above _ hnone, State.readReg_above _ hnone]
    · rw [s.writeCsr_readOnly v hw, if_neg fun h => hw h.2]
  · have hro : ¬ csrWritable i := by
      simp [csrWritable]
      omega
    rw [State.writeReg, hnone, if_neg fun h => hro h.2]

/-- A register write leaves everything but the registers that are written (R24). -/
theorem State.writeCsr_frame (s : State) (v : Word) (r : Csr) :
    s.writeCsr v r = { s with
      inLen := (s.writeCsr v r).inLen, ipos := (s.writeCsr v r).ipos, bpos := (s.writeCsr v r).bpos,
      outLen := (s.writeCsr v r).outLen, width := (s.writeCsr v r).width, height := (s.writeCsr v r).height,
      channels := (s.writeCsr v r).channels, selLen := (s.writeCsr v r).selLen } := by
  cases r <;> rfl

/-- The same by number. -/
theorem State.writeReg_frame (s : State) (i : Nat) (v : Word) :
    s.writeReg i v = { s with
      inLen := (s.writeReg i v).inLen, ipos := (s.writeReg i v).ipos, bpos := (s.writeReg i v).bpos,
      outLen := (s.writeReg i v).outLen, width := (s.writeReg i v).width, height := (s.writeReg i v).height,
      channels := (s.writeReg i v).channels, selLen := (s.writeReg i v).selLen } := by
  rcases number_or_above i with ⟨r, rfl⟩ | ⟨-, hnone⟩
  · rw [State.writeReg, csrOf_number]
    exact s.writeCsr_frame v r
  · rw [State.writeReg, hnone]

/-- Settles O10: a read keeps its answer in `readData` alone, a write is the read-after-write rule. -/
theorem hostRegisterAccessHasNoSideEffect : Obligations.HostRegisterAccessHasNoSideEffect := by
  intro s rest hp
  refine ⟨fun i hpend => step_pending hp hpend, fun i v hi hpend => ?_⟩
  let u : State := { s with pending := rest }
  have hstep : step s = .next (u.writeReg i v) := by
    have hcmd : csrOf i ≠ some .cmd := fun h => hi (number_of_csrOf h)
    rw [step_pending hp hpend, perform, if_neg hcmd]
  exact ⟨_, hstep, u.readReg_writeReg v i, u.writeReg_frame i v⟩

/-! ### A write of CMD -/

/-- Settles O6: the action is performed, register 0 is `CMD`, and the word decodes. -/
theorem stepRunsWrittenCommand : Obligations.StepRunsWrittenCommand := by
  intro s v rest i hp hpend hdec
  have hcmd : csrOf 0x0 = some .cmd := rfl
  rw [step_pending hp hpend, perform, if_pos hcmd, writeCommand, hdec]

/-! ### Reset -/

/-- With the registers at their reset values every register number reads 0. -/
theorem State.readReg_of_cleared {s : State} (h : s = s.clearRegisters) (i : Nat) : s.readReg i = 0#32 := by
  rcases number_or_above i with ⟨r, rfl⟩ | ⟨-, hnone⟩
  · rw [s.readReg_number, h]
    cases r <;> simp [State.readCsr, State.statusWord, State.errCode, RunStatus.code]
  · exact s.readReg_above hnone

/-- Settles O14: both the state after reset and the reset event clear every register and every buffer. -/
theorem resetLeavesEmptyState : Obligations.ResetLeavesEmptyState := by
  refine ⟨State.readReg_of_cleared rfl, rfl, rfl, rfl, fun s rest hp hpend => ?_⟩
  exact ⟨_, step_pending hp hpend, State.readReg_of_cleared rfl, rfl, rfl, rfl, rfl, rfl, rfl⟩

/-! ### The registers one by one -/

/-- STATUS as a word: `OUTV` in bit 2, the code of `ST` below it (R31). -/
theorem State.status_word (s : State) :
    s.statusWord.setWidth 32 = (if s.outv then 4#32 else 0#32) + s.st.code.setWidth 32 := by
  cases hv : s.outv <;> cases hst : s.st <;> simp [State.statusWord, hv, hst, RunStatus.code]

/-- What is read after a raise: `ST` failed beside `OUTV`, the kind's code and the parameter (R212). -/
theorem State.readReg_raise (s : State) (c : Command) (f : Failure) :
    (s.raise c f).readReg 0x1 = (if s.outv then 4#32 else 0#32) + 2#32 ∧
    (s.raise c f).readReg 0x2 = f.kind.code.setWidth 32 ∧ (s.raise c f).readReg 0x3 = f.info := by
  refine ⟨?_, ?_, s.raise_errInfo c f⟩
  · show (s.raise c f).statusWord.setWidth 32 = _
    rw [State.status_word, s.raise_outv, s.raise_st]
    rfl
  · show (s.raise c f).errCode.setWidth 32 = _
    rw [State.errCode, s.raise_err]

/-- Settles O9: the table read off, with the codes of STATUS and ERR. -/
theorem registersByNumber : Obligations.RegistersByNumber := by
  intro s outv code latches
  have hlatch (f : Failure) : latches f f.kind (f.kind.code.setWidth 32) f.info :=
    ⟨rfl, rfl, fun c => s.readReg_raise c f⟩
  refine ⟨rfl, rfl, rfl, rfl, rfl, rfl, rfl, rfl, rfl, rfl, rfl, rfl, rfl, rfl, rfl, rfl, s.readReg_lt,
    fun i hi => s.readReg_above (List.getElem?_eq_none_iff.mpr hi), ?_, ?_, ?_, rfl, rfl, rfl, rfl, rfl, rfl,
    hlatch _, hlatch _, fun b => hlatch (.unknownDeltaFilter b), hlatch _, hlatch _⟩
  · exact (State.status_word _).trans (BitVec.add_zero _)
  · exact State.status_word _
  · exact State.status_word _

end Sys2Proof.Machine
end

