-- ==== Sys2Proof/Proofs/Unseen.lean ====
section
/-!
PROOFS. What a command does not see: the contents of `IN` at and beyond `IN_LEN` (R26, R70), and the outcome of the
command before it (R31, R217). Each operation of a running command commutes with a change of both; so does the run, and
with it every host command.
-/
namespace Sys2Proof.Machine

/-! ### The change -/

/-- A decode command is between its start and its end: the start clears `OUTV` and ERR (R71), the completion sets `OUTV`
and a raise sets ERR (R212). -/
def State.unfinished (s : State) : Bool := s.err.isNone && !s.outv

/-- The same state with other contents of `IN` and, inside a running command, another `ST`. -/
def State.vary (s : State) (a : RunStatus) (m : Mem) (k : Nat) : State :=
  { s with st := if s.unfinished then a else s.st, inBuf := m, inSeed := k }

/-- The other contents of `IN` agree with the state's below `IN_LEN`. -/
def State.Sees (s : State) (m : Mem) (k : Nat) : Prop :=
  ∀ x, x < s.inLen.toNat → (m.read x).getD (Config.freeIn k x) = s.inByte x

section Vary

variable (s : State) (a : RunStatus) (m : Mem) (k : Nat)

@[simp] theorem State.vary_inLen : (s.vary a m k).inLen = s.inLen := rfl
@[simp] theorem State.vary_ipos : (s.vary a m k).ipos = s.ipos := rfl
@[simp] theorem State.vary_outLen : (s.vary a m k).outLen = s.outLen := rfl
@[simp] theorem State.vary_opos : (s.vary a m k).opos = s.opos := rfl
@[simp] theorem State.vary_height : (s.vary a m k).height = s.height := rfl
@[simp] theorem State.vary_channels : (s.vary a m k).channels = s.channels := rfl
@[simp] theorem State.vary_selLen : (s.vary a m k).selLen = s.selLen := rfl
@[simp] theorem State.vary_phase : (s.vary a m k).phase = s.phase := rfl
@[simp] theorem State.vary_row : (s.vary a m k).row = s.row := rfl
@[simp] theorem State.vary_avail : (s.vary a m k).avail = s.avail := rfl
@[simp] theorem State.vary_total : (s.vary a m k).total = s.total := rfl
@[simp] theorem State.vary_stride : (s.vary a m k).stride = s.stride := rfl
@[simp] theorem State.vary_outByte (x : Nat) : (s.vary a m k).outByte x = s.outByte x := rfl
@[simp] theorem State.vary_selByte (x : Nat) : (s.vary a m k).selByte x = s.selByte x := rfl

@[simp] theorem State.vary_outPut (v : Byte) : (s.vary a m k).outPut v = (s.outPut v).vary a m k := rfl
@[simp] theorem State.vary_consume (n : Nat) : (s.vary a m k).consume n = (s.consume n).vary a m k := rfl

@[simp] theorem State.vary_complete : (s.vary a m k).complete = s.complete.vary a m k := by
  simp [State.vary, State.complete, State.unfinished]

@[simp] theorem State.vary_raise (c : Command) (f : Failure) :
    (s.vary a m k).raise c f = (s.raise c f).vary a m k := by
  cases c <;> simp [State.vary, State.raise, State.forget, State.unfinished]

variable {s a m k}

theorem State.inByte_vary (hs : s.Sees m k) {x : Nat} (hx : x < s.inLen.toNat) : (s.vary a m k).inByte x = s.inByte x :=
  hs x hx

/-- Once the command has ended, its outcome is its own. -/
theorem State.vary_of_ended (h : s.unfinished = false) : s.vary a m k = { s with inBuf := m, inSeed := k } := by
  simp [State.vary, h]

theorem State.inRead8_vary (hs : s.Sees m k) :
    (s.vary a m k).inRead8 = s.inRead8.map fun x => (x.1, x.2.vary a m k) := by
  by_cases hlt : s.ipos.toNat < s.inLen.toNat
  · simp [State.inRead8, hlt, State.inByte_vary hs hlt]
    rfl
  · simp [State.inRead8, hlt]

theorem Copied.sees {n : Nat} {t : State} (h : Copied n s t) (hs : s.Sees m k) : t.Sees m k := by
  rw [h.frame]
  exact hs

/-! ### The stream items -/

theorem lzLitLoop_vary : ∀ n {s : State}, s.Sees m k → lzLitLoop n (s.vary a m k) = (lzLitLoop n s).vary a m k
  | 0, _, _ => rfl
  | n + 1, s, hs => by
    simp only [lzLitLoop, State.vary_opos, State.vary_outLen, State.inRead8_vary hs]
    split
    · rfl
    · rcases hread : s.inRead8 with _ | ⟨b, t⟩
      · simp
      · have ht : t.Sees m k := (copied_inRead8 hread).sees hs
        exact lzLitLoop_vary n (s := t.outPut b) ht

theorem lzCopyLoop_vary : ∀ n src (s : State), lzCopyLoop n src (s.vary a m k) = (lzCopyLoop n src s).vary a m k
  | 0, _, _ => rfl
  | n + 1, src, s => by
    by_cases hfull : s.opos = s.outLen
    · simp [lzCopyLoop, hfull]
    · simpa [lzCopyLoop, hfull] using lzCopyLoop_vary n (src + 1) (s.outPut (s.outByte src))

theorem lzCopy_vary (s : State) (look count : Nat) :
    (s.vary a m k).lzCopy look count = (s.lzCopy look count).vary a m k := by
  simp only [State.lzCopy, State.vary_opos, State.vary_raise, lzCopyLoop_vary]
  split <;> rfl

theorem readChunk_vary : ∀ n {s : State}, s.Sees m k →
    readChunk n (s.vary a m k) = (readChunk n s).map fun x => (x.1, x.2.vary a m k)
  | 0, _, _ => rfl
  | n + 1, s, hs => by
    simp only [readChunk, State.inRead8_vary hs]
    rcases hread : s.inRead8 with _ | ⟨b, t⟩
    · rfl
    · simp only [Option.map_some, readChunk_vary n ((copied_inRead8 hread).sees hs)]
      cases readChunk n t <;> rfl

theorem putChunk_vary : ∀ bs (s : State), putChunk bs (s.vary a m k) = (putChunk bs s).vary a m k
  | [], _ => rfl
  | b :: bs, s => putChunk_vary bs (s.outPut b)

theorem copyChunk_vary : ∀ n {s : State}, s.Sees m k →
    copyChunk n (s.vary a m k) = (copyChunk n s).map fun t => t.vary a m k
  | 0, _, _ => rfl
  | n + 1, s, hs => by
    simp only [copyChunk, State.inRead8_vary hs]
    rcases hread : s.inRead8 with _ | ⟨b, t⟩
    · rfl
    · have ht : t.Sees m k := (copied_inRead8 hread).sees hs
      exact copyChunk_vary n (s := t.outPut b) ht

theorem rlRepLoop_vary (chunk : List Byte) :
    ∀ n (s : State), rlRepLoop chunk n (s.vary a m k) = (rlRepLoop chunk n s).vary a m k
  | 0, _ => rfl
  | n + 1, s => by
    simp only [rlRepLoop, State.vary_opos, State.vary_outLen, putChunk_vary]
    split
    · rfl
    · exact rlRepLoop_vary chunk n _

theorem rlRawLoop_vary : ∀ n {s : State}, s.Sees m k → rlRawLoop n (s.vary a m k) = (rlRawLoop n s).vary a m k
  | 0, _, _ => rfl
  | n + 1, s, hs => by
    simp only [rlRawLoop, State.vary_opos, State.vary_outLen, State.vary_channels, copyChunk_vary _ hs]
    split
    · rfl
    · cases hcopy : copyChunk s.channels.toNat s with
      | none => simp
      | some t => exact rlRawLoop_vary n ((copied_copyChunk hcopy).sees hs)

theorem rlRep_vary (hs : s.Sees m k) (cnt : BitVec 7) : (s.vary a m k).rlRep cnt = (s.rlRep cnt).vary a m k := by
  simp only [State.rlRep, State.vary_channels, readChunk_vary _ hs]
  cases readChunk s.channels.toNat s with
  | none => simp
  | some x => exact rlRepLoop_vary _ _ _

theorem loadSelectors_vary : ∀ n y {s : State}, s.Sees m k →
    loadSelectors n y (s.vary a m k) = (loadSelectors n y s).vary a m k
  | 0, _, _, _ => rfl
  | n + 1, y, s, hs => by
    simp only [loadSelectors, State.inRead8_vary hs]
    rcases hread : s.inRead8 with _ | ⟨b, t⟩
    · simp
    · have ht : t.Sees m k := (copied_inRead8 hread).sees hs
      exact loadSelectors_vary n (y + 1) (s := { t with selBuf := t.selBuf.write y b }) ht

theorem dbkHdr_vary (hs : s.Sees m k) (depth width height : Half) :
    (s.vary a m k).dbkHdr depth width height = (s.dbkHdr depth width height).vary a m k := by
  by_cases h : s.hdrMismatch width height
  · have hfail := State.vary_raise { s with depth := depth } a m k .dbk .sizeMismatch
    rw [State.dbkHdr_of_mismatch h, ← hfail]
    exact State.dbkHdr_of_mismatch h
  · have hload := loadSelectors_vary (a := a) s.height.toNat 0 (s := { s with depth := depth }) hs
    have hvary : (s.vary a m k).dbkHdr depth width height =
        { loadSelectors s.height.toNat 0 (State.vary { s with depth := depth } a m k) with
          selLen := s.height, phase := .body .dbk, row := 0 } := State.dbkHdr_of_match h
    rw [hvary, hload, State.dbkHdr_of_match h]
    rfl

/-- A loop whose body does not see the change, for the indices it runs over and the states it meets. -/
theorem forUp_vary {f : Nat → State → State} {P : State → Prop} (hP : ∀ i u, P u → P (f i u)) :
    ∀ n b {s : State}, (∀ i u, i < b + n → P u → f i (u.vary a m k) = (f i u).vary a m k) → P s →
      forUp f n b (s.vary a m k) = (forUp f n b s).vary a m k
  | 0, _, _, _, _ => rfl
  | n + 1, b, s, hf, hs => by
    rw [forUp_succ, forUp_succ, hf b s (by omega) hs]
    exact forUp_vary hP n (b + 1) (fun i u hi => hf i u (by omega)) (hP b s hs)

/-- The stored values of the current row lie inside the stream. -/
def State.rowInside (s : State) (n : Nat) : Prop :=
  ∀ i, i < n → s.ipos.toNat + s.row * s.stride + i < s.inLen.toNat

/-- A row commutes where its value rule sees no more than the stored value, the row above and the row so far. -/
theorem deltaRow_vary {value : State → Nat → Byte}
    (hv : ∀ u i, (u.vary a m k).stored i = u.stored i → value (u.vary a m k) i = value u i)
    (hs : s.Sees m k) (hrow : s.rowInside s.stride) :
    (s.vary a m k).deltaRow value = (s.deltaRow value).vary a m k := by
  have hloop := forUp_vary (a := a) (f := fun i u => u.outPut (value u i))
    (P := fun u => u.Sees m k ∧ u.rowInside s.stride) (fun _ _ hu => hu) s.stride 0
    (fun i u hi hu => by
      have hstored : (u.vary a m k).stored i = u.stored i := State.inByte_vary hu.1 (hu.2 i (by omega))
      rw [hv u i hstored, State.vary_outPut]) ⟨hs, hrow⟩
  simp only [State.deltaRow, State.vary_stride, hloop]
  rfl

theorem runItem_vary (i : Instr) (hs : s.Sees m k) (hrow : itemContext i = .selector → s.rowInside s.stride) :
    runItem i (s.vary a m k) = (runItem i s).vary a m k := by
  cases i with
  | clr | bget | lzd | rld | cup | dlf | dbk | lzCtlb => rfl
  | lzLit n => exact lzLitLoop_vary n.toNat hs
  | lzShort | lzLong => exact lzCopy_vary s _ _
  | rlRep cnt => exact rlRep_vary hs cnt
  | rlRaw cnt => exact rlRawLoop_vary _ hs
  | dbkHdr _ depth width height => exact dbkHdr_vary hs depth width height
  | dfH =>
    refine deltaRow_vary (fun u i h => ?_) hs (hrow rfl)
    rw [State.dfHValue, h]
    rfl
  | dfV =>
    refine deltaRow_vary (fun u i h => ?_) hs (hrow rfl)
    rw [State.dfVValue, h]
    rfl
  | dfA =>
    refine deltaRow_vary (fun u i h => ?_) hs (hrow rfl)
    rw [State.dfAValue, h]
    rfl

/-! ### The fetch -/

/-- The change, on what a fetch gives. -/
def Fetched.vary (a : RunStatus) (m : Mem) (k : Nat) : Fetched → Fetched
  | .item i s => .item i (s.vary a m k)
  | .settled s => .settled (s.vary a m k)

theorem streamFrom_vary (hs : s.Sees m k) : ∀ n x, (s.vary a m k).streamFrom n x = s.streamFrom n x
  | 0, _ => rfl
  | n + 1, x => by
    simp only [State.streamFrom, State.vary_inLen, streamFrom_vary hs n]
    split
    · rw [State.inByte_vary hs ‹_›]
    · rfl

theorem fetchAt_vary (hs : s.Sees m k) (ctx : Context) (cmd : Command) :
    (s.vary a m k).fetchAt ctx cmd = (s.fetchAt ctx cmd).vary a m k := by
  simp only [State.fetchAt, State.streamWindow, State.vary_ipos, streamFrom_vary hs, State.vary_consume,
    State.vary_raise]
  split <;> rfl

theorem fetchLz_vary (hs : s.Sees m k) : (s.vary a m k).fetchLz = s.fetchLz.vary a m k := by
  have htake := fetchAt_vary (a := a) (s := { s with ctl := ctlTake s.ctl }) hs s.lzContext .lzd
  unfold State.fetchLz
  by_cases h : ctlExhausted s.ctl
  · rw [if_pos h, if_pos (by exact h)]
    exact fetchAt_vary hs _ _
  · rw [if_neg h, if_neg (by exact h)]
    exact htake

theorem fetchRow_vary (s : State) (c : DeltaCommand) : (s.vary a m k).fetchRow c = (s.fetchRow c).vary a m k := by
  simp only [State.fetchRow, State.vary_row, State.vary_height, State.vary_selByte, State.vary_total,
    State.vary_consume, State.vary_complete, State.vary_raise]
  split
  · split <;> rfl
  · rfl

theorem bodyChecks_vary (s : State) (c : DeltaCommand) : (s.vary a m k).bodyChecks c = (s.bodyChecks c).vary a m k := by
  simp only [State.bodyChecks, State.vary_avail, State.vary_total, State.vary_height, State.vary_selLen,
    State.vary_raise]
  split_ifs <;> rfl

theorem fetch_vary (hs : s.Sees m k) : (s.vary a m k).fetch = s.fetch.vary a m k := by
  cases hphase : s.phase with
  | host => simp [State.fetch, hphase, Fetched.vary]
  | lzd =>
    simp only [State.fetch, State.vary_phase, hphase, State.vary_opos, State.vary_outLen, fetchLz_vary hs,
      State.vary_complete]
    split <;> rfl
  | rld =>
    simp only [State.fetch, State.vary_phase, hphase, State.vary_opos, State.vary_outLen, fetchAt_vary hs,
      State.vary_complete]
    split <;> rfl
  | dbkHeader => simp [State.fetch, hphase, fetchAt_vary hs]
  | body c => simp [State.fetch, hphase, bodyChecks_vary, Fetched.vary]
  | rows c => simp [State.fetch, hphase, fetchRow_vary]

/-- Where an item is fetched from: a stream, or the selector of a row that is still to be done. -/
theorem State.fetch_item_from {s t : State} {i : Instr} (h : s.fetch = .item i t) :
    (itemContext i ≠ .selector ∧ ∃ p w, t = { s with ipos := p, ctl := w }) ∨
    (t = s ∧ s.row < s.height.toNat ∧ ∃ c, s.phase = .rows c) := by
  have stream (w : Half) (ctx : Context) (cmd : Command) (hc : ctx ≠ .selector)
      (hf : { s with ctl := w }.fetchAt ctx cmd = .item i t) :
      itemContext i ≠ .selector ∧ ∃ p w, t = { s with ipos := p, ctl := w } := by
    rcases State.fetchAt_cases { s with ctl := w } ctx cmd with ⟨j, hj, he⟩ | ⟨-, he⟩ <;> rw [he] at hf <;> cases hf
    exact ⟨decode_context hj ▸ hc, _, w, rfl⟩
  have hlz : s.lzContext ≠ .selector := by
    unfold State.lzContext
    split_ifs <;> nofun
  unfold State.fetch at h
  split at h
  case h_1 | h_5 => cases h
  case h_2 =>
    split_ifs at h
    unfold State.fetchLz at h
    split_ifs at h
    · exact .inl (stream s.ctl _ .lzd hlz h)
    · exact .inl (stream (ctlTake s.ctl) _ .lzd hlz h)
  case h_3 =>
    split_ifs at h
    exact .inl (stream s.ctl .runLength .rld nofun h)
  case h_4 => exact .inl (stream s.ctl .blockHeader .dbk nofun h)
  case h_6 c hphase =>
    rcases s.fetchRow_cases c with ⟨hrow, j, -, he⟩ | ⟨-, -, he⟩ | ⟨-, he⟩ <;> rw [he] at h <;> cases h
    exact .inr ⟨rfl, hrow, c, hphase⟩

/-! ### The run -/

/-- Inside the row loop the payload that the size checks asked for is still there (R181). -/
def State.payloadIn (s : State) : Prop := ∀ c, s.phase = .rows c → s.total ≤ s.avail

theorem State.rowInside_of_payloadIn (h : s.payloadIn) {c : DeltaCommand} (hp : s.phase = .rows c)
    (hrow : s.row < s.height.toNat) : s.rowInside s.stride := by
  intro i hi
  have hbytes := s.row_bytes hrow
  have hleft := h c hp
  unfold State.avail at hleft
  omega

theorem turn_vary (hs : s.Sees m k) (hp : s.payloadIn) : (s.vary a m k).turn = s.turn.vary a m k := by
  unfold State.turn
  rw [fetch_vary hs]
  cases hf : s.fetch with
  | settled t => rfl
  | item i t =>
    rcases State.fetch_item_from hf with ⟨hi, p, w, rfl⟩ | ⟨rfl, hrow, c, hphase⟩
    · exact runItem_vary i (s := { s with ipos := p, ctl := w }) hs fun he => absurd he hi
    · exact runItem_vary i hs fun _ => State.rowInside_of_payloadIn hp hphase hrow

theorem State.sees_raise (hs : s.Sees m k) (c : Command) (f : Failure) : (s.raise c f).Sees m k := by
  cases c <;> exact hs

theorem State.payloadIn_of_host (h : s.phase = .host) : s.payloadIn := fun _ hc => nomatch h.symm.trans hc

theorem StreamCommand.turn_visible (c : StreamCommand) (hp : s.phase = c.phase) (hs : s.Sees m k) :
    s.turn.Sees m k ∧ s.turn.payloadIn := by
  rcases c.turn_cases hp with ⟨-, h⟩ | ⟨-, ⟨n, -, ⟨w, -, hcopy⟩, -⟩ | ⟨n, u, f, -, ⟨w, -, hcopy⟩, h⟩⟩
  · rw [h]
    exact ⟨hs, State.payloadIn_of_host rfl⟩
  · have hphase : s.turn.phase = c.phase := hcopy.phase.trans hp
    exact ⟨hcopy.sees hs, fun d hd => by cases c <;> exact nomatch hphase.symm.trans hd⟩
  · rw [h]
    exact ⟨State.sees_raise (hcopy.sees hs) _ _, State.payloadIn_of_host (u.raise_phase _ _)⟩

/-- A turn reads the stream and leaves it, and never reads the payload away. -/
theorem turn_visible (hs : s.Sees m k) (hp : s.payloadIn) : s.turn.Sees m k ∧ s.turn.payloadIn := by
  cases hphase : s.phase with
  | host =>
    have hturn : s.turn = s := by simp [State.turn, State.fetch, hphase]
    rw [hturn]
    exact ⟨hs, hp⟩
  | lzd => exact StreamCommand.lzd.turn_visible hphase hs
  | rld => exact StreamCommand.rld.turn_visible hphase hs
  | dbkHeader =>
    rcases turn_dbkHeader hphase with ⟨p, d, f, h⟩ | ⟨p, r, d, h⟩ <;> rw [h]
    · exact ⟨hs, State.payloadIn_of_host rfl⟩
    · exact ⟨hs, nofun⟩
  | body c =>
    rcases turn_body hphase with h | ⟨hpayload, h⟩ <;> rw [h]
    · exact ⟨State.sees_raise hs _ _, State.payloadIn_of_host (s.raise_phase _ _)⟩
    · exact ⟨hs, fun _ _ => hpayload⟩
  | rows c =>
    rcases turn_rows hphase with ⟨-, t, hcopy, hipos, h⟩ | ⟨b, h⟩ | h <;> rw [h]
    · have hleft := hp c hphase
      rw [hcopy.frame, hipos]
      exact ⟨hs, fun _ _ => hleft⟩
    · exact ⟨State.sees_raise hs _ _, State.payloadIn_of_host (s.raise_phase _ _)⟩
    · exact ⟨hs, State.payloadIn_of_host rfl⟩

theorem runToEnd_vary : ∀ n {s : State}, s.Sees m k → s.payloadIn →
    runToEnd n (s.vary a m k) = (runToEnd n s).map fun t => t.vary a m k
  | 0, s, _, _ => by
    by_cases h : s.phase = .host <;> simp [runToEnd, h]
  | n + 1, s, hs, hp => by
    obtain ⟨hs', hp'⟩ := turn_visible hs hp
    by_cases h : s.phase = .host <;> simp [runToEnd, h, turn_vary hs hp, runToEnd_vary n hs' hp']

/-- A run that ends leaves no command unfinished: a completion sets `OUTV`, a raise sets ERR. -/
theorem runToEnd_ended {n : Nat} {s t : State} (hp : s.phase ≠ .host) (h : runToEnd n s = some t) :
    t.unfinished = false := by
  refine runToEnd_ends_in (R := fun _ => True) (D := fun t => t.unfinished = false) (fun u hu _ => ?_) hp trivial h
  rcases turn_goesOnOrEnds hu with ⟨hp', -, -⟩ | ⟨v, -, -, hv⟩ | ⟨v, c, f, hv⟩
  · exact .inl ⟨hp', trivial⟩
  · rw [hv]
    exact .inr ⟨rfl, by simp [State.unfinished]⟩
  · rw [hv]
    exact .inr ⟨v.raise_phase c f, by simp [State.unfinished]⟩

/-- The whole of a started command commutes with the change. -/
theorem runCommand_vary {n : Nat} {s t : State} (a : RunStatus) (hs : s.Sees m k) (hhost : s.phase ≠ .host)
    (hp : s.payloadIn) (h : runCommand n s = .next t) :
    runCommand n (s.vary a m k) = .next { t with inBuf := m, inSeed := k } := by
  rw [runCommand_eq_next] at h ⊢
  rw [runToEnd_vary n hs hp, h, ← State.vary_of_ended (a := a) (runToEnd_ended hhost h)]
  rfl

/-! ### The commands -/

/-- Other contents of `IN` and another outcome of the command before. -/
def State.disturb (s : State) (a : RunStatus) (e : Option FailKind) (w : Word) (m : Mem) (k : Nat) : State :=
  { s with st := a, err := e, errInfo := w, inBuf := m, inSeed := k }

variable {e : Option FailKind} {w : Word}

theorem bget_disturb {n : Nat} (hs : s.Sees m k) :
    (s.disturb a e w m k).bget n = { s.bget n with inBuf := m, inSeed := k } := by
  by_cases h : s.bitsLeft < n
  · rw [State.bget_of_lt h]
    exact State.bget_of_lt h
  · have hle : n ≤ s.bitsLeft := Nat.le_of_not_lt h
    have hbits : (s.disturb a e w m k).bitsValue s.bpos.toNat n = s.bitsValue s.bpos.toNat n := by
      refine State.bitsValue_congr fun i hi => ?_
      have hbyte : (s.bpos.toNat + i) / 8 < s.inLen.toNat := by
        unfold State.bitsLeft at hle
        omega
      exact congrArg (fun b : Byte => b.getLsbD (7 - (s.bpos.toNat + i) % 8)) (hs _ hbyte)
    rw [State.bget_of_le hle, ← hbits]
    exact State.bget_of_le hle

/-! ### The upsampler -/

/-- A place in a grid of `m` rows of `n`. -/
theorem grid_lt {i j m n : Nat} (hi : i < m) (hj : j < n) : i * n + j < m * n :=
  calc i * n + j < i * n + n := Nat.add_lt_add_left hj _
    _ = (i + 1) * n := (Nat.succ_mul i n).symm
    _ ≤ m * n := Nat.mul_le_mul_right n hi

/-- The three planes stand one after the other from the byte cursor on (R170, R171). -/
theorem State.planeBase_eq (s : State) :
    s.planeBase .cb = s.ipos.toNat ∧
    s.planeBase .cr = s.ipos.toNat + s.width.toNat / 2 * (s.height.toNat / 2) ∧
    s.planeBase .luma = s.ipos.toNat + 2 * (s.width.toNat / 2 * (s.height.toNat / 2)) := by
  refine ⟨rfl, rfl, ?_⟩
  rw [Nat.two_mul]
  rfl

/-- The planes lie inside the stream, and the dimensions are even (R170, R176). -/
def State.planesIn (s : State) : Prop :=
  s.cupNeed ≤ s.avail ∧ s.width.toNat % 2 = 0 ∧ s.height.toNat % 2 = 0

theorem cupPixel_vary {x y : Nat} (hs : s.Sees m k) (hin : s.planesIn) (hx : x < s.width.toNat)
    (hy : y < s.height.toNat) : cupPixel y x (s.vary a m k) = (cupPixel y x s).vary a m k := by
  obtain ⟨hneed, hw, hh⟩ := hin
  obtain ⟨hcb, hcr, hluma⟩ := s.planeBase_eq
  have hchroma : y / 2 * (s.width.toNat / 2) + x / 2 < s.width.toNat / 2 * (s.height.toNat / 2) := by
    rw [Nat.mul_comm (s.width.toNat / 2)]
    exact grid_lt (by omega) (by omega)
  have hpixel : y * s.width.toNat + x < s.width.toNat * s.height.toNat := by
    rw [Nat.mul_comm s.width.toNat]
    exact grid_lt hy hx
  rw [State.cupNeed, State.avail, Nat.mul_assoc 2] at hneed
  have hcbIn : s.planeBase .cb + (y / 2 * (s.width.toNat / 2) + x / 2) < s.inLen.toNat := by omega
  have hcrIn : s.planeBase .cr + (y / 2 * (s.width.toNat / 2) + x / 2) < s.inLen.toNat := by omega
  have hlumaIn : s.planeBase .luma + (y * s.width.toNat + x) < s.inLen.toNat := by omega
  have hsamplecb : (s.vary a m k).chromaSample .cb x y = s.chromaSample .cb x y := congrArg sint8 (hs _ hcbIn)
  have hsamplecr : (s.vary a m k).chromaSample .cr x y = s.chromaSample .cr x y := congrArg sint8 (hs _ hcrIn)
  have hsamplel : (s.vary a m k).lumaSample x y = s.lumaSample x y :=
    congrArg (fun b : Byte => (b.toNat : Int)) (hs _ hlumaIn)
  simp only [cupPixel, hsamplecb, hsamplecr, hsamplel, State.vary_outPut]

theorem pixels_vary (hs : s.Sees m k) (hin : s.planesIn) : (s.vary a m k).pixels = s.pixels.vary a m k := by
  have hkeep (y x : Nat) (u : State) (hu : u.Sees m k ∧ u.planesIn ∧ u.width = s.width ∧ u.height = s.height) :
      (cupPixel y x u).Sees m k ∧ (cupPixel y x u).planesIn ∧ (cupPixel y x u).width = s.width ∧
        (cupPixel y x u).height = s.height := hu
  refine forUp_vary (fun y u hu => forUp_keeps (hkeep y) s.width.toNat 0 u hu) s.height.toNat 0 (fun y u hy hu => ?_)
    ⟨hs, hin, rfl, rfl⟩
  refine forUp_vary (hkeep y) s.width.toNat 0 (fun x v hx hv => ?_) hu
  obtain ⟨hsees, hplanes, hwidth, hheight⟩ := hv
  exact cupPixel_vary hsees hplanes (by rw [hwidth]; omega) (by rw [hheight]; omega)

theorem cup_disturb (hs : s.Sees m k) (hw : s.width.toNat % 2 = 0) (hh : s.height.toNat % 2 = 0) :
    (s.disturb a e w m k).cup = { s.cup with inBuf := m, inSeed := k } := by
  have hstart : (s.disturb a e w m k).cupStart = s.cupStart.vary a m k := rfl
  by_cases h : s.avail < s.cupNeed
  · rw [State.cup_of_short h, State.cup_of_short (s := s.disturb a e w m k) h, hstart, State.vary_raise]
    exact State.vary_of_ended (by simp [State.unfinished])
  · have hneed : s.cupNeed ≤ s.avail := Nat.le_of_not_lt h
    have hpixels := pixels_vary (a := a) (s := s.cupStart) hs ⟨hneed, hw, hh⟩
    rw [State.cup_of_enough hneed, State.cup_of_enough (s := s.disturb a e w m k) hneed, hstart, hpixels]
    exact (State.vary_complete { s.cupStart.pixels with ipos := s.cupStart.pixels.ipos + BitVec.ofNat 32 s.cupNeed }
      a m k).trans (State.vary_of_ended (by simp [State.unfinished]))

/-! ### The commands -/

/-- A pre-start check that does not see the change. -/
theorem refuseIf_disturb {c : Prop} [Decidable c] {t : State} {o o' : Host.Outcome State Fault Refusal}
    (ho : ¬ c → o = .next t → o' = .next { t with inBuf := m, inSeed := k })
    (h : (if c then .next s.refuse else o) = .next t) :
    (if c then .next (s.disturb a e w m k).refuse else o') = .next { t with inBuf := m, inSeed := k } := by
  split_ifs at h ⊢ with hc
  · cases h
    rfl
  · exact ho hc h

/-- A host command does not see the contents of `IN` from `IN_LEN` on, nor the outcome before it: it hands the one on
and overwrites the other. -/
theorem exec_disturb {i : Instr} {t : State} (hi : itemContext i = .command) (hs : s.Sees m k)
    (h : exec i s = .next t) : exec i (s.disturb a e w m k) = .next { t with inBuf := m, inSeed := k } := by
  cases i <;> simp [itemContext] at hi
  case clr => cases h; rfl
  case bget n =>
    refine refuseIf_disturb (fun _ => refuseIf_disturb fun _ h => ?_) h
    cases h
    exact congrArg _ (bget_disturb hs)
  case cup =>
    refine refuseIf_disturb (fun _ => refuseIf_disturb fun heven => refuseIf_disturb fun _ h => ?_) h
    have hodd : ¬ (s.width.toNat % 2 = 1 ∨ s.height.toNat % 2 = 1) := heven
    cases h
    exact congrArg _ (cup_disturb hs (by omega) (by omega))
  case lzd =>
    exact refuseIf_disturb (fun _ => refuseIf_disturb fun _ h =>
      runCommand_vary (s := s.lzdStart) a hs nofun nofun h) h
  case rld =>
    exact refuseIf_disturb (fun _ => refuseIf_disturb fun _ h =>
      runCommand_vary (s := s.rldStart) a hs nofun nofun h) h
  case dlf =>
    exact refuseIf_disturb (fun _ => refuseIf_disturb fun _ h =>
      runCommand_vary (s := s.dlfStart) a hs nofun nofun h) h
  case dbk =>
    exact refuseIf_disturb (fun _ => refuseIf_disturb fun _ h =>
      runCommand_vary (s := s.dbkStart) a hs nofun nofun h) h

end Vary

/-- Settles O49: the change of `IN` alone. -/
theorem commandsSeeOnlyTheStream : Obligations.CommandsSeeOnlyTheStream := by
  intro i s t m k hi hsame h
  exact exec_disturb (a := s.st) (e := s.err) (w := s.errInfo) hi hsame h

/-- A host command leaves `IN` alone. -/
theorem exec_inBuf {i : Instr} {s t : State} (hi : itemContext i = .command) (h : exec i s = .next t) :
    t = { t with inBuf := s.inBuf, inSeed := s.inSeed } := by
  have hself := exec_disturb (a := s.st) (e := s.err) (w := s.errInfo) hi (fun _ _ => rfl) h
  exact Host.Outcome.next.inj (h.symm.trans hself)

/-- Settles O51: the change of the outcome before the command alone. -/
theorem eachCommandIsANewAttempt : Obligations.EachCommandIsANewAttempt := by
  intro i s t a e w hi h _
  rw [exec_inBuf hi h]
  exact exec_disturb hi (fun _ _ => rfl) h

end Sys2Proof.Machine
end

