-- ==== Sys2Proof/Proofs/SingleSteps.lean ====
section
/-!
PROOFS. A decode command and its stream items run by single steps come to the same state (R74, R108): inside a command a
step is a turn, and the command is its turns until the first state in which none is running.
-/
namespace Sys2Proof.Machine

/-- Inside a running command the run by single steps goes on from the turn. -/
theorem core_run_turn {s : State} (hp : s.phase ≠ .host) (n : Nat) :
    Host.Core.run Sys2Proof.core (n + 1) s = Host.Core.run Sys2Proof.core n s.turn := by
  have hstep : Sys2Proof.core.step s = .next s.turn := step_turn hp
  simp only [Host.Core.run, hstep]

/-- `n` single steps lead from `a` to `t`, and `t` is the first state on the way in which no command is running. -/
def EndsByStepsIn (n : Nat) (a t : State) : Prop :=
  Host.Core.run Sys2Proof.core n a = .next t ∧ t.phase = .host ∧
    ∀ m, m < n → ∃ u : State, Host.Core.run Sys2Proof.core m a = .next u ∧ u.phase ≠ .host

theorem endsByStepsIn_zero {t : State} (hp : t.phase = .host) : EndsByStepsIn 0 t t := ⟨rfl, hp, nofun⟩

/-- One turn before a run by single steps. -/
theorem endsByStepsIn_succ {n : Nat} {a t : State} (hp : a.phase ≠ .host) (h : EndsByStepsIn n a.turn t) :
    EndsByStepsIn (n + 1) a t := by
  obtain ⟨hrun, hend, hbefore⟩ := h
  refine ⟨(core_run_turn hp n).trans hrun, hend, fun m hm => ?_⟩
  cases m with
  | zero => exact ⟨a, rfl, hp⟩
  | succ m =>
    rw [core_run_turn hp m]
    exact hbefore m (Nat.lt_of_succ_lt_succ hm)

/-- A run to the end is as many single steps as it takes turns. -/
theorem endsByStepsIn_of_runToEnd : ∀ k {a t : State}, runToEnd k a = some t → ∃ n, EndsByStepsIn n a t
  | 0, a, t, h => by
    unfold runToEnd at h
    split at h <;> cases h
    exact ⟨0, endsByStepsIn_zero ‹_›⟩
  | k + 1, a, t, h => by
    unfold runToEnd at h
    split at h
    · cases h
      exact ⟨0, endsByStepsIn_zero ‹_›⟩
    · obtain ⟨n, hn⟩ := endsByStepsIn_of_runToEnd k h
      exact ⟨n + 1, endsByStepsIn_succ ‹_› hn⟩

/-- A command that passes its two pre-start checks (R216) ends as its single steps do. -/
theorem endsByStepsIn_of_checked {k size : Nat} {s a t : State} (hin : s.inLen.toNat ≤ s.inCap) (hout : size ≤ s.outCap)
    (h : (if s.inCap < s.inLen.toNat then .next s.refuse
      else if s.outCap < size then .next s.refuse else runCommand k a) = .next t) : ∃ n, EndsByStepsIn n a t := by
  rw [if_neg (Nat.not_lt.mpr hin), if_neg (Nat.not_lt.mpr hout)] at h
  exact endsByStepsIn_of_runToEnd k (runCommand_eq_next.mp h)

/-- Settles O8: each of the four commands is a checked run to the end. -/
theorem commandIsItsItemsStepByStep : Obligations.CommandIsItsItemsStepByStep := by
  intro s t hin reaches
  exact ⟨endsByStepsIn_of_checked hin, endsByStepsIn_of_checked hin, endsByStepsIn_of_checked hin,
    endsByStepsIn_of_checked hin⟩

end Sys2Proof.Machine
end

