-- ==== Sys2Proof/Proofs/HostBuffers.lean ====
section
/-!
PROOFS. The host's access to the buffers: writes of `IN` and `SEL` (R76), and the reads that the spec permits (R77, R78).
-/
namespace Sys2Proof.Machine

/-! ### Writes -/

theorem State.hostWriteIn_frame (s : State) (a : Nat) (v : Byte) :
    s.hostWriteIn a v = { s with inBuf := (s.hostWriteIn a v).inBuf } := by
  unfold State.hostWriteIn
  split <;> rfl

theorem State.hostWriteSel_frame (s : State) (a : Nat) (v : Byte) :
    s.hostWriteSel a v = { s with selBuf := (s.hostWriteSel a v).selBuf } := by
  unfold State.hostWriteSel
  split <;> rfl

theorem State.read_hostWriteIn (s : State) (a : Nat) (v : Byte) (x : Nat) :
    (s.hostWriteIn a v).inBuf.read x = if x = a ∧ a < s.inCap then some v else s.inBuf.read x := by
  unfold State.hostWriteIn
  split <;> simp [*]

theorem State.read_hostWriteSel (s : State) (a : Nat) (v : Byte) (x : Nat) :
    (s.hostWriteSel a v).selBuf.read x = if x = a ∧ a < constants.selCap then some v else s.selBuf.read x := by
  unfold State.hostWriteSel
  split <;> simp [*]

/-- Settles O11: the pending write is performed, and a buffer reads what was written into it. -/
theorem hostBufferWrites : Obligations.HostBufferWrites := by
  intro s rest a v hp
  let u : State := { s with pending := rest }
  exact ⟨fun hpend => ⟨_, step_pending hp hpend, u.hostWriteIn_frame a v, u.read_hostWriteIn a v⟩,
    fun hpend => ⟨_, step_pending hp hpend, u.hostWriteSel_frame a v, u.read_hostWriteSel a v⟩⟩

/-! ### Reads -/

/-- A byte that `IN` holds is what a command or the host reads there. -/
theorem State.inByte_of_read {s : State} {a : Nat} {b : Byte} (h : s.inBuf.read a = some b) : s.inByte a = b := by
  rw [State.inByte, h, Option.getD_some]

/-- The same for `SEL`. -/
theorem State.selByte_of_read {s : State} {a : Nat} {b : Byte} (h : s.selBuf.read a = some b) : s.selByte a = b := by
  rw [State.selByte, h, Option.getD_some]

theorem hostReadIn_of_read {s : State} {a : Nat} {b : Byte} (ha : a < s.inCap) (h : s.inBuf.read a = some b) :
    hostReadIn a s = .next { s with readData := some (b.setWidth 32) } := by
  rw [hostReadIn, if_pos ha, State.inByte_of_read h]

theorem hostReadSel_of_read {s : State} {a : Nat} {b : Byte} (ha : a < constants.selCap)
    (h : s.selBuf.read a = some b) : hostReadSel a s = .next { s with readData := some (b.setWidth 32) } := by
  rw [hostReadSel, if_pos ha, State.selByte_of_read h]

theorem hostReadOut_of_read {s : State} {a : Nat} {b : Byte} (hv : s.outv = true) (ha : a < s.outLen.toNat)
    (h : s.outBuf.read a = some b) : hostReadOut a s = .next { s with readData := some (b.setWidth 32) } := by
  have hreadable : s.outReadable a = some b := (if_pos ⟨hv, ha⟩).trans h
  rw [hostReadOut, hreadable]

/-- Settles O12: the pending read is performed, and it is one that the spec permits. -/
theorem hostBufferReads : Obligations.HostBufferReads := by
  intro s rest a b hp
  refine ⟨fun hpend ha hread => ?_, fun hpend ha hread => ?_, fun hpend hv ha hread => ?_⟩ <;>
    rw [step_pending hp hpend]
  · exact hostReadIn_of_read (s := { s with pending := rest }) ha hread
  · exact hostReadSel_of_read (s := { s with pending := rest }) ha hread
  · exact hostReadOut_of_read (s := { s with pending := rest }) hv ha hread

end Sys2Proof.Machine
end

