-- ==== Sys2Proof/Proofs/Forgotten.lean ====
section
/-!
PROOFS. What a decode command overwrites at its start: `OUT`, `OPOS` and, for `LZD`, `CTL` (R71, R140). Its pre-start
checks and its fuel do not read them, so nothing of them is seen.
-/
namespace Sys2Proof.Machine

/-- A pre-start check (R216) that two states share, where the one command is not refused. -/
theorem refuseIf_shared {c : Prop} [Decidable c] {s u t : State} {o o' : Host.Outcome State Fault Refusal}
    (ht : t.err ≠ some .illegalOperation) (ho : o = .next t → o' = .next t)
    (h : (if c then .next s.refuse else o) = .next t) : (if c then .next u.refuse else o') = .next t := by
  split_ifs at h ⊢
  · cases h
    exact absurd rfl ht
  · exact ho h

/-- The state with other contents of what an earlier command left behind. -/
def State.withLeft (s : State) (m : Mem) (p : Word) (c : Half) : State := { s with outBuf := m, opos := p, ctl := c }

section WithLeft

variable (s : State) (m : Mem) (p : Word) (c : Half)

theorem State.withLeft_lzdStart : (s.withLeft m p c).lzdStart = s.lzdStart := rfl

theorem State.withLeft_rldStart : (s.withLeft m p s.ctl).rldStart = s.rldStart := rfl

theorem State.withLeft_dlfStart : (s.withLeft m p s.ctl).dlfStart = s.dlfStart := rfl

theorem State.withLeft_dbkStart : (s.withLeft m p s.ctl).dbkStart = s.dbkStart := rfl

theorem State.withLeft_cupStart : (s.withLeft m p s.ctl).cupStart = s.cupStart := rfl

theorem State.withLeft_cup : (s.withLeft m p s.ctl).cup = s.cup := by
  by_cases h : s.avail < s.cupNeed
  · rw [State.cup_of_short h, State.cup_of_short (s := s.withLeft m p s.ctl) h, s.withLeft_cupStart]
  · have hneed : s.cupNeed ≤ s.avail := Nat.le_of_not_lt h
    rw [State.cup_of_enough hneed, State.cup_of_enough (s := s.withLeft m p s.ctl) hneed, s.withLeft_cupStart]
    rfl

end WithLeft

/-- Settles O50: the start of each command is the same with either contents. -/
theorem decodeForgetsEarlierOutput : Obligations.DecodeForgetsEarlierOutput := by
  intro i s t m p c hi h ht
  have check {b : Prop} [Decidable b] {u : State} {o o' : Host.Outcome State Fault Refusal}
      (ho : o = .next t → o' = .next t) : (if b then .next s.refuse else o) = .next t →
        (if b then .next u.refuse else o') = .next t := refuseIf_shared ht ho
  simp only [List.mem_cons, List.not_mem_nil, or_false] at hi
  rcases hi with rfl | rfl | rfl | rfl | rfl
  · exact check (check fun hrun => (congrArg _ (s.withLeft_lzdStart m p c)).trans hrun) h
  · exact check (check fun hrun => (congrArg _ (s.withLeft_rldStart m p)).trans hrun) h
  · exact check (check (check fun hrun => (congrArg _ (s.withLeft_cup m p)).trans hrun)) h
  · exact check (check fun hrun => (congrArg _ (s.withLeft_dlfStart m p)).trans hrun) h
  · exact check (check fun hrun => (congrArg _ (s.withLeft_dbkStart m p)).trans hrun) h

end Sys2Proof.Machine
end

