-- ==== Sys2Proof/Proofs/LzItems.lean ====
section
/-!
PROOFS. Items of the LZ stream one by one. A literal token whose bytes the stream does not hold fails (R64, R145, R207),
with what R213 defines unchanged. The turns of an `LZD` over a control byte and a short token; and a copy with look-behind
0, which writes back the bytes that stand at the output cursor: at the start of a command, zeros (R71, R150).
-/
namespace Sys2Proof.Machine

/-! ### A truncated literal -/

/-- A decode command that fails after having copied leaves what R213 defines as it was before the copying. -/
theorem Copied.raise_failed {n : Nat} {s u : State} (h : Copied n s u) {c : Command} (hc : c ≠ .bget) (f : Failure) :
    failedAfterStart c f s (u.raise c f) := by
  rw [h.frame]
  cases c with
  | bget => exact absurd rfl hc
  | lzd | rld | cup | dlf | dbk => simp [failedAfterStart, State.raise, State.forget]

/-- A byte read makes the rest of the stream shorter by one. -/
theorem State.avail_of_inRead8 {s t : State} {b : Byte} (h : s.inRead8 = some (b, t)) : s.avail = t.avail + 1 := by
  obtain ⟨hlt, -, rfl⟩ := State.inRead8_eq_some.mp h
  have hnext : (s.ipos + 1#32).toNat = s.ipos.toNat + 1 := ipos_add_one hlt
  simp only [State.avail, hnext]
  omega

/-- The literal loop raises when fewer bytes are left than it is to copy: after those that are left, it is still not at
the end of the output (R145, R151). -/
theorem lzLitLoop_truncated : ∀ k {s : State}, s.opos.toNat ≤ s.outLen.toNat →
    s.avail < min k (s.outLen.toNat - s.opos.toNat) →
    ∃ n u, Copied n s u ∧ lzLitLoop k s = u.raise .lzd .outOfData
  | 0, s, _, hshort => by omega
  | k + 1, s, hle, hshort => by
    have hfull : s.opos ≠ s.outLen := fun he => by
      rw [he] at hshort
      omega
    have hroom : s.opos.toNat < s.outLen.toNat := by omega
    rw [lzLitLoop, if_neg hfull]
    cases hread : s.inRead8 with
    | none => exact ⟨0, s, .refl s, rfl⟩
    | some x =>
      obtain ⟨b, t⟩ := x
      have hcopy : Copied (0 + 1) s (t.outPut b) := (copied_inRead8 hread).trans (copied_outPut t b)
      have hopos : (t.outPut b).opos.toNat = s.opos.toNat + 1 := hcopy.opos_toNat (by omega)
      have havail : s.avail = t.avail + 1 := State.avail_of_inRead8 hread
      obtain ⟨n, u, hrest, hend⟩ := lzLitLoop_truncated k (s := t.outPut b)
        (by rw [hopos, hcopy.outLen]; omega)
        (by rw [hopos, hcopy.outLen]; show t.avail < _; omega)
      exact ⟨_, u, hcopy.trans hrest, hend⟩

/-- Settles O24: the copying before the raise writes nothing that R213 defines. -/
theorem lzLitTruncatedFails : Obligations.LzLitTruncatedFails := by
  intro n s hle hshort
  obtain ⟨m, u, hcopy, hend⟩ := lzLitLoop_truncated n.toNat hle hshort
  have hexec : exec (.lzLit n) s = .next (u.raise .lzd .outOfData) := congrArg _ hend
  exact ⟨_, hexec, hcopy.raise_failed (c := .lzd) nofun _⟩

/-! ### The fetch where the bytes are there -/

theorem State.streamFrom_of_lt {s : State} {a : Nat} (h : a < s.inLen.toNat) (k : Nat) :
    s.streamFrom (k + 1) a = s.inByte a :: s.streamFrom k (a + 1) :=
  if_pos h

/-- The item that the bytes at the cursor decode to is fetched. -/
theorem State.fetchAt_of_decode {s : State} {ctx : Context} {i : Instr} (cmd : Command)
    (h : decode ctx s.streamWindow = .instr i) : s.fetchAt ctx cmd = .item i (s.consume (headLength i)) := by
  rw [State.fetchAt, h]

/-- While the output is not full, a turn of `LZD` is an item of the LZ stream (R140). -/
theorem State.turn_lzd {s : State} (hp : s.phase = .lzd) (hroom : s.opos.toNat < s.outLen.toNat) :
    s.turn = s.fetchLz.turned := by
  rw [State.turn_eq, State.fetch, hp]
  exact congrArg _ (if_pos hroom)

/-- When the output is full, `LZD` completes (R140). -/
theorem State.turn_lzd_full {s : State} (hp : s.phase = .lzd) (hfull : s.opos = s.outLen) : s.turn = s.complete := by
  have hnot : ¬ s.opos.toNat < s.outLen.toNat := hfull ▸ Nat.lt_irrefl _
  rw [State.turn_eq, State.fetch, hp]
  exact congrArg _ (if_neg hnot)

/-- The turn of a control byte: the control word exhausted, one byte left (R95, R142). -/
theorem State.turn_lzControl {s : State} (hp : s.phase = .lzd) (hroom : s.opos.toNat < s.outLen.toNat)
    (hctl : ctlExhausted s.ctl = true) (hin : s.ipos.toNat < s.inLen.toNat) :
    s.turn = (s.consume 1).lzCtlb (s.inByte s.ipos.toNat) := by
  have hdec : decode s.lzContext s.streamWindow = .instr (.lzCtlb (s.inByte s.ipos.toNat)) := by
    rw [State.lzContext, if_pos hctl, State.streamWindow, constants, State.streamFrom_of_lt hin, decode]
  rw [s.turn_lzd hp hroom, State.fetchLz, if_pos hctl, State.fetchAt_of_decode _ hdec]
  rfl

/-- The turn of a back-reference: the control bit 1 is taken, and the token is what its bytes decode to (R97). -/
theorem State.turn_lzBackref {s : State} {i : Instr} (hp : s.phase = .lzd) (hroom : s.opos.toNat < s.outLen.toNat)
    (hctl : ctlExhausted s.ctl = false) (hbit : ctlBit s.ctl = true)
    (hdec : decode .lzBackref s.streamWindow = .instr i) :
    s.turn = runItem i ({ s with ctl := ctlTake s.ctl }.consume (headLength i)) := by
  have hnot : ¬ ctlExhausted s.ctl = true := by simp [hctl]
  have hctx : s.lzContext = .lzBackref := by rw [State.lzContext, if_neg hnot, if_pos hbit]
  rw [s.turn_lzd hp hroom, State.fetchLz, if_neg hnot, hctx,
    State.fetchAt_of_decode (s := { s with ctl := ctlTake s.ctl }) _ hdec]
  rfl

/-! ### The control word and the token -/

/-- The guard stands above a fresh control byte: it is not exhausted, and its first bit is bit 7 (R142, R143). -/
theorem ctl_of_refill (b : Byte) : ctlExhausted (ctlRefill b) = false ∧ ctlBit (ctlRefill b) = b.getLsbD 7 := by
  simp [ctlExhausted, ctlBit, ctlRefill, constants]

/-- Every `LZD` starts with an exhausted control word (R140, R141). -/
theorem ctlExhausted_zero : ctlExhausted 0x0000#16 = true := rfl

/-- A token of the bytes `0000_1ccc` and 0 is short, with look-behind 0 (R98). -/
theorem decodeBackref_zero {b : Byte} (h : b.toNat / 8 = 1) (rest : List Byte) :
    decodeBackref b 0#8 rest = .instr (.lzShort 0#12 (b.extractLsb' 0 3)) := by
  have hword : (0#8 ++ b : Half).toNat = b.toNat := by
    rw [BitVec.toNat_append]
    simp
  have hflag : (0#8 ++ b : Half).getLsbD 3 = true := by
    rw [BitVec.getLsbD, hword, Nat.testBit_eq_decide_div_mod_eq]
    exact decide_eq_true (by omega)
  have hdist : (0#8 ++ b : Half).extractLsb' 4 12 = 0#12 := BitVec.eq_of_toNat_eq (by
    rw [BitVec.extractLsb'_toNat, hword, Nat.shiftRight_eq_div_pow]
    show b.toNat / 2 ^ 4 % 2 ^ 12 = 0
    omega)
  have hcnt : (0#8 ++ b : Half).extractLsb' 0 3 = b.extractLsb' 0 3 := BitVec.eq_of_toNat_eq (by
    rw [BitVec.extractLsb'_toNat, BitVec.extractLsb'_toNat, hword])
  simp only [decodeBackref, if_pos hflag, hdist, hcnt]

/-- The repeat count of a short token by its first byte (R100). -/
theorem shortRepeat_extract (b : Byte) : shortRepeat (b.extractLsb' 0 3) = b.toNat % 8 + 4 := by
  simp [shortRepeat, constants]

/-! ### Look-behind 0 -/

/-- A full output ends the copying (R151). -/
theorem lzCopyLoop_of_full {s : State} (h : s.opos = s.outLen) : ∀ k src, lzCopyLoop k src s = s
  | 0, _ => rfl
  | _ + 1, _ => if_pos h

theorem State.lzCopy_zero (s : State) (count : Nat) : s.lzCopy 0 count = lzCopyLoop count s.opos.toNat s :=
  if_neg (Nat.not_lt_zero _)

/-- A copy with look-behind 0 that covers the rest of an output which holds all its bytes leaves every byte as it is. -/
theorem lzCopyLoop_zero : ∀ k {s : State}, s.opos.toNat ≤ s.outLen.toNat → s.outLen.toNat ≤ s.opos.toNat + k →
    (∀ a, a < s.outLen.toNat → (s.outBuf.read a).isSome) →
    ∃ m, lzCopyLoop k s.opos.toNat s = { s with opos := s.outLen, outBuf := m } ∧ ∀ a, m.read a = s.outBuf.read a
  | k, s, hle, hcover, hheld => by
    by_cases hfull : s.opos = s.outLen
    · rw [lzCopyLoop_of_full hfull]
      exact ⟨s.outBuf, congrArg (fun p => { s with opos := p }) hfull, fun _ => rfl⟩
    · have hne : s.opos.toNat ≠ s.outLen.toNat := fun he => hfull (BitVec.eq_of_toNat_eq he)
      have hroom : s.opos.toNat < s.outLen.toNat := by omega
      cases k with
      | zero => omega
      | succ k =>
        obtain ⟨v, hv⟩ := Option.isSome_iff_exists.mp (hheld _ hroom)
        have hbyte : s.outByte s.opos.toNat = v := by rw [State.outByte, hv, Option.getD_some]
        have hsame (a : Nat) : (s.outPut v).outBuf.read a = s.outBuf.read a := by
          rw [State.outPut_outBuf, Mem.read_write]
          split
          case isTrue ha => rw [ha, hv]
          case isFalse => rfl
        have hopos : (s.outPut v).opos.toNat = s.opos.toNat + 1 := ipos_add_one hroom
        obtain ⟨m, hloop, hread⟩ := lzCopyLoop_zero k (s := s.outPut v) (hopos ▸ hroom)
          (by rw [hopos, State.outPut_outLen]; omega) (fun a ha => by rw [hsame]; exact hheld a ha)
        rw [lzCopyLoop, if_neg hfull, hbyte, ← hopos, hloop]
        exact ⟨m, rfl, fun a => (hread a).trans (hsame a)⟩

/-! ### The command -/

/-- A run that has ended stays where it is. -/
theorem runToEnd_of_host {s : State} (hp : s.phase = .host) : ∀ k, runToEnd k s = some s
  | 0 => if_pos hp
  | _ + 1 => if_pos hp

theorem State.turn_of_host {s : State} (hp : s.phase = .host) : s.turn = s := by
  rw [State.turn_eq, State.fetch, hp]
  rfl

/-- One turn before the rest of a run. -/
theorem runToEnd_succ (k : Nat) (s : State) : runToEnd (k + 1) s = runToEnd k s.turn := by
  by_cases hp : s.phase = .host
  · rw [State.turn_of_host hp, runToEnd_of_host hp, runToEnd_of_host hp]
  · exact if_neg hp

/-- The state that a control byte and a short token leave when the copy has filled the output. -/
def State.afterZeroToken (s : State) (m : Mem) : State :=
  { s with
    ipos := s.ipos + 1#32 + 2#32, ctl := ctlTake (ctlRefill (s.inByte s.ipos.toNat)), opos := s.outLen, outBuf := m }

/-- The two turns of an `LZD` whose control word is exhausted over a control byte with first bit 1 and a short token with
look-behind 0 that covers the output: every byte of the output stays. -/
theorem turns_of_zero_token {s : State} (hp : s.phase = .lzd) (hctl : ctlExhausted s.ctl = true)
    (hroom : s.opos.toNat < s.outLen.toNat) (hbit : (s.inByte s.ipos.toNat).getLsbD 7 = true)
    (hin : s.ipos.toNat + 3 ≤ s.inLen.toNat) (hshort : (s.inByte (s.ipos.toNat + 1)).toNat / 8 = 1)
    (hzero : s.inByte (s.ipos.toNat + 2) = 0#8)
    (hcover : s.outLen.toNat ≤ s.opos.toNat + ((s.inByte (s.ipos.toNat + 1)).toNat % 8 + 4))
    (hheld : ∀ a, a < s.outLen.toNat → (s.outBuf.read a).isSome) :
    ∃ m, s.turn.turn = s.afterZeroToken m ∧ ∀ a, m.read a = s.outBuf.read a := by
  obtain ⟨hfresh, hfirst⟩ := ctl_of_refill (s.inByte s.ipos.toNat)
  let u : State := (s.consume 1).lzCtlb (s.inByte s.ipos.toNat)
  have hu : s.turn = u := State.turn_lzControl hp hroom hctl (by omega)
  have hipos : u.ipos.toNat = s.ipos.toNat + 1 := ipos_add_one (n := s.inLen) (by omega)
  have hdec : decode .lzBackref u.streamWindow =
      .instr (.lzShort 0#12 ((s.inByte (s.ipos.toNat + 1)).extractLsb' 0 3)) := by
    have hwindow : u.streamWindow = s.inByte (s.ipos.toNat + 1) :: 0#8 :: u.streamFrom 6 (s.ipos.toNat + 3) := by
      rw [State.streamWindow, hipos, ← hzero]
      exact (State.streamFrom_of_lt (by show _ < s.inLen.toNat; omega) 7).trans
        (congrArg _ (State.streamFrom_of_lt (by show _ < s.inLen.toNat; omega) 6))
    rw [hwindow]
    exact decodeBackref_zero hshort _
  have hturn := State.turn_lzBackref (s := u) hp hroom hfresh (hfirst.trans hbit) hdec
  obtain ⟨m, hloop, hread⟩ := lzCopyLoop_zero ((s.inByte (s.ipos.toNat + 1)).toNat % 8 + 4)
    (s := { u with ctl := ctlTake u.ctl }.consume 2) (Nat.le_of_lt hroom) hcover hheld
  refine ⟨m, ?_, hread⟩
  rw [hu, hturn, runItem, State.lzShort, shortRepeat_extract]
  exact (State.lzCopy_zero _ _).trans hloop

/-- Settles O48: the started output is all zeros, the token leaves it so, and the next turn completes. -/
theorem lookBehindZeroWritesZeros : Obligations.LookBehindZeroWritesZeros := by
  intro s hin hcap hpos hbit hstream hshort hzero hcover
  have hstarted (a : Nat) : s.lzdStart.outBuf.read a = if a < s.outLen.toNat then some 0#8 else none :=
    Mem.read_zeros _ a
  have hheld (a : Nat) (ha : a < s.outLen.toNat) : (s.lzdStart.outBuf.read a).isSome := by
    rw [hstarted, if_pos ha]
    rfl
  obtain ⟨m, hturns, hread⟩ := turns_of_zero_token (s := s.lzdStart) rfl ctlExhausted_zero hpos hbit hstream hshort
    hzero (hcover.trans (Nat.le_add_left _ _)) hheld
  let t : State := (s.lzdStart.afterZeroToken m).complete
  have hend : (s.lzdStart.afterZeroToken m).turn = t := State.turn_lzd_full rfl rfl
  have hfuel : s.streamFuel = s.inLen.toNat + s.outLen.toNat - 2 + 1 + 1 + 1 := by
    unfold State.streamFuel
    omega
  have hrun : runToEnd s.streamFuel s.lzdStart = some t := by
    rw [hfuel, runToEnd_succ, runToEnd_succ, hturns, runToEnd_succ, hend]
    exact runToEnd_of_host rfl _
  have hexec : exec .lzd s = .next t := by
    rw [exec, execLzd, if_neg (Nat.not_lt.mpr hin), if_neg (Nat.not_lt.mpr hcap)]
    exact runCommand_eq_next.mpr hrun
  have hipos : t.ipos = s.ipos + 3#32 := BitVec.add_assoc _ _ _
  exact ⟨t, hexec, rfl, hipos, rfl, fun a => (hread a).trans (hstarted a)⟩

end Sys2Proof.Machine
end

