-- ==== Sys2Proof/Proofs/Encoding.lean ====
section
/-!
PROOFS. The decoder and the encoder are inverse to each other (30_encoding.md R91 to R106): a word of fixed fields is
its fields appended, its bytes are le16's or le24's, and each context's decoder takes out the fields that the encoder put
in.
-/
namespace Sys2Proof.Machine

/-! ### A word and its fields -/

section Fields

variable {p q r : Nat}

theorem append_extractLsb' (w : BitVec (p + r)) : w.extractLsb' r p ++ w.extractLsb' 0 r = w := by
  rw [BitVec.extractLsb'_append_extractLsb'_eq_extractLsb' (Nat.zero_add r).symm, BitVec.extractLsb'_eq_self]

theorem append₃_extractLsb' (w : BitVec (p + q + r)) :
    w.extractLsb' (q + r) p ++ w.extractLsb' r q ++ w.extractLsb' 0 r = w := by
  rw [BitVec.extractLsb'_append_extractLsb'_eq_extractLsb' (Nat.add_comm q r)]
  exact append_extractLsb' w

theorem extractLsb'_append₃_high (a : BitVec p) (b : BitVec q) (c : BitVec r) :
    (a ++ b ++ c).extractLsb' (q + r) p = a := by
  rw [BitVec.extractLsb'_append_eq_of_le (Nat.le_add_left r q), Nat.add_sub_cancel]
  exact BitVec.extractLsb'_append_eq_left

theorem extractLsb'_append₃_mid (a : BitVec p) (b : BitVec q) (c : BitVec r) : (a ++ b ++ c).extractLsb' r q = b := by
  rw [BitVec.extractLsb'_append_eq_of_le (Nat.le_refl r), Nat.sub_self]
  exact BitVec.extractLsb'_append_eq_right

theorem getLsbD_append₃_mid (a : BitVec p) (b : BitVec q) (c : BitVec r) {i : Nat} (hi : i < q) :
    (a ++ b ++ c).getLsbD (r + i) = b.getLsbD i := by
  rw [BitVec.getLsbD_append, if_neg (by omega), Nat.add_sub_cancel_left, BitVec.getLsbD_append, if_pos hi]

/-- A field of one bit is that bit. -/
theorem extractLsb'_one (w : BitVec p) (k : Nat) : w.extractLsb' k 1 = BitVec.ofBool (w.getLsbD k) := by
  ext i hi
  obtain rfl : i = 0 := by omega
  simp

end Fields

/-! ### Little-endian bytes (R60) -/

theorem le16_append (b1 b0 : Byte) : le16 (b1 ++ b0) = [b0, b1] :=
  congrArg₂ (fun x y => [x, y]) BitVec.extractLsb'_append_eq_right BitVec.extractLsb'_append_eq_left

theorem append_le16 (w : Half) : w.extractLsb' 8 8 ++ w.extractLsb' 0 8 = w := append_extractLsb' (p := 8) (r := 8) w

theorem le16_injective {w v : Half} (h : le16 w = le16 v) : w = v := by
  simp only [le16, List.cons.injEq, and_true] at h
  obtain ⟨hlow, hhigh⟩ := h
  rw [← append_le16 w, ← append_le16 v, hlow, hhigh]

theorem le24_append (b2 b1 b0 : Byte) : le24 (b2 ++ (b1 ++ b0 : Half)) = [b0, b1, b2] := by
  have hlow (start : Nat) (h : start + 8 ≤ 16) :
      (b2 ++ (b1 ++ b0 : Half)).extractLsb' start 8 = (b1 ++ b0 : Half).extractLsb' start 8 :=
    BitVec.extractLsb'_append_eq_of_add_le h
  have hhigh : (b2 ++ (b1 ++ b0 : Half)).extractLsb' 16 8 = b2 := BitVec.extractLsb'_append_eq_left
  have hbytes := le16_append b1 b0
  simp only [le16, List.cons.injEq, and_true] at hbytes
  obtain ⟨h0, h1⟩ := hbytes
  rw [le24, hlow 0 (by decide), hlow 8 (by decide), hhigh, h0, h1]

/-- The first two of the three bytes are the low half. -/
theorem low_le24 (w : BitVec 24) : (w.extractLsb' 8 8 ++ w.extractLsb' 0 8 : Half) = w.extractLsb' 0 16 :=
  BitVec.extractLsb'_append_extractLsb'_eq_extractLsb' rfl

theorem append_le24 (w : BitVec 24) : w.extractLsb' 16 8 ++ (w.extractLsb' 8 8 ++ w.extractLsb' 0 8 : Half) = w := by
  rw [low_le24]
  exact append_extractLsb' (p := 8) (r := 16) w

/-! ### Command words (R91) -/

theorem commandWord_fields (op : BitVec 4) (n : BitVec 6) :
    (commandWord op n).extractLsb' 12 4 = op ∧ (commandWord op n).extractLsb' 6 6 = 0#6 ∧
      (commandWord op n).extractLsb' 0 6 = n :=
  ⟨extractLsb'_append₃_high op 0#6 n, extractLsb'_append₃_mid op 0#6 n, BitVec.extractLsb'_append_eq_right⟩

theorem commandWord_of_fields {c : Half} (h : c.extractLsb' 6 6 = 0#6) :
    commandWord (c.extractLsb' 12 4) (c.extractLsb' 0 6) = c := by
  rw [commandWord, ← h]
  exact append₃_extractLsb' (p := 4) (q := 6) (r := 6) c

/-- The decoder reads a command word from its two bytes, and no byte after them. -/
theorem decode_command_le16 (c : Half) (rest : List Byte) : decode .command (le16 c ++ rest) = decodeCommand c :=
  congrArg decodeCommand (append_le16 c)

theorem decodeCommand_bget (n : BitVec 6) : decodeCommand (commandWord 0x1#4 n) = .instr (.bget n) := by
  obtain ⟨hop, hrsv, hn⟩ := commandWord_fields 0x1#4 n
  simp [decodeCommand, hop, hrsv, hn]

/-- Every row of the command table fixes the operation, the reserved field and, but for `BGET`, the count: no bit of the
word is dropped. -/
theorem encode_of_decodeCommand {c : Half} {i : Instr} (h : decodeCommand c = .instr i) : encode i = le16 c := by
  by_cases hrsv : c.extractLsb' 6 6 = 0#6
  · rw [← commandWord_of_fields hrsv]
    simp only [decodeCommand, if_neg (not_not.mpr hrsv)] at h
    split_ifs at h with hbget hn hop hop hop hop hop hop
    · cases h
      rw [hbget, encode]
    all_goals
      cases h
      rw [hop, not_not.mp hn, encode]
  · simp only [decodeCommand, if_pos hrsv] at h
    cases h

theorem headLength_of_command {i : Instr} (h : itemContext i = .command) : headLength i = 2 := by
  cases i <;> cases h <;> rfl

/-! ### Back-reference tokens (R97 to R99) -/

theorem decodeBackref_of_set {b0 b1 : Byte} (h : (b1 ++ b0 : Half).getLsbD 3 = true) (rest : List Byte) :
    decodeBackref b0 b1 rest =
      .instr (.lzShort ((b1 ++ b0 : Half).extractLsb' 4 12) ((b1 ++ b0 : Half).extractLsb' 0 3)) :=
  if_pos h

theorem decodeBackref_of_clear {b0 b1 : Byte} (h : (b1 ++ b0 : Half).getLsbD 3 = false) (b2 : Byte)
    (rest : List Byte) :
    decodeBackref b0 b1 (b2 :: rest) =
      .instr (.lzLong (lzLongDist (b2 ++ (b1 ++ b0 : Half))) ((b2 ++ (b1 ++ b0 : Half)).extractLsb' 2 10)
        ((b2 ++ (b1 ++ b0 : Half)).extractLsb' 0 2)) :=
  if_neg (Bool.eq_false_iff.mp h)

theorem decodeBackref_of_clear_nil {b0 b1 : Byte} (h : (b1 ++ b0 : Half).getLsbD 3 = false) :
    decodeBackref b0 b1 [] = .reject .truncated :=
  if_neg (Bool.eq_false_iff.mp h)

theorem decode_encode_lzShort (dist : BitVec 12) (cnt : BitVec 3) (rest : List Byte) :
    decode .lzBackref (encode (.lzShort dist cnt) ++ rest) = .instr (.lzShort dist cnt) := by
  let w : Half := dist ++ 1#1 ++ cnt
  have hflag : w.getLsbD 3 = true := getLsbD_append₃_mid dist 1#1 cnt (i := 0) (by decide)
  have hdist : w.extractLsb' 4 12 = dist := extractLsb'_append₃_high dist 1#1 cnt
  have hcnt : w.extractLsb' 0 3 = cnt := BitVec.extractLsb'_append_eq_right
  have hdec := decodeBackref_of_set ((append_le16 w).symm ▸ hflag) rest
  rw [append_le16, hdist, hcnt] at hdec
  exact hdec

/-- The flag of a long token is bit 1 of its `c10`, which stands in the first byte (R99). -/
theorem decode_encode_lzLong (dist : BitVec 12) {c10 : BitVec 10} (lo2 : BitVec 2) (hc : c10.getLsbD 1 = false)
    (rest : List Byte) : decode .lzBackref (encode (.lzLong dist c10 lo2) ++ rest) = .instr (.lzLong dist c10 lo2) := by
  let w : BitVec 24 := lzLongPack dist c10 lo2
  have hflag : (w.extractLsb' 8 8 ++ w.extractLsb' 0 8 : Half).getLsbD 3 = false := by
    rw [low_le24, BitVec.getLsbD_extractLsb', Nat.zero_add]
    exact (getLsbD_append₃_mid dist c10 lo2 (i := 1) (by decide)).trans hc
  have hdist : lzLongDist w = dist := extractLsb'_append₃_high dist c10 lo2
  have hc10 : w.extractLsb' 2 10 = c10 := extractLsb'_append₃_mid dist c10 lo2
  have hlo2 : w.extractLsb' 0 2 = lo2 := BitVec.extractLsb'_append_eq_right
  have hdec := decodeBackref_of_clear hflag (w.extractLsb' 16 8) rest
  rw [append_le24, hdist, hc10, hlo2] at hdec
  exact hdec

theorem encode_of_decodeBackref {b0 b1 : Byte} {rest : List Byte} {i : Instr}
    (h : decodeBackref b0 b1 rest = .instr i) : encode i = (b0 :: b1 :: rest).take (headLength i) := by
  cases hflag : (b1 ++ b0 : Half).getLsbD 3 with
  | true =>
    have hone : (1#1 : BitVec 1) = (b1 ++ b0 : Half).extractLsb' 3 1 := by
      rw [extractLsb'_one, hflag]
      rfl
    rw [decodeBackref_of_set hflag] at h
    cases h
    rw [encode, hone]
    exact (congrArg le16 (append₃_extractLsb' (p := 12) (q := 1) (r := 3) _)).trans (le16_append b1 b0)
  | false =>
    cases rest with
    | nil =>
      rw [decodeBackref_of_clear_nil hflag] at h
      cases h
    | cons b2 rest =>
      rw [decodeBackref_of_clear hflag] at h
      cases h
      exact (congrArg le24 (append₃_extractLsb' (p := 12) (q := 10) (r := 2) _)).trans (le24_append b2 b1 b0)

/-! ### Packets and selectors (R102, R104) -/

theorem packetByte_fields (kind : Bool) (cnt : BitVec 7) :
    (packetByte kind cnt).getLsbD 7 = kind ∧ (packetByte kind cnt).extractLsb' 0 7 = cnt := by
  refine ⟨?_, BitVec.extractLsb'_append_eq_right⟩
  rw [packetByte, BitVec.getLsbD_append]
  cases kind <;> rfl

theorem packetByte_of_fields (c : Byte) : packetByte (c.getLsbD 7) (c.extractLsb' 0 7) = c := by
  rw [packetByte, ← extractLsb'_one]
  exact append_extractLsb' (p := 1) (r := 7) c

theorem decodePacket_rep (cnt : BitVec 7) : decodePacket (packetByte constants.rlRepBit cnt) = .instr (.rlRep cnt) := by
  obtain ⟨hkind, hcnt⟩ := packetByte_fields constants.rlRepBit cnt
  rw [decodePacket, if_pos hkind, hcnt]

theorem decodePacket_raw (cnt : BitVec 7) :
    decodePacket (packetByte (!constants.rlRepBit) cnt) = .instr (.rlRaw cnt) := by
  obtain ⟨hkind, hcnt⟩ := packetByte_fields (!constants.rlRepBit) cnt
  rw [decodePacket, if_neg (by rw [hkind]; decide), hcnt]

theorem encode_of_decodePacket {c : Byte} {i : Instr} (h : decodePacket c = .instr i) : encode i = [c] := by
  have hc := packetByte_of_fields c
  unfold decodePacket at h
  split at h
  case isTrue hkind =>
    cases h
    rw [hkind] at hc
    rw [encode, hc]
  case isFalse hkind =>
    cases h
    rw [Bool.eq_not_of_ne hkind] at hc
    rw [encode, hc]

theorem encode_of_decodeSelector {b : Byte} {i : Instr} (h : decodeSelector b = .instr i) : encode i = [b] := by
  unfold decodeSelector at h
  split_ifs at h with hH hV hA <;> cases h
  · rw [hH, encode]
  · rw [hV, encode]
  · rw [hA, encode]

/-! ### The two round trips -/

/-- Settles O1: each constructor's fields are found again in its bytes. -/
theorem decodeGivesBackEncoded : Obligations.DecodeGivesBackEncoded := by
  intro i rest hwf
  cases i with
  | clr | lzd | rld | cup | dlf | dbk => exact decode_command_le16 _ rest
  | bget n => exact (decode_command_le16 _ rest).trans (decodeCommand_bget n)
  | lzCtlb | lzLit | dfH | dfV | dfA => rfl
  | lzShort dist cnt => exact decode_encode_lzShort dist cnt rest
  | lzLong dist c10 lo2 => exact decode_encode_lzLong dist lo2 (by simpa [WellFormed, longCountOk] using hwf) rest
  | rlRep cnt => exact decodePacket_rep cnt
  | rlRaw cnt => exact decodePacket_raw cnt
  | dbkHdr skip depth width height =>
    have hhdr : decode .blockHeader (encode (.dbkHdr skip depth width height) ++ rest) = .instr (.dbkHdr _ _ _ _) := rfl
    rw [append_le16, append_le16, append_le16, append_le16] at hhdr
    exact hhdr

/-- Settles O2: context by context, the bytes that the decoder has taken the fields from are what the encoder writes. -/
theorem encodeGivesBackDecoded : Obligations.EncodeGivesBackDecoded := by
  intro c bs i h
  have hctx := decode_context h
  cases c with
  | command =>
    simp only [decode] at h
    split at h
    · rw [encode_of_decodeCommand h, le16_append, headLength_of_command hctx]
      rfl
    · cases h
  | lzControl | lzLiteral =>
    simp only [decode] at h
    split at h <;> cases h
    rfl
  | lzBackref =>
    simp only [decode] at h
    split at h
    · exact encode_of_decodeBackref h
    · cases h
  | runLength =>
    simp only [decode] at h
    split at h
    · rw [encode_of_decodePacket h]
      cases i <;> cases hctx <;> rfl
    · cases h
  | selector =>
    simp only [decode] at h
    split at h
    · rw [encode_of_decodeSelector h]
      cases i <;> cases hctx <;> rfl
    · cases h
  | blockHeader =>
    simp only [decode] at h
    split at h <;> cases h
    simp only [encode, le16_append]
    rfl

/-- Settles O3: the decoder evaluated on each word. -/
theorem sampleWordsDecode : Obligations.SampleWordsDecode :=
  ⟨rfl, rfl, rfl, rfl, rfl, rfl, rfl, rfl, rfl⟩

end Sys2Proof.Machine
end

