-- ==== Sys2Proof/Proofs/CommandWords.lean ====
section
/-!
PROOFS. Which words written to `CMD` run a command and which fail (30_encoding.md R91, R93), and the repeat counts that
the fields of a back-reference token can spell (R100).
-/
namespace Sys2Proof.Machine

/-! ### Legal and illegal command words -/

theorem opcode_cases : ∀ op : BitVec 4, op.toNat < 7 →
    op = 0#4 ∨ op = 1#4 ∨ op = 2#4 ∨ op = 3#4 ∨ op = 4#4 ∨ op = 5#4 ∨ op = 6#4 := by decide

/-- A word that is not illegal is one of the seven commands, legal as written. -/
theorem decodeCommand_of_legal {c : Half} (h : ¬ IllegalWord c) :
    ∃ i, decodeCommand c = .instr i ∧ WellFormed i = true := by
  simp only [IllegalWord, not_or, not_and, not_not, Nat.not_lt, Nat.not_le] at h
  obtain ⟨hop, hrsv, hn, hcount⟩ := h
  rw [← commandWord_of_fields hrsv]
  rcases opcode_cases _ hop with he | he | he | he | he | he | he
  case inr.inl =>
    rw [he]
    exact ⟨_, decodeCommand_bget _, decide_eq_true (hcount he)⟩
  all_goals
    rw [hn (by rw [he]; decide), he]
    exact ⟨_, rfl, rfl⟩

/-- The one kind of illegal word that the decoder does not reject is `BGET` with a reserved count (log entry 8): a word
that decodes is the encoding of what it decodes to. -/
theorem decodeCommand_of_illegal {c : Half} {i : Instr} (h : IllegalWord c) (hdec : decodeCommand c = .instr i) :
    ∃ n : BitVec 6, 32 < n.toNat ∧ i = .bget n := by
  have henc := encode_of_decodeCommand hdec
  have hctx := decodeCommand_context hdec
  cases i with
  | bget n =>
    obtain ⟨hop, hrsv, hn⟩ := commandWord_fields 0x1#4 n
    rw [← le16_injective henc, IllegalWord, hop, hrsv, hn] at h
    simpa using h
  | clr | lzd | rld | cup | dlf | dbk =>
    rw [← le16_injective henc, IllegalWord] at h
    exact absurd h (by decide)
  | _ => cases hctx

theorem writeCommand_of_decode {c : Half} {i : Instr} (h : decodeCommand c = .instr i) (s : State) :
    writeCommand c s = exec i s := by
  rw [writeCommand, ← List.append_nil (le16 c), decode_command_le16, h]

/-- An illegal word is refused, by the decoder or by the meaning of `BGET` (R93). -/
theorem writeCommand_of_illegal {c : Half} (h : IllegalWord c) (s : State) : writeCommand c s = .next s.refuse := by
  cases hdec : decodeCommand c with
  | instr i =>
    obtain ⟨n, hn, rfl⟩ := decodeCommand_of_illegal h hdec
    rw [writeCommand_of_decode hdec]
    exact if_pos hn
  | reject r => rw [writeCommand, ← List.append_nil (le16 c), decode_command_le16, hdec]

theorem step_writeCommand {s : State} {v : Word} {rest : List HostAction} (hp : s.phase = .host)
    (hpend : s.pending = .writeReg 0x0 v :: rest) :
    step s = writeCommand (v.setWidth 16) { s with pending := rest } := by
  have hcmd : csrOf 0x0 = some .cmd := rfl
  rw [step_pending hp hpend, perform, if_pos hcmd]

/-- Settles O4: the written word is refused or runs the command that it decodes to. -/
theorem illegalCommandWordsFail : Obligations.IllegalCommandWordsFail := by
  intro s v rest hp hpend
  rw [step_writeCommand hp hpend]
  refine ⟨fun hillegal => ?_, fun hlegal => ?_⟩
  · have hfailed : { s with pending := rest }.refuse.statusWord.extractLsb' 0 2 = 2#2 :=
      BitVec.extractLsb'_append_eq_right
    exact ⟨_, writeCommand_of_illegal hillegal _, rfl, hfailed, rfl⟩
  · obtain ⟨i, hdec, hwf⟩ := decodeCommand_of_legal hlegal
    exact ⟨i, hwf, decodeCommand_context hdec, writeCommand_of_decode hdec _⟩

/-! ### Repeat counts -/

theorem shortRepeat_range (cnt : BitVec 3) : 4 ≤ shortRepeat cnt ∧ shortRepeat cnt ≤ 11 := by
  have hcnt := cnt.isLt
  simp only [shortRepeat, constants]
  omega

/-- The two low bits of the count are free below the shifted `c10 + 1`. -/
theorem longRepeat_eq (c10 : BitVec 10) (lo2 : BitVec 2) : longRepeat c10 lo2 = (c10.toNat + 1) * 4 + lo2.toNat := by
  rw [longRepeat, Nat.mul_comm]
  exact (Nat.two_pow_add_eq_or_of_lt (i := 2) lo2.isLt _).symm

theorem getLsbD_one_eq_false_iff {n : Nat} (w : BitVec n) : w.getLsbD 1 = false ↔ w.toNat / 2 % 2 = 0 := by
  rw [BitVec.getLsbD, Nat.testBit_eq_decide_div_mod_eq, decide_eq_false_iff_not]
  omega

theorem longRepeat_range {c10 : BitVec 10} (lo2 : BitVec 2) (h : c10.getLsbD 1 = false) :
    4 ≤ longRepeat c10 lo2 ∧ longRepeat c10 lo2 ≤ 4091 ∧
      (longRepeat c10 lo2 / 4 % 4 = 1 ∨ longRepeat c10 lo2 / 4 % 4 = 2) := by
  rw [getLsbD_one_eq_false_iff] at h
  have hc := c10.isLt
  have hlo := lo2.isLt
  rw [longRepeat_eq]
  omega

theorem exists_longRepeat {n : Nat} (hmin : 4 ≤ n) (hmax : n ≤ 4091) (hmod : n / 4 % 4 = 1 ∨ n / 4 % 4 = 2) :
    ∃ (c10 : BitVec 10) (lo2 : BitVec 2), c10.getLsbD 1 = false ∧ longRepeat c10 lo2 = n := by
  have hc : (BitVec.ofNat 10 (n / 4 - 1)).toNat = n / 4 - 1 := by
    rw [BitVec.toNat_ofNat, Nat.mod_eq_of_lt (by omega)]
  have hlo : (BitVec.ofNat 2 n).toNat = n % 4 := BitVec.toNat_ofNat n 2
  refine ⟨BitVec.ofNat 10 (n / 4 - 1), BitVec.ofNat 2 n, ?_, ?_⟩
  · rw [getLsbD_one_eq_false_iff, hc]
    omega
  · rw [longRepeat_eq, hc, hlo]
    omega

/-- Settles O5: the flag bit of `c10` leaves `c10 + 1` the residues 1 and 2 modulo 4. -/
theorem repeatCountsOfTokens : Obligations.RepeatCountsOfTokens :=
  ⟨fun cnt => ⟨rfl, shortRepeat_range cnt⟩,
    fun c10 lo2 h => ⟨longRepeat_eq c10 lo2, longRepeat_range lo2 h⟩,
    fun _ => exists_longRepeat⟩

end Sys2Proof.Machine
end

