-- ==== Sys2Proof/Proofs/StreamItems.lean ====
section
/-!
PROOFS. How a step inside a running command finds its item (30_encoding.md R94, R106 to R108): the fetch of each phase,
what it gives where the bytes of an item's head are there, and what it raises where they are not.
-/
namespace Sys2Proof.Machine

/-- Settles O22: the guard and the byte are all that the item's meaning writes. -/
theorem lzControlByteRefills : Obligations.LzControlByteRefills := fun _ _ => rfl

/-! ### A step and its fetch -/

theorem step_of_fetch_item {s t : State} {i : Instr} (hp : s.phase ≠ .host) (h : s.fetch = .item i t) :
    step s = exec i t := by
  rw [step, if_neg hp, itemTurn, h]

theorem step_of_fetch_settled {s t : State} (hp : s.phase ≠ .host) (h : s.fetch = .settled t) : step s = .next t := by
  rw [step, if_neg hp, itemTurn, h]

/-! ### The fetch of each phase -/

theorem State.fetch_lzd {s : State} (hp : s.phase = .lzd) (hroom : s.opos.toNat < s.outLen.toNat) :
    s.fetch = s.fetchLz := by
  rw [State.fetch, hp]
  exact if_pos hroom

theorem State.fetch_rld {s : State} (hp : s.phase = .rld) (hroom : s.opos.toNat < s.outLen.toNat) :
    s.fetch = s.fetchAt .runLength .rld := by
  rw [State.fetch, hp]
  exact if_pos hroom

theorem State.fetch_dbkHeader {s : State} (hp : s.phase = .dbkHeader) : s.fetch = s.fetchAt .blockHeader .dbk := by
  rw [State.fetch, hp]

theorem State.fetch_rows {s : State} {c : DeltaCommand} (hp : s.phase = .rows c) : s.fetch = s.fetchRow c := by
  rw [State.fetch, hp]

/-- The control word after the fetch of an LZ item: a token's control bit is taken, a control byte has none (R140). -/
def fetchCtl (ctl : Half) : Half := if ctl.getLsbD 15 then ctlTake ctl else ctl

/-- An LZ item is fetched from the stream, in the context that `CTL` decides. -/
theorem State.fetchLz_eq (s : State) : s.fetchLz = { s with ctl := fetchCtl s.ctl }.fetchAt s.lzContext .lzd := by
  unfold State.fetchLz fetchCtl ctlExhausted
  cases s.ctl.getLsbD 15 <;> rfl

/-- The context by the control bits: the guard above, the next bit below it (R94). -/
theorem State.lzContext_eq (s : State) :
    s.lzContext = if s.ctl.getLsbD 15 then if s.ctl.getLsbD 7 then .lzBackref else .lzLiteral else .lzControl := by
  unfold State.lzContext ctlExhausted ctlBit
  cases s.ctl.getLsbD 15 <;> rfl

/-! ### Truncated heads -/

theorem State.length_streamWindow (s : State) : s.streamWindow.length = min 8 s.avail := s.length_streamFrom _ _

theorem headLength_of_packet {i : Instr} (h : itemContext i = .runLength) : headLength i = 1 := by
  cases i <;> cases h <;> rfl

theorem headLength_of_blockHeader {i : Instr} (h : itemContext i = .blockHeader) : headLength i = 8 := by
  cases i <;> cases h
  rfl

/-- Where every item that the window could hold has a longer head than bytes are left, the fetch raises (R64). -/
theorem State.fetchAt_of_truncated {s : State} {ctx : Context} (cmd : Command)
    (h : ∀ i, decode ctx s.streamWindow = .instr i → s.avail < headLength i) :
    s.fetchAt ctx cmd = .settled (s.raise cmd .outOfData) := by
  rcases s.fetchAt_cases ctx cmd with ⟨i, hi, -⟩ | ⟨-, he⟩
  · have hlen := headLength_le_of_decode hi
    have hshort := h i hi
    rw [s.length_streamWindow] at hlen
    omega
  · exact he

/-- The head of a back-reference: two bytes, and a third where the flag in the first one is 0 (R97 to R99). -/
theorem headLength_of_backref {b : Byte} {bs : List Byte} {i : Instr}
    (h : decode .lzBackref (b :: bs) = .instr i) : headLength i = if b.getLsbD 3 then 2 else 3 := by
  cases bs with
  | nil => cases h
  | cons b1 rest =>
    have hbit : (b1 ++ b : Half).getLsbD 3 = b.getLsbD 3 := BitVec.getLsbD_append
    rw [← hbit]
    cases hflag : (b1 ++ b : Half).getLsbD 3 with
    | true =>
      cases (decodeBackref_of_set hflag rest).symm.trans h
      rfl
    | false =>
      cases rest with
      | nil => cases (decodeBackref_of_clear_nil hflag).symm.trans h
      | cons b2 rest =>
        cases (decodeBackref_of_clear hflag b2 rest).symm.trans h
        rfl

theorem State.streamWindow_of_lt {s : State} (h : s.ipos.toNat < s.inLen.toNat) :
    ∃ rest, s.streamWindow = s.inByte s.ipos.toNat :: rest :=
  ⟨_, s.streamFrom_of_lt h 7⟩

/-- The bytes of an LZ item's head that are needed are not there (R154). -/
def State.lzTruncated (s : State) : Prop :=
  s.avail < 1 ∨ (s.lzContext = .lzBackref ∧
    (s.avail < 2 ∨ (s.avail < 3 ∧ (s.inByte s.ipos.toNat).getLsbD 3 = false)))

theorem State.lt_headLength_of_lzTruncated {s : State} (h : s.lzTruncated) {i : Instr}
    (hi : decode s.lzContext s.streamWindow = .instr i) : s.avail < headLength i := by
  by_cases hone : s.avail < 1
  · exact hone.trans_le (headLength_pos i)
  · obtain ⟨hctx, hshort⟩ := h.resolve_left hone
    obtain ⟨rest, hwindow⟩ := s.streamWindow_of_lt (by unfold State.avail at hone; omega)
    rw [hctx, hwindow] at hi
    rw [headLength_of_backref hi]
    rcases hshort with htwo | ⟨hthree, hflag⟩
    · split <;> omega
    · rwa [hflag]

/-- A truncated LZ head raises; the control word is among what R213 leaves open. -/
theorem State.fetchLz_of_truncated {s : State} (h : s.lzTruncated) :
    s.fetchLz = .settled (s.raise .lzd .outOfData) := by
  rw [s.fetchLz_eq]
  exact State.fetchAt_of_truncated (s := { s with ctl := fetchCtl s.ctl }) _
    fun i => State.lt_headLength_of_lzTruncated h

/-! ### Selectors (R104, R105) -/

/-- The codes that name a filter. -/
def knownSelector (b : Byte) : Prop := b = 1#8 ∨ b = 2#8 ∨ b = 4#8

theorem decodeSelector_of_known {b : Byte} (h : knownSelector b) :
    ∃ i, decodeSelector b = .instr i ∧ itemContext i = .selector := by
  rcases h with rfl | rfl | rfl <;> exact ⟨_, rfl, rfl⟩

theorem decodeSelector_of_unknown {b : Byte} (h : ¬ knownSelector b) :
    decodeSelector b = .reject (.unknownSelector b) := by
  obtain ⟨hH, hV, hA⟩ : b ≠ 1#8 ∧ b ≠ 2#8 ∧ b ≠ 4#8 := by simpa [knownSelector] using h
  exact (if_neg hH).trans ((if_neg hV).trans (if_neg hA))

theorem State.fetchRow_of_unknown {s : State} (c : DeltaCommand) (hrow : s.row < s.height.toNat)
    (h : ¬ knownSelector (s.selByte s.row)) :
    s.fetchRow c = .settled (s.raise c.command (.unknownDeltaFilter (s.selByte s.row))) := by
  rw [State.fetchRow, if_pos hrow, decode, decodeSelector_of_unknown h]

/-! ### The step -/

/-- A step whose fetch raises fails after the command's start, and `OUTV` stays. -/
theorem step_fails {s : State} {c : Command} {f : Failure} (hp : s.phase ≠ .host)
    (h : s.fetch = .settled (s.raise c f)) : ∃ t, step s = .next t ∧ failedAfterStart c f s t ∧ t.outv = s.outv :=
  ⟨_, step_of_fetch_settled hp h, s.raise_failed c f, s.raise_outv c f⟩

/-- Settles O7: phase by phase, the fetch finds the item or raises. -/
theorem stepRunsStreamItem : Obligations.StepRunsStreamItem := by
  intro s fails
  have running {p : Phase} (hp : s.phase = p) (hne : p ≠ .host := by nofun) : s.phase ≠ .host := hp.trans_ne hne
  refine ⟨fun i => ⟨?_, ?_, ?_, ?_⟩, fun hp hroom => ?_, ?_, ?_, ?_⟩
  · intro hp hroom hdec
    refine step_of_fetch_item (running hp) ?_
    rw [State.fetch_lzd hp hroom, s.fetchLz_eq]
    exact State.fetchAt_of_decode (s := { s with ctl := fetchCtl s.ctl }) _ hdec
  · intro hp hroom hdec
    refine step_of_fetch_item (running hp) ?_
    rw [State.fetch_rld hp hroom, State.fetchAt_of_decode _ hdec, headLength_of_packet (decode_context hdec)]
    rfl
  · intro hp hdec
    refine step_of_fetch_item (running hp) ?_
    rw [State.fetch_dbkHeader hp, State.fetchAt_of_decode _ hdec, headLength_of_blockHeader (decode_context hdec)]
    rfl
  · intro c hp hrow hdec
    refine step_of_fetch_item (running hp) ?_
    rw [State.fetch_rows hp, State.fetchRow, if_pos hrow, hdec]
  · have htruncated (h : s.lzTruncated) : fails .lzd .outOfData :=
      step_fails (running hp) ((State.fetch_lzd hp hroom).trans (State.fetchLz_of_truncated h))
    refine ⟨fun _ hone => htruncated (.inl hone), fun _ _ hone => htruncated (.inl hone), fun hguard hbit hshort => ?_⟩
    have hctx : s.lzContext = .lzBackref := by rw [s.lzContext_eq, hguard, hbit]; rfl
    exact htruncated (.inr ⟨hctx, hshort⟩)
  · intro hp hroom hone
    exact step_fails (running hp) ((State.fetch_rld hp hroom).trans
      (State.fetchAt_of_truncated _ fun i _ => hone.trans_le (headLength_pos i)))
  · intro hp hshort
    refine step_fails (running hp) ((State.fetch_dbkHeader hp).trans (State.fetchAt_of_truncated _ fun i hdec => ?_))
    rwa [headLength_of_blockHeader (decode_context hdec)]
  · intro c hp hrow hH hV hA
    have hunknown : ¬ knownSelector (s.selByte s.row) := by simp [knownSelector, hH, hV, hA]
    exact step_fails (running hp) ((State.fetch_rows hp).trans (State.fetchRow_of_unknown c hrow hunknown))

end Sys2Proof.Machine
end

