-- ==== Sys2Proof/Proofs/Appended.lean ====
section
/-!
PROOFS. Which bytes the items of the LZ and the run-length stream append (41_lz_backref.md R145 to R151;
42_run_length.md R161 to R163): one relation for bytes read and bytes appended, one induction over the loops that stop when the output is
full, and for each item what its loop takes the bytes from.
-/
namespace Sys2Proof.Machine

/-! ### Bytes appended -/

/-- `t` is `s` after `r` bytes of the stream were read and `n` bytes were appended to the output; `f` gives the byte at
each address of the output. -/
structure Appended (r n : Nat) (f : Nat → Byte) (s t : State) : Prop where
  frame : t = { s with ipos := s.ipos + BitVec.ofNat 32 r, opos := s.opos + BitVec.ofNat 32 n, outBuf := t.outBuf }
  read : ∀ a, t.outBuf.read a =
    if s.opos.toNat ≤ a ∧ a < s.opos.toNat + n then some (f a) else s.outBuf.read a

namespace Appended

variable {r n q m : Nat} {f : Nat → Byte} {s t u : State}

theorem ipos (h : Appended r n f s t) : t.ipos = s.ipos + BitVec.ofNat 32 r := by rw [h.frame]

theorem opos_toNat (h : Appended r n f s t) (hn : s.opos.toNat + n < 2 ^ 32) : t.opos.toNat = s.opos.toNat + n := by
  rw [h.frame, opos_add_toNat hn]

theorem outLen (h : Appended r n f s t) : t.outLen = s.outLen := by rw [h.frame]

theorem inLen (h : Appended r n f s t) : t.inLen = s.inLen := by rw [h.frame]

theorem channels (h : Appended r n f s t) : t.channels = s.channels := by rw [h.frame]

theorem inByte (h : Appended r n f s t) (a : Nat) : t.inByte a = s.inByte a := by
  rw [h.frame]
  rfl

theorem refl (s : State) : Appended 0 0 f s s where
  frame := by simp
  read a := by rw [if_neg (by omega)]

theorem trans (hn : s.opos.toNat + n < 2 ^ 32) (h : Appended r n f s t) (k : Appended q m f t u) :
    Appended (r + q) (n + m) f s u where
  frame := by
    rw [k.frame, h.frame]
    simp only [BitVec.ofNat_add, BitVec.add_assoc]
  read a := by
    rw [k.read, h.read, h.opos_toNat hn]
    split_ifs <;> first | rfl | omega

theorem outPut (s : State) {v : Byte} (hv : v = f s.opos.toNat) : Appended 0 1 f s (s.outPut v) where
  frame := by simp [State.outPut]
  read a := by
    rw [State.outPut_outBuf, Mem.read_write]
    split_ifs with heq hin hin
    · rw [hv, heq]
    · omega
    · omega
    · rfl

theorem consume (s : State) (r : Nat) : Appended r 0 f s (s.consume r) where
  frame := by simp [State.consume]
  read a := by rw [if_neg (by omega)]; rfl

end Appended

/-! ### The loops that stop when the output is full -/

/-- A loop that stops when the output is full and otherwise reads `r` bytes and appends a chunk of `c` bytes each turn:
it makes `k` turns, or as many as there are chunks `q` of room (R151, R163). `ok` is what its turns keep. -/
theorem appended_loop {loop : Nat → State → State} {ok : Nat → Nat → State → Prop} {r c : Nat} {f : Nat → Byte}
    (hzero : ∀ s, loop 0 s = s) (hfull : ∀ k s, s.opos = s.outLen → loop k s = s)
    (hturn : ∀ k q s, s.opos ≠ s.outLen → s.opos.toNat + c ≤ s.outLen.toNat → ok (k + 1) (q + 1) s →
      ∃ t, Appended r c f s t ∧ loop (k + 1) s = loop k t ∧ ok k q t) :
    ∀ k q s, s.outLen.toNat = s.opos.toNat + q * c → (c = 0 → q = 0) → ok k q s →
      Appended (min k q * r) (min k q * c) f s (loop k s)
  | 0, q, s, _, _, _ => by
    rw [hzero, Nat.zero_min, Nat.zero_mul, Nat.zero_mul]
    exact .refl s
  | k + 1, 0, s, hroom, _, _ => by
    have hend : s.opos = s.outLen := BitVec.eq_of_toNat_eq (by omega)
    rw [hfull _ s hend, Nat.min_zero, Nat.zero_mul, Nat.zero_mul]
    exact .refl s
  | k + 1, q + 1, s, hroom, hc, hok => by
    have hpos : 0 < c := Nat.pos_of_ne_zero fun hz => nomatch hc hz
    rw [Nat.succ_mul] at hroom
    have hne : s.opos ≠ s.outLen := fun he => by
      rw [he] at hroom
      omega
    obtain ⟨t, hcopy, hloop, hrest⟩ := hturn k q s hne (by omega) hok
    have hwrap : s.opos.toNat + c < 2 ^ 32 := by omega
    have hopos : t.opos.toNat = s.opos.toNat + c := hcopy.opos_toNat hwrap
    have hrun := appended_loop hzero hfull hturn k q t (by rw [hcopy.outLen]; omega) (fun hz => by omega) hrest
    rw [hloop, Nat.succ_min_succ, Nat.succ_mul, Nat.succ_mul, Nat.add_comm _ r, Nat.add_comm _ c]
    exact hcopy.trans hwrap hrun

/-! ### Bytes taken from the stream -/

/-- The byte of the stream that stands as far after the byte cursor as `a` after the output cursor. -/
def State.ahead (s : State) (a : Nat) : Byte := s.inByte (s.ipos.toNat + (a - s.opos.toNat))

/-- From the output cursor on, `f` gives the bytes of the stream in order. -/
def State.follows (s : State) (f : Nat → Byte) : Prop := ∀ a, s.opos.toNat ≤ a → f a = s.ahead a

/-- Bytes read and appended one for one go on in order, as far as they stand in the stream. -/
theorem Appended.follows_next {n : Nat} {f : Nat → Byte} {s t : State} (h : Appended n n f s t) (hin : n ≤ s.avail)
    (hwrap : s.opos.toNat + n < 2 ^ 32) (hs : s.follows f) : t.avail = s.avail - n ∧ t.follows f := by
  have hend := s.inLen.isLt
  have hcursor := s.ipos.isLt
  unfold State.avail at hin
  have hipos : t.ipos.toNat = s.ipos.toNat + n := by rw [h.ipos, opos_add_toNat (by omega)]
  have hopos : t.opos.toNat = s.opos.toNat + n := h.opos_toNat hwrap
  refine ⟨?_, fun a ha => ?_⟩
  · rw [State.avail, State.avail, h.inLen, hipos, Nat.sub_add_eq]
  · have hsame : s.ipos.toNat + n + (a - (s.opos.toNat + n)) = s.ipos.toNat + (a - s.opos.toNat) := by omega
    rw [hs a (by omega), State.ahead, State.ahead, h.inByte, hipos, hopos, hsame]

/-- `InRead8()` where a byte is left. -/
theorem State.inRead8_of_avail {s : State} (h : 0 < s.avail) :
    s.inRead8 = some (s.inByte s.ipos.toNat, s.consume 1) :=
  State.inRead8_eq_some.mpr ⟨Nat.lt_of_sub_pos h, rfl, rfl⟩

/-- One byte read and appended. -/
theorem appended_readPut {f : Nat → Byte} {s : State} (hs : s.follows f) :
    Appended 1 1 f s ((s.consume 1).outPut (s.inByte s.ipos.toNat)) := by
  have hbyte : s.inByte s.ipos.toNat = f s.opos.toNat := by
    rw [hs _ (Nat.le_refl _), State.ahead, Nat.sub_self, Nat.add_zero]
  exact (Appended.consume s 1).trans s.opos.isLt (.outPut _ hbyte)

theorem lzLitLoop_of_full {s : State} (h : s.opos = s.outLen) : ∀ k, lzLitLoop k s = s
  | 0 => rfl
  | _ + 1 => if_pos h

/-- The literal loop appends the bytes that follow in the stream (R145). -/
theorem lzLitLoop_appended {f : Nat → Byte} {k q : Nat} {s : State} (hroom : s.outLen.toNat = s.opos.toNat + q * 1)
    (hin : min k q ≤ s.avail) (hs : s.follows f) : Appended (min k q * 1) (min k q * 1) f s (lzLitLoop k s) := by
  refine appended_loop (ok := fun k q s => min k q ≤ s.avail ∧ s.follows f) (fun _ => rfl)
    (fun k _ hfull => lzLitLoop_of_full hfull k) ?_ k q s hroom nofun ⟨hin, hs⟩
  intro k q s hne hle ⟨hin, hs⟩
  rw [Nat.succ_min_succ] at hin
  have hcopy := appended_readPut hs
  obtain ⟨havail, hnext⟩ := hcopy.follows_next (by omega) (by omega) hs
  refine ⟨_, hcopy, ?_, by omega, hnext⟩
  rw [lzLitLoop, if_neg hne, State.inRead8_of_avail (by omega)]

/-- A chunk that stands in the stream is copied in order (R162). -/
theorem copyChunk_appended {f : Nat → Byte} : ∀ k {s : State}, k ≤ s.avail → s.opos.toNat + k < 2 ^ 32 →
    s.follows f → ∃ t, copyChunk k s = some t ∧ Appended k k f s t
  | 0, s, _, _, _ => ⟨s, rfl, .refl s⟩
  | k + 1, s, hin, hwrap, hs => by
    have hone := appended_readPut hs
    have hfits : s.opos.toNat + 1 < 2 ^ 32 := by omega
    obtain ⟨havail, hnext⟩ := hone.follows_next (by omega) hfits hs
    obtain ⟨t, hchunk, hrest⟩ := copyChunk_appended k (by omega) (by rw [hone.opos_toNat hfits]; omega) hnext
    refine ⟨t, ?_, Nat.add_comm 1 k ▸ hone.trans hfits hrest⟩
    rw [copyChunk, State.inRead8_of_avail (by omega)]
    exact hchunk

theorem rlRawLoop_of_full {s : State} (h : s.opos = s.outLen) : ∀ k, rlRawLoop k s = s
  | 0 => rfl
  | _ + 1 => if_pos h

/-- The raw loop copies whole chunks in order (R162). -/
theorem rlRawLoop_appended {f : Nat → Byte} {k q : Nat} {s : State}
    (hroom : s.outLen.toNat = s.opos.toNat + q * s.channels.toNat) (hc : s.channels.toNat = 0 → q = 0)
    (hin : min k q * s.channels.toNat ≤ s.avail) (hs : s.follows f) :
    Appended (min k q * s.channels.toNat) (min k q * s.channels.toNat) f s (rlRawLoop k s) := by
  generalize hchunk : s.channels.toNat = c at hroom hc hin ⊢
  refine appended_loop (ok := fun k q s => s.channels.toNat = c ∧ min k q * c ≤ s.avail ∧ s.follows f) (fun _ => rfl)
    (fun k _ hfull => rlRawLoop_of_full hfull k) ?_ k q s hroom hc ⟨hchunk, hin, hs⟩
  intro k q s hne hle ⟨hchunk, hin, hs⟩
  rw [Nat.succ_min_succ, Nat.succ_mul] at hin
  obtain ⟨t, hcopied, hcopy⟩ := copyChunk_appended c (s := s) (by omega) (by omega) hs
  obtain ⟨havail, hnext⟩ := hcopy.follows_next (by omega) (by omega) hs
  refine ⟨t, hcopy, ?_, hcopy.channels ▸ hchunk, by omega, hnext⟩
  rw [rlRawLoop, if_neg hne, hchunk, hcopied]

/-! ### Bytes taken from the output -/

/-- The bytes `dist` back from the output cursor, repeated with that period; with period 0 the bytes that stand at the
output cursor (R149, R150). -/
def State.cycle (s : State) (dist a : Nat) : Byte :=
  s.outByte (s.opos.toNat - dist + (a - s.opos.toNat) % dist)

/-- The first byte of the cycle appended, the cycle goes on with its next byte. -/
theorem State.cycle_outPut {s : State} {dist a : Nat} (hdist : dist ≤ s.opos.toNat)
    (hroom : s.opos.toNat < s.outLen.toNat) (ha : s.opos.toNat < a) :
    (s.outPut (s.outByte (s.opos.toNat - dist))).cycle dist a = s.cycle dist a := by
  have hopos : (s.opos + 1#32).toNat = s.opos.toNat + 1 := ipos_add_one hroom
  obtain ⟨i, rfl⟩ : ∃ i, a = s.opos.toNat + (i + 1) := ⟨a - s.opos.toNat - 1, by omega⟩
  have hnext : s.opos.toNat + (i + 1) - (s.opos.toNat + 1) = i := by omega
  rw [State.cycle, State.cycle, State.outByte_outPut, State.outPut_opos, hopos, hnext, Nat.add_sub_cancel_left]
  rcases Nat.eq_zero_or_pos dist with rfl | hpos
  · rw [Nat.mod_zero, Nat.mod_zero, if_neg (by omega)]
    congr 1
    omega
  · have hmod := Nat.mod_lt i hpos
    rw [← Nat.mod_add_mod i dist 1]
    by_cases hlast : i % dist + 1 = dist
    · rw [hlast, Nat.mod_self, if_pos (by omega), Nat.add_zero]
    · rw [Nat.mod_eq_of_lt (by omega : i % dist + 1 < dist), if_neg (by omega)]
      congr 1
      omega

/-- The copy loop repeats the cycle (R149). -/
theorem lzCopyLoop_appended {f : Nat → Byte} {dist k q : Nat} {s : State}
    (hroom : s.outLen.toNat = s.opos.toNat + q * 1) (hdist : dist ≤ s.opos.toNat)
    (hs : ∀ a, s.opos.toNat ≤ a → f a = s.cycle dist a) :
    Appended (min k q * 0) (min k q * 1) f s (lzCopyLoop k (s.opos.toNat - dist) s) := by
  refine appended_loop (loop := fun k s => lzCopyLoop k (s.opos.toNat - dist) s)
    (ok := fun _ _ s => dist ≤ s.opos.toNat ∧ ∀ a, s.opos.toNat ≤ a → f a = s.cycle dist a) (fun _ => rfl)
    (fun k s hfull => lzCopyLoop_of_full hfull k _) ?_ k q s hroom nofun ⟨hdist, hs⟩
  intro k q s hne hle ⟨hdist, hs⟩
  have hfirst : s.outByte (s.opos.toNat - dist) = f s.opos.toNat := by
    rw [hs _ (Nat.le_refl _), State.cycle, Nat.sub_self, Nat.zero_mod, Nat.add_zero]
  have hcopy := Appended.outPut s hfirst
  have hopos : (s.outPut (s.outByte (s.opos.toNat - dist))).opos.toNat = s.opos.toNat + 1 := hcopy.opos_toNat (by omega)
  refine ⟨_, hcopy, ?_, by omega, fun a ha => ?_⟩
  · have hsrc : s.opos.toNat + 1 - dist = s.opos.toNat - dist + 1 := by omega
    simp only [hopos, hsrc]
    exact if_neg hne
  · rw [hs a (by omega), State.cycle_outPut hdist (by omega) (by omega)]

/-! ### Bytes taken from a chunk -/

theorem putChunk_appended {f : Nat → Byte} : ∀ (bs : List Byte) {s : State}, s.opos.toNat + bs.length < 2 ^ 32 →
    (∀ j (hj : j < bs.length), bs[j] = f (s.opos.toNat + j)) → Appended 0 bs.length f s (putChunk bs s)
  | [], s, _, _ => .refl s
  | b :: bs, s, hwrap, hs => by
    rw [List.length_cons] at hwrap
    have hone : Appended 0 1 f s (s.outPut b) := .outPut s (hs 0 (by simp))
    have hopos : (s.outPut b).opos.toNat = s.opos.toNat + 1 := hone.opos_toNat (by omega)
    have hrest := putChunk_appended bs (s := s.outPut b) (f := f) (by omega) fun j hj => by
      rw [hopos, Nat.add_assoc, Nat.add_comm 1 j]
      exact hs (j + 1) (Nat.succ_lt_succ hj)
    rw [List.length_cons, Nat.add_comm]
    exact hone.trans (by omega) hrest

/-- The bytes of the chunk that the stream holds at the byte cursor. -/
def State.chunk (s : State) (c : Nat) : List Byte := (List.range c).map fun j => s.inByte (s.ipos.toNat + j)

@[simp] theorem State.length_chunk (s : State) (c : Nat) : (s.chunk c).length = c := by simp [State.chunk]

theorem State.consume_consume (s : State) (m n : Nat) : (s.consume m).consume n = s.consume (m + n) := by
  simp [State.consume, BitVec.ofNat_add, BitVec.add_assoc]

theorem State.chunk_succ {s : State} (h : 0 < s.avail) (c : Nat) :
    s.chunk (c + 1) = s.inByte s.ipos.toNat :: (s.consume 1).chunk c := by
  have hipos : (s.consume 1).ipos.toNat = s.ipos.toNat + 1 := ipos_add_one (Nat.lt_of_sub_pos h)
  rw [State.chunk, State.chunk, hipos, List.range_succ_eq_map, List.map_cons, List.map_map]
  refine congrArg _ (List.map_congr_left fun j _ => ?_)
  show s.inByte (s.ipos.toNat + (j + 1)) = s.inByte (s.ipos.toNat + 1 + j)
  rw [Nat.add_assoc, Nat.add_comm 1 j]

/-- A chunk that stands in the stream is read in full (R161). -/
theorem readChunk_eq : ∀ c {s : State}, c ≤ s.avail → readChunk c s = some (s.chunk c, s.consume c)
  | 0, s, _ => by simp [readChunk, State.chunk, State.consume]
  | c + 1, s, hin => by
    have hpos : 0 < s.avail := by omega
    have havail : s.avail = (s.consume 1).avail + 1 := State.avail_of_inRead8 (State.inRead8_of_avail hpos)
    have hrest : c ≤ (s.consume 1).avail := by omega
    simp only [readChunk, State.inRead8_of_avail hpos, readChunk_eq c hrest, State.chunk_succ hpos]
    rw [State.consume_consume, Nat.add_comm]

theorem rlRepLoop_of_full {s : State} (h : s.opos = s.outLen) (chunk : List Byte) : ∀ k, rlRepLoop chunk k s = s
  | 0 => rfl
  | _ + 1 => if_pos h

/-- The repeat loop appends the chunk again and again (R161). -/
theorem rlRepLoop_appended {f g : Nat → Byte} {chunk : List Byte} {k q : Nat} {s : State}
    (hroom : s.outLen.toNat = s.opos.toNat + q * chunk.length) (hc : chunk.length = 0 → q = 0)
    (hchunk : ∀ j (hj : j < chunk.length), chunk[j] = g j)
    (hs : ∀ a, s.opos.toNat ≤ a → f a = g ((a - s.opos.toNat) % chunk.length)) :
    Appended (min k q * 0) (min k q * chunk.length) f s (rlRepLoop chunk k s) := by
  refine appended_loop (ok := fun _ _ s => ∀ a, s.opos.toNat ≤ a → f a = g ((a - s.opos.toNat) % chunk.length))
    (fun _ => rfl) (fun k _ hfull => rlRepLoop_of_full hfull chunk k) ?_ k q s hroom hc hs
  intro k q s hne hle hs
  have hcopy : Appended 0 chunk.length f s (putChunk chunk s) :=
    putChunk_appended chunk (by omega) fun j hj => by
      rw [hs _ (Nat.le_add_right _ _), Nat.add_sub_cancel_left, Nat.mod_eq_of_lt hj, hchunk j hj]
  refine ⟨_, hcopy, if_neg hne, fun a ha => ?_⟩
  rw [hcopy.opos_toNat (by omega)] at ha ⊢
  rw [hs a (by omega), Nat.sub_add_eq, Nat.mod_eq_sub_mod (by omega)]

/-! ### The items -/

/-- Whole chunks of room. -/
theorem room_chunks {s : State} {c : Nat} (hle : s.opos.toNat ≤ s.outLen.toNat)
    (hdvd : c ∣ s.outLen.toNat - s.opos.toNat) :
    s.outLen.toNat = s.opos.toNat + (s.outLen.toNat - s.opos.toNat) / c * c := by
  rw [Nat.div_mul_cancel hdvd]
  omega

/-- Settles O23: the literal loop with the room in bytes. -/
theorem lzLitCopiesFromStream : Obligations.LzLitCopiesFromStream := by
  intro n s hle k hin
  have hcopy : Appended (k * 1) (k * 1) s.ahead s (s.lzLit n) :=
    lzLitLoop_appended (by omega) hin fun _ _ => rfl
  rw [Nat.mul_one] at hcopy
  exact ⟨_, rfl, hcopy.frame, hcopy.read⟩

/-- A back-reference within the output repeats the cycle (R147, R149). -/
theorem lzCopy_appended {s : State} {dist : Nat} (count : Nat) (hdist : dist ≤ s.opos.toNat)
    (hle : s.opos.toNat ≤ s.outLen.toNat) :
    Appended 0 (min count (s.outLen.toNat - s.opos.toNat)) (s.cycle dist) s (s.lzCopy dist count) := by
  have hcopy := lzCopyLoop_appended (f := s.cycle dist) (k := count) (q := s.outLen.toNat - s.opos.toNat) (s := s)
    (by omega) hdist fun _ _ => rfl
  rw [Nat.mul_zero, Nat.mul_one] at hcopy
  rwa [State.lzCopy, if_neg (Nat.not_lt.mpr hdist)]

/-- Nothing is read where 0 bytes are. -/
theorem Appended.frame_of_unread {n : Nat} {f : Nat → Byte} {s t : State} (h : Appended 0 n f s t) :
    t = { s with opos := s.opos + BitVec.ofNat 32 n, outBuf := t.outBuf } := by
  have hframe := h.frame
  rwa [BitVec.add_zero] at hframe

/-- Settles O25: the copy with the short token's count. -/
theorem lzShortCopiesCyclically : Obligations.LzShortCopiesCyclically := by
  intro dist cnt s hdist hle k
  have hcopy : Appended 0 k (s.cycle dist.toNat) s (s.lzShort dist cnt) := lzCopy_appended _ hdist hle
  exact ⟨_, rfl, hcopy.frame_of_unread, hcopy.read⟩

/-- Settles O26: the copy with the long token's count. -/
theorem lzLongCopiesCyclically : Obligations.LzLongCopiesCyclically := by
  intro dist c10 lo2 s _ hdist hle k
  have hcopy : Appended 0 k (s.cycle dist.toNat) s (s.lzLong dist c10 lo2) := by
    rw [State.lzLong, longRepeat_eq]
    exact lzCopy_appended _ hdist hle
  exact ⟨_, rfl, hcopy.frame_of_unread, hcopy.read⟩

/-- Settles O30: the chunk is read, then repeated. -/
theorem rlRepRepeatsChunk : Obligations.RlRepRepeatsChunk := by
  intro cnt s c k hin hle hdvd
  let f (a : Nat) : Byte := s.inByte (s.ipos.toNat + (a - s.opos.toNat) % c)
  have hrep : s.rlRep cnt = rlRepLoop (s.chunk c) (packetCount cnt) (s.consume c) := by
    rw [State.rlRep, readChunk_eq c hin]
  have hlen : (s.chunk c).length = c := s.length_chunk c
  have hloop : Appended 0 (k * c) f (s.consume c) (s.rlRep cnt) := by
    have h := rlRepLoop_appended (f := f) (g := fun j => s.inByte (s.ipos.toNat + j)) (chunk := s.chunk c)
      (k := packetCount cnt) (q := (s.outLen.toNat - s.opos.toNat) / c) (s := s.consume c)
      (hlen.symm ▸ room_chunks hle hdvd) (fun hz => by rw [hlen] at hz; rw [hz, Nat.div_zero])
      (fun j hj => by simp [State.chunk]) (fun a _ => by rw [hlen]; rfl)
    rwa [Nat.mul_zero, hlen, ← hrep] at h
  have hcopy : Appended c (k * c) f s (s.rlRep cnt) := by
    have h := (Appended.consume s c).trans s.opos.isLt hloop
    rwa [Nat.zero_add] at h
  exact ⟨_, rfl, hcopy.frame, hcopy.read⟩

/-- Settles O31: the raw loop with the room in chunks. -/
theorem rlRawCopiesChunks : Obligations.RlRawCopiesChunks := by
  intro cnt s c k hin hle hdvd
  have hcopy : Appended (k * c) (k * c) s.ahead s (s.rlRaw cnt) :=
    rlRawLoop_appended (room_chunks hle hdvd) (fun hz => (congrArg _ hz).trans (Nat.div_zero _)) hin fun _ _ => rfl
  exact ⟨_, rfl, hcopy.frame, hcopy.read⟩

end Sys2Proof.Machine
end

