-- ==== Sys2Proof/Proofs/DeltaItems.lean ====
section
/-!
PROOFS. The delta unit's own items: what the header of a block loads (44_delta_filter.md R188 to R190), and the order of
`DLF`'s failures (R181, R182): the size checks, then the rows up to the first unknown selector.
-/
namespace Sys2Proof.Machine

/-! ### The selectors of a block -/

/-- The selectors that the load puts into `SEL` are the next bytes of the stream in order (R189). -/
theorem read_loadSelectors : ∀ k y {s : State}, k ≤ s.avail → ∀ a, (loadSelectors k y s).selBuf.read a =
    if y ≤ a ∧ a < y + k then some (s.inByte (s.ipos.toNat + (a - y))) else s.selBuf.read a
  | 0, y, s, _, a => by
    rw [if_neg (by omega)]
    rfl
  | k + 1, y, s, hk, a => by
    have hpos : 0 < s.avail := by omega
    let t : State := { s.consume 1 with selBuf := s.selBuf.write y (s.inByte s.ipos.toNat) }
    have hload : loadSelectors (k + 1) y s = loadSelectors k (y + 1) t := by
      rw [loadSelectors, State.inRead8_of_avail hpos]
      rfl
    have hipos : t.ipos.toNat = s.ipos.toNat + 1 := ipos_add_one (Nat.lt_of_sub_pos hpos)
    have havail : s.avail = t.avail + 1 :=
      State.avail_of_inRead8 (t := s.consume 1) (State.inRead8_of_avail hpos)
    have hbuf : t.selBuf.read a = if a = y then some (s.inByte s.ipos.toNat) else s.selBuf.read a :=
      Mem.read_write _ _ _ _
    have hbyte (x : Nat) : t.inByte x = s.inByte x := rfl
    rw [hload, read_loadSelectors k (y + 1) (by omega), hipos, hbuf, hbyte]
    rcases Nat.lt_trichotomy a y with hlt | rfl | hgt
    · rw [if_neg (by omega), if_neg (by omega), if_neg (by omega)]
    · rw [if_neg (by omega), if_pos rfl, if_pos (by omega), Nat.sub_self, Nat.add_zero]
    · have hnext : s.ipos.toNat + 1 + (a - (y + 1)) = s.ipos.toNat + (a - y) := by omega
      rw [if_neg (show a ≠ y by omega), hnext]
      exact if_congr (by omega) rfl rfl

/-- Settles O42: the header that matches loads the selectors after it. -/
theorem blockHeaderLoadsSelectors : Obligations.BlockHeaderLoadsSelectors := by
  intro skip depth width height s hw hh havail
  have hmatch : ¬ s.hdrMismatch width height := by
    simp only [State.hdrMismatch, not_or, not_not, Nat.not_lt]
    exact ⟨hw, hh, havail⟩
  have hexec : exec (.dbkHdr skip depth width height) s = .next (s.dbkHdr depth width height) := rfl
  obtain ⟨m, hm⟩ := loadSelectors_eq s.height.toNat 0 { s with depth := depth } havail
  have hread := read_loadSelectors s.height.toNat 0 (s := { s with depth := depth }) havail
  rw [hm] at hread
  rw [hexec, State.dbkHdr_of_match hmatch, hm]
  refine ⟨_, rfl, rfl, fun a => (hread a).trans (if_congr (by omega) ?_ rfl)⟩
  rw [Nat.sub_zero]
  rfl

/-! ### The failures of `DLF` -/

/-- The row counter stands beside everything that is copied. -/
theorem Copied.withRow {n : Nat} {s t : State} (h : Copied n s t) (r : Nat) :
    Copied n { s with row := r } { t with row := r } where
  frame := by rw [h.frame]
  ipos_le := h.ipos_le
  ipos_in := h.ipos_in
  held := h.held

theorem State.raise_withRow (s : State) (r : Nat) (c : Command) (f : Failure) :
    { s with row := r }.raise c f = s.raise c f := by
  cases c <;> rfl

theorem Copied.selByte {n : Nat} {s t : State} (h : Copied n s t) (y : Nat) : t.selByte y = s.selByte y := by
  rw [h.frame]
  rfl

/-- A row under a known selector is appended, and the next row's turn comes (R180). -/
theorem turn_of_known {s : State} {c : DeltaCommand} (hp : s.phase = .rows c) (hrow : s.row < s.height.toNat)
    (h : knownSelector (s.selByte s.row)) : ∃ t, Copied s.stride s t ∧ s.turn = { t with row := s.row + 1 } := by
  obtain ⟨i, hdec, hctx⟩ := decodeSelector_of_known h
  have hturn : s.turn = runItem i s := by
    rw [State.turn_eq, State.fetch_rows hp, State.fetchRow, if_pos hrow, decode, hdec]
    rfl
  have happends (value : State → Nat → Byte) :
      ∃ t, Copied s.stride s t ∧ s.deltaRow value = { t with row := s.row + 1 } :=
    let ⟨t, hcopy, _, heq⟩ := deltaRow_copied s value
    ⟨t, hcopy, heq⟩
  rw [hturn]
  cases i <;> cases hctx
  case dfH => exact happends State.dfHValue
  case dfV => exact happends State.dfVValue
  case dfA => exact happends State.dfAValue

theorem turn_of_unknown {s : State} {c : DeltaCommand} (hp : s.phase = .rows c) (hrow : s.row < s.height.toNat)
    (h : ¬ knownSelector (s.selByte s.row)) :
    s.turn = s.raise c.command (.unknownDeltaFilter (s.selByte s.row)) := by
  rw [State.turn_eq, State.fetch_rows hp, State.fetchRow_of_unknown c hrow h]
  rfl

/-- The row loop, `d` rows before the first unknown selector, appends those rows and raises (R182). -/
theorem rows_fail {c : DeltaCommand} : ∀ d {s : State} {k : Nat}, s.phase = .rows c →
    s.row + d < s.height.toNat → d < k → (∀ x, s.row ≤ x → x < s.row + d → knownSelector (s.selByte x)) →
    ¬ knownSelector (s.selByte (s.row + d)) →
    ∃ n u, Copied n s u ∧
      runToEnd k s = some (u.raise c.command (.unknownDeltaFilter (s.selByte (s.row + d))))
  | 0, s, k + 1, hp, hrow, _, _, hbad => by
    refine ⟨0, s, .refl s, ?_⟩
    rw [runToEnd_succ, turn_of_unknown hp hrow hbad]
    exact runToEnd_of_host (s.raise_phase _ _) k
  | d + 1, s, k + 1, hp, hrow, hk, hgood, hbad => by
    obtain ⟨t, hcopy, hturn⟩ := turn_of_known hp (by omega) (hgood s.row (Nat.le_refl _) (by omega))
    let v : State := { t with row := s.row + 1 }
    have hsel (y : Nat) : v.selByte y = s.selByte y := hcopy.selByte y
    have hheight : v.height = s.height := by
      show t.height = s.height
      rw [hcopy.frame]
    have hnext : v.row + d = s.row + (d + 1) := Nat.add_right_comm _ _ _
    obtain ⟨n, u, hrest, hend⟩ := rows_fail d (s := v) (k := k) (hcopy.phase.trans hp)
      (by rw [hheight]; omega) (by omega)
      (fun x hlow hhigh => hsel x ▸ hgood x (Nat.le_of_succ_le hlow) (by omega)) (by rwa [hsel, hnext])
    have hback : Copied n t { u with row := t.row } := hrest.withRow t.row
    refine ⟨_, _, hcopy.trans hback, ?_⟩
    rw [runToEnd_succ, hturn, State.raise_withRow, ← hnext, ← hsel]
    exact hend

/-- A failure of the started `DLF` leaves what R213 defines as it was before the command, and `OUTV` cleared. -/
theorem dlf_failed {s u : State} {n r : Nat} {p : Phase} (h : Copied n { s.dlfStart with phase := p, row := r } u)
    (f : Failure) : failedAfterStart .dlf f s (u.raise .dlf f) ∧ (u.raise .dlf f).outv = false := by
  rw [h.frame]
  exact ⟨by simp [failedAfterStart, State.raise, State.forget, State.dlfStart], rfl⟩

/-- A `DLF` that is not refused is the run of its body (R180). -/
theorem exec_dlf {s t : State} (hin : s.inLen.toNat ≤ s.inCap) (hout : s.total ≤ s.outCap)
    (h : runToEnd (s.height.toNat + 2) (s.dlfStart.bodyChecks .dlf) = some t) : exec .dlf s = .next t := by
  have hturn : s.dlfStart.turn = s.dlfStart.bodyChecks .dlf := State.turn_eq _
  rw [exec, execDlf, if_neg (Nat.not_lt.mpr hin), if_neg (Nat.not_lt.mpr hout), runCommand_eq_next, State.deltaFuel,
    runToEnd_succ, hturn, h]

theorem State.bodyChecks_of_mismatch {s : State} (c : DeltaCommand)
    (h : s.avail < s.total ∨ s.selLen.toNat < s.height.toNat) : s.bodyChecks c = s.raise c.command .sizeMismatch := by
  rcases s.bodyChecks_cases c with ⟨-, he⟩ | ⟨-, -, he⟩ | ⟨hpayload, hsels, -⟩
  · exact he
  · exact he
  · omega

theorem State.bodyChecks_of_match {s : State} (c : DeltaCommand) (hpayload : s.total ≤ s.avail)
    (hsels : s.height.toNat ≤ s.selLen.toNat) : s.bodyChecks c = { s with phase := .rows c, row := 0 } :=
  (if_neg (Nat.not_lt.mpr hpayload)).trans (if_neg (Nat.not_lt.mpr hsels))

/-- Settles O41: the body's checks raise, or the rows before the first unknown selector are appended. -/
theorem dlfFailuresInOrder : Obligations.DlfFailuresInOrder := by
  intro s hin hout
  refine ⟨fun hsize => ?_, fun hpayload hsels y hy hgood hH hV hA => ?_⟩
  · have hchecks : s.dlfStart.bodyChecks .dlf = s.dlfStart.raise .dlf .sizeMismatch :=
      State.bodyChecks_of_mismatch .dlf hsize
    have hrun : runToEnd (s.height.toNat + 2) (s.dlfStart.bodyChecks .dlf) =
        some (s.dlfStart.raise .dlf .sizeMismatch) := by
      rw [hchecks]
      exact runToEnd_of_host (State.raise_phase _ _ _) _
    exact ⟨_, exec_dlf hin hout hrun, dlf_failed (.refl s.dlfStart) _⟩
  · let first : State := { s.dlfStart with phase := .rows .dlf, row := 0 }
    have hchecks : s.dlfStart.bodyChecks .dlf = first := State.bodyChecks_of_match .dlf hpayload hsels
    have hrow : first.row + y = y := Nat.zero_add y
    have hbad : ¬ knownSelector (s.selByte y) := by simp [knownSelector, hH, hV, hA]
    obtain ⟨n, u, hcopy, hrun⟩ := rows_fail (c := .dlf) y (s := first) (k := s.height.toNat + 2) rfl
      (hrow.symm ▸ hy) (by omega) (fun x _ hx => hgood x (hrow ▸ hx)) (hrow.symm ▸ hbad)
    rw [hrow] at hrun
    have hexec : exec .dlf s = .next (u.raise .dlf (.unknownDeltaFilter (s.selByte y))) :=
      exec_dlf hin hout (by rw [hchecks]; exact hrun)
    obtain ⟨hfailed, houtv⟩ := dlf_failed hcopy (.unknownDeltaFilter (s.selByte y))
    have hinfo : (u.raise .dlf (.unknownDeltaFilter (s.selByte y))).errInfo.toNat = (s.selByte y).toNat := by
      rw [State.raise_errInfo, Failure.info, BitVec.toNat_setWidth, Nat.mod_eq_of_lt (by omega)]
    exact ⟨_, hexec, hfailed, hinfo, houtv⟩

end Sys2Proof.Machine
end

/-!
PROOFS. `BGET` twice and at a byte boundary (R132): the value of a run of bits splits at any bit, and the bits of a
byte, taken from the top, are the byte.
-/
namespace Sys2Proof.Machine

/-! ### The value of a run of bits -/

/-- The value of the bits splits at every bit. -/
theorem State.bitsValue_add (s : State) (p a : Nat) :
    ∀ b, s.bitsValue p (a + b) = s.bitsValue p a * 2 ^ b + s.bitsValue (p + a) b
  | 0 => by simp [State.bitsValue]
  | b + 1 => by
    rw [← Nat.add_assoc, State.bitsValue, State.bitsValue, s.bitsValue_add p a b, Nat.pow_succ, Nat.add_assoc p]
    ring

/-- Eight bits from a byte boundary on are the byte: bit 7 comes first (R62). -/
theorem State.bitsValue_byte (s : State) (k : Nat) : s.bitsValue (8 * k) 8 = (s.inByte k).toNat := by
  refine Nat.eq_of_testBit_eq fun i => ?_
  rcases Nat.lt_or_ge i 8 with hi | hi
  · have hflip : 8 - 1 - (7 - i) = i := by omega
    have hbyte : (8 * k + (7 - i)) / 8 = k := by omega
    have hbit : 7 - (8 * k + (7 - i)) % 8 = i := by omega
    have htaken := s.testBit_bitsValue (8 * k) 8 (7 - i) (by omega)
    rw [hflip, State.bitAt, hbyte, hbit] at htaken
    exact htaken
  · have hpow : 2 ^ 8 ≤ 2 ^ i := Nat.pow_le_pow_right (by decide) hi
    rw [Nat.testBit_lt_two_pow ((s.bitsValue_lt _ 8).trans_le hpow),
      Nat.testBit_lt_two_pow ((s.inByte k).isLt.trans_le hpow)]

/-- A byte after `n` bits that end at a byte boundary stands below them. -/
theorem State.bitsValue_append_byte {s : State} {p n k : Nat} {x : BitVec n} (hx : s.bitsValue p n = x.toNat)
    (hend : p + n = 8 * k) : s.bitsValue p (n + 8) = (x ++ s.inByte k).toNat := by
  rw [s.bitsValue_add, hx, hend, s.bitsValue_byte, BitVec.toNat_append,
    ← Nat.shiftLeft_add_eq_or_of_lt (s.inByte k).isLt, Nat.shiftLeft_eq]

/-- Four bytes from a byte boundary on, big-endian (D8). -/
theorem State.bitsValue_four_bytes (s : State) (k : Nat) :
    s.bitsValue (8 * k) 32 = (s.inByte k ++ s.inByte (k + 1) ++ s.inByte (k + 2) ++ s.inByte (k + 3)).toNat :=
  State.bitsValue_append_byte
    (State.bitsValue_append_byte (State.bitsValue_append_byte (s.bitsValue_byte k) rfl) rfl) rfl

/-! ### A `BGET` that completes -/

/-- `BRES` holds the whole value of at most 32 bits (R131). -/
theorem State.bget_bres_toNat {s : State} {n : Nat} (hn : n ≤ 32) (hleft : n ≤ s.bitsLeft) :
    (s.bget n).bres.toNat = s.bitsValue s.bpos.toNat n := by
  have hpow : 2 ^ n ≤ 2 ^ 32 := Nat.pow_le_pow_right (by decide) hn
  rw [State.bget_of_le hleft, BitVec.toNat_ofNat, Nat.mod_eq_of_lt ((s.bitsValue_lt _ n).trans_le hpow)]

theorem State.bget_st {s : State} {n : Nat} (hleft : n ≤ s.bitsLeft) : (s.bget n).st = .done := by
  rw [State.bget_of_le hleft]

theorem State.bget_inLen {s : State} {n : Nat} (hleft : n ≤ s.bitsLeft) : (s.bget n).inLen = s.inLen := by
  rw [State.bget_of_le hleft]

theorem State.bget_inCap {s : State} {n : Nat} (hleft : n ≤ s.bitsLeft) : (s.bget n).inCap = s.inCap := by
  rw [State.bget_of_le hleft]
  rfl

/-- The cursor moves without wrap (R131). -/
theorem State.bget_bpos_toNat {s : State} {n : Nat} (hin : s.inLen.toNat ≤ s.inCap) (hleft : n ≤ s.bitsLeft) :
    (s.bget n).bpos.toNat = s.bpos.toNat + n := by
  rw [State.bget_of_le hleft]
  exact bpos_add_toNat hin hleft

/-- `BGET` reads the stream and does not write it. -/
theorem State.bget_bitsValue {s : State} {n : Nat} (hleft : n ≤ s.bitsLeft) (p m : Nat) :
    (s.bget n).bitsValue p m = s.bitsValue p m := by
  rw [State.bget_of_le hleft]
  exact State.bitsValue_congr fun _ _ => rfl

/-- What a first read leaves is what a longer one has still to read (R131). -/
theorem State.le_bitsLeft_bget {s : State} {a b : Nat} (hin : s.inLen.toNat ≤ s.inCap) (hleft : a + b ≤ s.bitsLeft) :
    b ≤ (s.bget a).bitsLeft := by
  have ha : a ≤ s.bitsLeft := Nat.le_of_add_right_le hleft
  have hpos := State.bget_bpos_toNat hin ha
  unfold State.bitsLeft at hleft
  rw [State.bitsLeft, State.bget_inLen ha, hpos]
  omega

/-- Two reads leave what one read of all their bits leaves, but for `BRES` (R132). -/
theorem State.bget_bget {s : State} {a b : Nat} (hin : s.inLen.toNat ≤ s.inCap) (hleft : a + b ≤ s.bitsLeft) :
    (s.bget a).bget b = { s.bget (a + b) with bres := ((s.bget a).bget b).bres } := by
  rw [State.bget_of_le (State.le_bitsLeft_bget hin hleft), State.bget_of_le (Nat.le_of_add_right_le hleft),
    State.bget_of_le hleft, BitVec.ofNat_add, ← BitVec.add_assoc]

/-! ### The statements -/

/-- Settles O19: the second read starts where the first ended, and the value of the bits splits there. -/
theorem bgetSplitsAnywhere : Obligations.BgetSplitsAnywhere := by
  intro a b c s hsum hc hin hleft
  have ha : a.toNat ≤ 32 := by omega
  have hb : b.toNat ≤ 32 := by omega
  have hfirst : a.toNat ≤ s.bitsLeft := by omega
  have hboth : a.toNat + b.toNat ≤ s.bitsLeft := hsum ▸ hleft
  have hsecond := State.le_bitsLeft_bget hin hboth
  have hin' : (s.bget a.toNat).inLen.toNat ≤ (s.bget a.toNat).inCap := by
    rwa [State.bget_inLen hfirst, State.bget_inCap hfirst]
  refine ⟨_, _, _, exec_bget ha hin, exec_bget hb hin', exec_bget hc hin, ?_, ?_⟩
  · rw [State.bget_bres_toNat hc hleft, State.bget_bres_toNat ha hfirst, State.bget_bres_toNat hb hsecond,
      State.bget_bpos_toNat hin hfirst, State.bget_bitsValue hfirst, hsum, s.bitsValue_add]
  · rw [hsum]
    exact State.bget_bget hin hboth

/-- Settles O20: the bits from a byte boundary on are whole bytes, the first on top. -/
theorem bgetAtByteBoundary : Obligations.BgetAtByteBoundary := by
  intro s k hin hpos
  refine ⟨fun hk => ?_, fun hk => ?_⟩
  · have hleft : 8 ≤ s.bitsLeft := by
      unfold State.bitsLeft
      omega
    refine ⟨_, exec_bget (by decide) hin, State.bget_st hleft, BitVec.eq_of_toNat_eq ?_⟩
    calc (s.bget 8).bres.toNat
      _ = s.bitsValue (8 * k) 8 := by rw [State.bget_bres_toNat (by decide) hleft, hpos]
      _ = (s.inByte k).toNat := s.bitsValue_byte k
      _ = ((s.inByte k).setWidth 32).toNat := (BitVec.toNat_setWidth_of_le (by decide)).symm
  · have hleft : 32 ≤ s.bitsLeft := by
      unfold State.bitsLeft
      omega
    refine ⟨_, exec_bget (by decide) hin, State.bget_st hleft, BitVec.eq_of_toNat_eq ?_⟩
    calc (s.bget 32).bres.toNat
      _ = s.bitsValue (8 * k) 32 := by rw [State.bget_bres_toNat (by decide) hleft, hpos]
      _ = _ := s.bitsValue_four_bytes k

end Sys2Proof.Machine

/-!
PROOFS. The control word, the bounds check of a back-reference and the first literal token of an `LZD` (41_lz_backref.md
R140 to R147, R151, R152): a control word is a guard byte above the byte of control bits, and both shift together; the
check is the only failure of a back-reference; a literal that covers the output ends the command.
-/
namespace Sys2Proof.Machine

/-! ### The two bytes of the control word -/

/-- A refill puts the full guard above the control byte (R142). -/
theorem ctlRefill_eq_append (b : Byte) : ctlRefill b = 0xFF#8 ++ b := by
  rw [BitVec.append_def]
  rfl

theorem ctlTake_append (g b : Byte) : ctlTake (g ++ b) = (g <<< 1) ++ (b <<< 1) := by
  have hguard : (g ++ b : Half).extractLsb' 8 8 = g := BitVec.extractLsb'_append_eq_left
  have hbits : (g ++ b : Half).extractLsb' 0 8 = b := BitVec.extractLsb'_append_eq_right
  rw [ctlTake, hguard, hbits]

theorem ctlTake_iterate_append (g b : Byte) : ∀ t, ctlTake^[t] (g ++ b) = (g <<< t) ++ (b <<< t)
  | 0 => by simp
  | t + 1 => by
    rw [Function.iterate_succ_apply', ctlTake_iterate_append g b t, ctlTake_append, ← BitVec.shiftLeft_add,
      ← BitVec.shiftLeft_add]

theorem ctlBit_append (g b : Byte) : ctlBit (g ++ b) = b.getLsbD 7 := BitVec.getLsbD_append

theorem ctlExhausted_append (g b : Byte) : ctlExhausted (g ++ b) = !g.getLsbD 7 := by
  rw [ctlExhausted, BitVec.getLsbD_append]
  rfl

/-- After `t` shifts the top bit is the one that stood `t` places below it. -/
theorem getLsbD_seven_shiftLeft (b : Byte) {t : Nat} (h : t < 8) : (b <<< t).getLsbD 7 = b.getLsbD (7 - t) := by
  have hlow : ¬ 7 < t := by omega
  rw [BitVec.getLsbD_shiftLeft, decide_eq_false hlow]
  rfl

/-- Settles O21: the guard lasts for eight takes, and the top bit of the lower byte is the next control bit. -/
theorem controlBitsComeMsbFirst : Obligations.ControlBitsComeMsbFirst := by
  intro b
  rw [ctlRefill_eq_append]
  refine ⟨fun t ht => ⟨?_, ?_, ctlTake_iterate_append _ _ t⟩, ?_, ctlExhausted_zero⟩
  · have hguard : (0xFF#8).getLsbD (7 - t) = true := by
      rw [show 0xFF#8 = BitVec.allOnes 8 from rfl, BitVec.getLsbD_allOnes]
      exact decide_eq_true (by omega)
    rw [ctlTake_iterate_append, ctlExhausted_append, getLsbD_seven_shiftLeft _ ht, hguard, Bool.not_true]
  · rw [ctlTake_iterate_append, ctlBit_append, getLsbD_seven_shiftLeft _ ht]
  · rw [ctlTake_iterate_append, BitVec.shiftLeft_eq_zero (Nat.le_refl 8), BitVec.shiftLeft_eq_zero (Nat.le_refl 8)]
    rfl

/-! ### The bounds check of a back-reference -/

/-- `i` is a back-reference token with look-behind `dist` (R146, R148). -/
def isBackref (i : Instr) (dist : BitVec 12) : Prop :=
  (∃ cnt, i = .lzShort dist cnt) ∨ ∃ c10 lo2, i = .lzLong dist c10 lo2

/-- Both tokens are the one copy, with counts of their own. -/
theorem exec_backref {i : Instr} {dist : BitVec 12} (h : isBackref i dist) (s : State) :
    ∃ count, exec i s = .next (s.lzCopy dist.toNat count) := by
  rcases h with ⟨cnt, rfl⟩ | ⟨c10, lo2, rfl⟩
  · exact ⟨shortRepeat cnt, rfl⟩
  · exact ⟨longRepeat c10 lo2, rfl⟩

/-- The copy loop raises nothing, wherever the output cursor stands. -/
theorem lzCopyLoop_copied : ∀ k src s, ∃ n, Copied n s (lzCopyLoop k src s)
  | 0, _, s => ⟨0, .refl s⟩
  | k + 1, src, s => by
    unfold lzCopyLoop
    split
    · exact ⟨0, .refl s⟩
    · obtain ⟨n, hrest⟩ := lzCopyLoop_copied k (src + 1) (s.outPut (s.outByte src))
      exact ⟨1 + n, (copied_outPut s _).trans hrest⟩

/-- Settles O27: beyond the check there is only the copy loop. -/
theorem backReferenceBoundsCheck : Obligations.BackReferenceBoundsCheck := by
  intro i dist s hi
  obtain ⟨count, hexec⟩ := exec_backref hi s
  refine ⟨fun hbad => ⟨_, hexec, ?_⟩, fun hok => ⟨_, hexec, ?_⟩⟩
  · rw [State.lzCopy, if_pos hbad]
    exact s.raise_failed .lzd .badBackReference
  · rw [State.lzCopy, if_neg (Nat.not_lt.mpr hok)]
    obtain ⟨n, hcopy⟩ := lzCopyLoop_copied count (s.opos.toNat - dist.toNat) s
    rw [hcopy.frame]
    exact ⟨rfl, rfl, rfl, rfl⟩

/-! ### A literal token that covers the output -/

/-- The turn of a literal: the control bit 0 is taken, and the count byte is consumed (R144, R145). -/
theorem State.turn_lzLiteral {s : State} (hp : s.phase = .lzd) (hroom : s.opos.toNat < s.outLen.toNat)
    (hctl : ctlExhausted s.ctl = false) (hbit : ctlBit s.ctl = false) (hin : s.ipos.toNat < s.inLen.toNat) :
    s.turn = ({ s with ctl := ctlTake s.ctl }.consume 1).lzLit (s.inByte s.ipos.toNat) := by
  have hctx : s.lzContext = .lzLiteral := by simp [State.lzContext, hctl, hbit]
  have hdec : decode .lzLiteral s.streamWindow = .instr (.lzLit (s.inByte s.ipos.toNat)) := by
    rw [State.streamWindow, constants, State.streamFrom_of_lt hin, decode]
  have hfetch : s.fetchLz = { s with ctl := ctlTake s.ctl }.fetchAt .lzLiteral .lzd := by
    simp [State.fetchLz, hctl, hctx]
  rw [s.turn_lzd hp hroom, hfetch, State.fetchAt_of_decode (s := { s with ctl := ctlTake s.ctl }) _ hdec]
  rfl

/-- The state in which a literal starts to copy when its token follows a control byte. -/
def State.atLiteral (s : State) : State :=
  { s.consume 2 with ctl := ctlTake (ctlRefill (s.inByte s.ipos.toNat)) }

/-- The two turns of an `LZD` whose control word is exhausted over a control byte with first bit 0 and a literal. -/
theorem turns_of_literal_token {s : State} (hp : s.phase = .lzd) (hctl : ctlExhausted s.ctl = true)
    (hroom : s.opos.toNat < s.outLen.toNat) (hbit : (s.inByte s.ipos.toNat).getLsbD 7 = false)
    (hin : s.ipos.toNat + 2 ≤ s.inLen.toNat) :
    s.turn.turn = s.atLiteral.lzLit (s.inByte (s.ipos.toNat + 1)) := by
  obtain ⟨hfresh, hfirst⟩ := ctl_of_refill (s.inByte s.ipos.toNat)
  let u : State := (s.consume 1).lzCtlb (s.inByte s.ipos.toNat)
  have hu : s.turn = u := State.turn_lzControl hp hroom hctl (by omega)
  have hipos : u.ipos.toNat = s.ipos.toNat + 1 := ipos_add_one (n := s.inLen) (by omega)
  have hstart : { u with ctl := ctlTake u.ctl }.consume 1 = s.atLiteral :=
    congrArg (fun v : State => { v with ctl := ctlTake u.ctl }) (s.consume_consume 1 1)
  have hturn := State.turn_lzLiteral (s := u) hp hroom hfresh (hfirst.trans hbit)
    (by rw [hipos]; show _ < s.inLen.toNat; omega)
  rw [hu, hturn, hstart, hipos]
  rfl

/-- A literal that covers the room in the output copies exactly that many bytes (R145, R151). -/
theorem lzLit_fills {n : Byte} {s : State} (hle : s.opos.toNat ≤ s.outLen.toNat)
    (hcover : s.outLen.toNat - s.opos.toNat ≤ n.toNat) (hin : s.outLen.toNat - s.opos.toNat ≤ s.avail) :
    Appended (s.outLen.toNat - s.opos.toNat) (s.outLen.toNat - s.opos.toNat) s.ahead s (s.lzLit n) := by
  have hmin : min n.toNat (s.outLen.toNat - s.opos.toNat) = s.outLen.toNat - s.opos.toNat := Nat.min_eq_right hcover
  have hcopy := lzLitLoop_appended (f := s.ahead) (k := n.toNat) (q := s.outLen.toNat - s.opos.toNat) (s := s)
    (by omega) (hmin.symm ▸ hin) fun _ _ => rfl
  rwa [hmin, Nat.mul_one] at hcopy

/-- An `LZD` within capacity over at least two bytes whose third turn ends it. -/
theorem exec_lzd_of_three_turns {s t : State} (hin : s.inLen.toNat ≤ s.inCap) (hout : s.outLen.toNat ≤ s.outCap)
    (hfuel : 2 ≤ s.inLen.toNat) (hturns : s.lzdStart.turn.turn.turn = t) (hend : t.phase = .host) :
    exec .lzd s = .next t := by
  have hthree : s.streamFuel = s.inLen.toNat - 2 + s.outLen.toNat + 3 := by
    unfold State.streamFuel
    omega
  rw [exec, execLzd, if_neg (Nat.not_lt.mpr hin), if_neg (Nat.not_lt.mpr hout), runCommand_eq_next, hthree,
    runToEnd_succ, runToEnd_succ, runToEnd_succ, hturns]
  exact runToEnd_of_host hend _

/-- Settles O29: a control byte, a literal that fills the output, and the turn that completes. -/
theorem lzdOfOneLiteralToken : Obligations.LzdOfOneLiteralToken := by
  intro s hin hcap hpos hbit hcover hstream
  let v : State := s.lzdStart.atLiteral
  let u : State := v.lzLit (s.inByte (s.ipos.toNat + 1))
  have hipos : v.ipos.toNat = s.ipos.toNat + 2 := by
    have hlen := s.inLen.isLt
    exact opos_add_toNat (p := s.ipos) (by omega)
  have hturns : s.lzdStart.turn.turn = u := turns_of_literal_token rfl ctlExhausted_zero hpos hbit
    (by show s.ipos.toNat + 2 ≤ s.inLen.toNat; omega)
  have hcopy : Appended s.outLen.toNat s.outLen.toNat v.ahead v u := lzLit_fills (s := v) (Nat.zero_le _) hcover (by
    rw [State.avail, hipos]
    show s.outLen.toNat ≤ s.inLen.toNat - _
    omega)
  have hctl : v.ctl = 0xFE#8 ++ (s.inByte s.ipos.toNat <<< 1) :=
    (congrArg ctlTake (ctlRefill_eq_append _)).trans (ctlTake_append _ _)
  have hframe : u = { v with ipos := s.ipos + 2#32 + s.outLen, opos := s.outLen, outBuf := u.outBuf } := by
    have h := hcopy.frame
    have hopos : v.opos + s.outLen = s.outLen := BitVec.zero_add _
    rwa [BitVec.ofNat_toNat, BitVec.setWidth_eq, hopos] at h
  have hend : u.turn = u.complete := State.turn_lzd_full (by rw [hframe]; rfl) (by rw [hframe]; rfl)
  refine ⟨u.complete, exec_lzd_of_three_turns hin hcap (by omega) (hturns.symm ▸ hend) rfl, ?_, fun a => ?_⟩
  · rw [← hctl, hframe]
    rfl
  · have hread := hcopy.read a
    have hzero : v.opos.toNat = 0 := rfl
    have hstart : v.outBuf.read a = if a < s.outLen.toNat then some 0#8 else none := Mem.read_zeros _ a
    have hbyte : v.inByte (s.ipos.toNat + 2 + a) = s.inByte (s.ipos.toNat + 2 + a) := rfl
    rw [State.ahead, hipos, hzero, hstart, Nat.zero_add, Nat.sub_zero, hbyte] at hread
    rw [State.complete_outBuf, hread]
    by_cases ha : a < s.outLen.toNat <;> simp [ha]

end Sys2Proof.Machine

/-!
PROOFS. A run-length packet at the ends of the stream and of the output (42_run_length.md R160 to R164): a chunk byte
that the stream does not hold is a failure, with what R213 defines unchanged; a first packet that covers the image ends
an `RLD`.
-/
namespace Sys2Proof.Machine

/-! ### Truncated packets -/

/-- A chunk read makes the rest of the stream shorter by its bytes. -/
theorem State.avail_of_readChunk : ∀ {k : Nat} {s t : State} {bs : List Byte},
    readChunk k s = some (bs, t) → s.avail = t.avail + k
  | 0, s, t, bs, h => by
    cases h
    rfl
  | k + 1, s, t, bs, h => by
    unfold readChunk at h
    split at h
    · cases h
    · split at h <;> cases h
      rw [State.avail_of_inRead8 ‹_›, State.avail_of_readChunk ‹_›, Nat.add_assoc]

/-- A chunk copied makes the rest of the stream shorter by its bytes. -/
theorem State.avail_of_copyChunk : ∀ {k : Nat} {s t : State}, copyChunk k s = some t → s.avail = t.avail + k
  | 0, s, t, h => by
    cases h
    rfl
  | k + 1, s, t, h => by
    unfold copyChunk at h
    split at h
    case h_1 => cases h
    case h_2 b u hread =>
      have hrest : u.avail = t.avail + k := State.avail_of_copyChunk (s := u.outPut b) h
      rw [State.avail_of_inRead8 hread, hrest, Nat.add_assoc]

/-- `RL.REP` reads its chunk before all else, and raises when the stream does not hold it (R161). -/
theorem rlRep_truncated {s : State} (cnt : BitVec 7) (hshort : s.avail < s.channels.toNat) :
    s.rlRep cnt = s.raise .rld .outOfData := by
  unfold State.rlRep
  split
  case h_1 => rfl
  case h_2 hread =>
    have havail := State.avail_of_readChunk hread
    omega

/-- The raw loop raises when fewer bytes are left than the chunks it is to copy: after the whole chunks that are left,
it is still not at the end of the output (R162, R163). -/
theorem rlRawLoop_truncated : ∀ k q {s : State}, s.outLen.toNat = s.opos.toNat + q * s.channels.toNat →
    s.avail < min k q * s.channels.toNat → ∃ n u, Copied n s u ∧ rlRawLoop k s = u.raise .rld .outOfData
  | 0, q, s, _, hshort => by
    rw [Nat.zero_min, Nat.zero_mul] at hshort
    omega
  | k + 1, 0, s, _, hshort => by
    rw [Nat.min_zero, Nat.zero_mul] at hshort
    omega
  | k + 1, q + 1, s, hroom, hshort => by
    rw [Nat.succ_min_succ, Nat.succ_mul] at hshort
    rw [Nat.succ_mul] at hroom
    have hfull : s.opos ≠ s.outLen := fun he => by
      have hnone : s.channels.toNat = 0 := by
        rw [he] at hroom
        omega
      rw [hnone, Nat.mul_zero] at hshort
      omega
    rw [rlRawLoop, if_neg hfull]
    cases hread : copyChunk s.channels.toNat s with
    | none => exact ⟨0, s, .refl s, rfl⟩
    | some t =>
      have hcopy : Copied s.channels.toNat s t := copied_copyChunk hread
      have havail : s.avail = t.avail + s.channels.toNat := State.avail_of_copyChunk hread
      have hopos : t.opos.toNat = s.opos.toNat + s.channels.toNat := hcopy.opos_toNat (by omega)
      obtain ⟨n, u, hrest, hend⟩ := rlRawLoop_truncated k q (s := t)
        (by rw [hcopy.outLen, hopos, hcopy.channels]; omega) (by rw [hcopy.channels]; omega)
      exact ⟨_, u, hcopy.trans hrest, hend⟩

/-- Settles O32: the repeat packet raises at once, the literal run after the chunks that are left, which write nothing
that R213 defines. -/
theorem runLengthTruncatedFails : Obligations.RunLengthTruncatedFails := by
  refine fun cnt s => ⟨fun hshort => ?_, fun hle hdvd hshort => ?_⟩
  · have hexec : exec (.rlRep cnt) s = .next (s.raise .rld .outOfData) := congrArg _ (rlRep_truncated cnt hshort)
    exact ⟨_, hexec, s.raise_failed _ _⟩
  · obtain ⟨n, u, hcopy, hend⟩ := rlRawLoop_truncated (packetCount cnt) _ (room_chunks hle hdvd) hshort
    have hexec : exec (.rlRaw cnt) s = .next (u.raise .rld .outOfData) := congrArg _ hend
    exact ⟨_, hexec, hcopy.raise_failed (c := .rld) nofun _⟩

/-! ### A packet that covers the image -/

/-- Bit 7 set is a repeat packet (R102). -/
theorem decodePacket_of_set {c : Byte} (h : c.getLsbD 7 = true) :
    decodePacket c = .instr (.rlRep (c.extractLsb' 0 7)) := if_pos h

/-- Bit 7 clear is a literal run (R102). -/
theorem decodePacket_of_clear {c : Byte} (h : c.getLsbD 7 = false) :
    decodePacket c = .instr (.rlRaw (c.extractLsb' 0 7)) := if_neg (by rw [h]; nofun)

/-- The turn of a packet: its control byte is consumed, and its kind is that byte's bit 7 (R102, R160). -/
theorem State.turn_rld {s : State} {i : Instr} (hp : s.phase = .rld) (hroom : s.opos.toNat < s.outLen.toNat)
    (hin : s.ipos.toNat < s.inLen.toNat) (hdec : decodePacket (s.inByte s.ipos.toNat) = .instr i) :
    s.turn = runItem i (s.consume 1) := by
  obtain ⟨rest, hwindow⟩ := State.streamWindow_of_lt hin
  have hitem : decode .runLength s.streamWindow = .instr i := by rw [hwindow, decode, hdec]
  have hlen : headLength i = 1 := headLength_of_packet (decodePacket_context hdec)
  rw [State.turn_eq, State.fetch_rld hp hroom, State.fetchAt_of_decode _ hitem, hlen]
  rfl

/-- When the output is full, `RLD` completes (R160). -/
theorem State.turn_rld_full {s : State} (hp : s.phase = .rld) (hfull : s.opos = s.outLen) : s.turn = s.complete := by
  have hnot : ¬ s.opos.toNat < s.outLen.toNat := hfull ▸ Nat.lt_irrefl _
  rw [State.turn_eq, State.fetch, hp]
  exact congrArg _ (if_neg hnot)

/-- An `RLD` within capacity over at least one byte whose second turn ends it. -/
theorem exec_rld_of_two_turns {s t : State} (hin : s.inLen.toNat ≤ s.inCap) (hout : s.total ≤ s.outCap)
    (hfuel : 0 < s.inLen.toNat) (hturns : s.rldStart.turn.turn = t) (hend : t.phase = .host) :
    exec .rld s = .next t := by
  have htwo : s.streamFuel = s.inLen.toNat - 1 + s.outLen.toNat + 2 := by
    unfold State.streamFuel
    omega
  rw [exec, execRld, if_neg (Nat.not_lt.mpr hin), if_neg (Nat.not_lt.mpr hout), runCommand_eq_next, htwo,
    runToEnd_succ, runToEnd_succ, hturns]
  exact runToEnd_of_host hend _

/-- Where the count covers the pixels, the chunks that a packet writes to a started `RLD` are the whole image (R163). -/
theorem chunks_of_rldStart {s : State} {n : Nat} (hout : s.total ≤ s.outCap)
    (hcover : s.width.toNat * s.height.toNat ≤ n) :
    min n ((s.rldStart.outLen.toNat - s.rldStart.opos.toNat) / s.channels.toNat) * s.channels.toNat = s.total := by
  have hroom : s.rldStart.outLen.toNat - s.rldStart.opos.toNat = s.total := declared_toNat hout
  rw [hroom]
  rcases Nat.eq_zero_or_pos s.channels.toNat with hc | hc
  · rw [State.total, hc, Nat.mul_zero, Nat.mul_zero]
  · rw [State.total, Nat.mul_div_cancel _ hc, Nat.min_eq_right hcover]

/-- An `RLD` within capacity whose first packet fills the output: it completes with what the packet leaves (R160). -/
theorem exec_rld_of_filling_packet {s t : State} {i : Instr} (hin : s.inLen.toNat ≤ s.inCap)
    (hout : s.total ≤ s.outCap) (hpos : 0 < s.total) (hbyte : s.ipos.toNat < s.inLen.toNat)
    (hdec : decodePacket (s.inByte s.ipos.toNat) = .instr i) (hitem : exec i (s.rldStart.consume 1) = .next t)
    (hp : t.phase = .rld) (hfull : t.opos = t.outLen) : exec .rld s = .next t.complete := by
  have hroom : s.rldStart.opos.toNat < s.rldStart.outLen.toNat := hpos.trans_eq (declared_toNat hout).symm
  have hrun : exec i (s.rldStart.consume 1) = .next (runItem i (s.rldStart.consume 1)) :=
    exec_item (by simp [isItem, decodePacket_context hdec]) _
  have hfirst : s.rldStart.turn = t := by
    rw [State.turn_rld rfl hroom hbyte hdec]
    exact Host.Outcome.next.inj (hrun.symm.trans hitem)
  have hlast : t.turn = t.complete := State.turn_rld_full hp hfull
  exact exec_rld_of_two_turns hin hout (by omega) (hfirst.symm ▸ hlast) rfl

/-- An `RLD` whose first packet reads `r` bytes after its control byte and appends the whole image, the byte `f a` at
each address `a`: it completes with that image (R160, R163). -/
theorem exec_rld_of_covering_packet {s t : State} {i : Instr} {r : Nat} {f : Nat → Byte}
    (hin : s.inLen.toNat ≤ s.inCap) (hout : s.total ≤ s.outCap) (hpos : 0 < s.total)
    (hbyte : s.ipos.toNat < s.inLen.toNat) (hdec : decodePacket (s.inByte s.ipos.toNat) = .instr i)
    (hitem : exec i (s.rldStart.consume 1) = .next t) (hcopy : Appended r s.total f (s.rldStart.consume 1) t) :
    ∃ u, exec .rld s = .next u ∧
      u = { s with
        st := .done, outv := true, err := none, errInfo := 0#32, ipos := s.ipos + BitVec.ofNat 32 (1 + r),
        opos := BitVec.ofNat 32 s.total, outLen := BitVec.ofNat 32 s.total, outBuf := u.outBuf, phase := .host,
        row := 0 } ∧
      ∀ a, u.outBuf.read a = if a < s.total then some (f a) else none := by
  have hframe : t = { s.rldStart with
      ipos := s.ipos + BitVec.ofNat 32 (1 + r), opos := BitVec.ofNat 32 s.total, outBuf := t.outBuf } := by
    have hopos : (s.rldStart.consume 1).opos + BitVec.ofNat 32 s.total = BitVec.ofNat 32 s.total := BitVec.zero_add _
    have h := hcopy.frame
    rwa [State.consume_ipos, BitVec.add_assoc, ← BitVec.ofNat_add, hopos] at h
  have hexec : exec .rld s = .next t.complete :=
    exec_rld_of_filling_packet hin hout hpos hbyte hdec hitem (by rw [hframe]; rfl) (by rw [hframe]; rfl)
  refine ⟨t.complete, hexec, ?_, fun a => ?_⟩
  · rw [hframe]
    rfl
  · have hstart : (s.rldStart.consume 1).outBuf.read a = if a < s.total then some 0#8 else none :=
      (Mem.read_zeros _ a).trans (by rw [declared_toNat hout])
    have hzero : (s.rldStart.consume 1).opos.toNat = 0 := rfl
    rw [State.complete_outBuf, hcopy.read, hstart, hzero, Nat.zero_add]
    by_cases ha : a < s.total <;> simp [ha]

/-- Settles O34: the packet alone, by O30 and O31, is the image. -/
theorem rldOfOnePacket : Obligations.RldOfOnePacket := by
  intro s c hin hout hpos hcover
  let v : State := s.rldStart.consume 1
  have hchunks := chunks_of_rldStart hout hcover
  have hroom : v.outLen.toNat - v.opos.toNat = s.total := declared_toNat hout
  have hdvd : v.channels.toNat ∣ v.outLen.toNat - v.opos.toNat := hroom ▸ s.channels_dvd_total
  have hipos (h : s.ipos.toNat < s.inLen.toNat) : v.ipos.toNat = s.ipos.toNat + 1 := ipos_add_one h
  have havail (h : s.ipos.toNat < s.inLen.toNat) : v.avail = s.inLen.toNat - (s.ipos.toNat + 1) :=
    congrArg (s.inLen.toNat - ·) (hipos h)
  refine ⟨fun hkind hstream => ?_, fun hkind hstream => ?_⟩
  · have hbyte : s.ipos.toNat < s.inLen.toNat := by omega
    obtain ⟨t, hitem, hframe, hread⟩ := rlRepRepeatsChunk (c.extractLsb' 0 7) v
      (by rw [havail hbyte]; show s.channels.toNat ≤ _; omega) (Nat.zero_le _) hdvd
    have hcopy : Appended s.channels.toNat s.total
        (fun a => s.inByte (s.ipos.toNat + 1 + a % s.channels.toNat)) v t := by
      rw [← hchunks, ← hipos hbyte]
      exact ⟨hframe, hread⟩
    exact exec_rld_of_covering_packet hin hout hpos hbyte (decodePacket_of_set hkind) hitem hcopy
  · have hbyte : s.ipos.toNat < s.inLen.toNat := by omega
    obtain ⟨t, hitem, hframe, hread⟩ := rlRawCopiesChunks (c.extractLsb' 0 7) v
      (hchunks.trans_le (by rw [havail hbyte]; omega)) (Nat.zero_le _) hdvd
    have hcopy : Appended s.total s.total (fun a => s.inByte (s.ipos.toNat + 1 + a)) v t := by
      rw [← hchunks, ← hipos hbyte]
      exact ⟨hframe, hread⟩
    exact exec_rld_of_covering_packet hin hout hpos hbyte (decodePacket_of_clear hkind) hitem hcopy

end Sys2Proof.Machine

/-!
PROOFS. `CUP` (43_chroma_upsample.md R170 to R176). One function gives the byte at each address of the image; a pixel
appends that function's next three bytes, so a row and then the image do, and the input that it depends on stays as it
is. Short inputs and odd dimensions end the command before the first pixel.
-/
namespace Sys2Proof.Machine

/-! ### Loops that append the next bytes of a function -/

/-- A loop whose body appends the next `n` bytes of `f`, in each state that the turns before it lead to. -/
theorem appended_forUp {f : Nat → Byte} {body : Nat → State → State} {n : Nat} {s : State} :
    ∀ k, s.opos.toNat + k * n < 2 ^ 32 →
      (∀ i u, i < k → Appended 0 (i * n) f s u → Appended 0 n f u (body i u)) →
      Appended 0 (k * n) f s (forUp body k 0 s)
  | 0, _, _ => by
    rw [Nat.zero_mul]
    exact .refl s
  | k + 1, hwrap, hbody => by
    rw [Nat.succ_mul] at hwrap
    have hturns : Appended 0 (k * n) f s (forUp body k 0 s) :=
      appended_forUp k (by omega) fun i u hi => hbody i u (by omega)
    rw [forUp_last, Nat.zero_add, Nat.succ_mul]
    exact hturns.trans (by omega) (hbody k _ (Nat.lt_succ_self k) hturns)

/-! ### The image -/

/-- The byte of a pixel at place 0, 1 or 2: blue, green, red (R173, R174). -/
def State.pixelByte (s : State) (x y : Nat) : Nat → Byte
  | 0 => blueOf (s.lumaSample x y) (s.chromaSample .cb x y)
  | 1 => greenOf (s.lumaSample x y) (s.chromaSample .cb x y) (s.chromaSample .cr x y)
  | _ => redOf (s.lumaSample x y) (s.chromaSample .cr x y)

/-- The byte of the image at an address of the output (R174). -/
def State.imageByte (s : State) (a : Nat) : Byte :=
  s.pixelByte (a / 3 % s.width.toNat) (a / 3 / s.width.toNat) (a % 3)

theorem State.imageByte_pixel {s : State} {x c : Nat} (hx : x < s.width.toNat) (hc : c < 3) (y : Nat) :
    s.imageByte ((y * s.width.toNat + x) * 3 + c) = s.pixelByte x y c := by
  have hpixel : ((y * s.width.toNat + x) * 3 + c) / 3 = y * s.width.toNat + x := by omega
  have hplace : ((y * s.width.toNat + x) * 3 + c) % 3 = c := by omega
  have hcol : (y * s.width.toNat + x) % s.width.toNat = x := by
    rw [Nat.mul_add_mod', Nat.mod_eq_of_lt hx]
  have hrow : (y * s.width.toNat + x) / s.width.toNat = y := by
    rw [Nat.mul_comm, Nat.mul_add_div (by omega), Nat.div_eq_of_lt hx, Nat.add_zero]
  rw [State.imageByte, hpixel, hplace, hcol, hrow]

/-- Bytes appended without reading leave the dimensions and the samples, so the image, as they were. -/
theorem Appended.image_eq {n : Nat} {f : Nat → Byte} {s t : State} (h : Appended 0 n f s t) :
    t.width = s.width ∧ t.imageByte = s.imageByte := by
  rw [h.frame, BitVec.add_zero]
  exact ⟨rfl, rfl⟩

/-! ### The pixel loops -/

/-- A pixel appends its three bytes of the image (R173, R174). -/
theorem cupPixel_appended {x y : Nat} {s : State} (hx : x < s.width.toNat)
    (hopos : s.opos.toNat = (y * s.width.toNat + x) * 3) (hwrap : s.opos.toNat + 3 < 2 ^ 32) :
    Appended 0 3 s.imageByte s (cupPixel y x s) := by
  have hbyte (c : Nat) (hc : c < 3) : s.pixelByte x y c = s.imageByte (s.opos.toNat + c) := by
    rw [hopos, State.imageByte_pixel hx hc]
  have hblue := Appended.outPut (f := s.imageByte) s (hbyte 0 (by omega))
  have hgreen := Appended.outPut (f := s.imageByte) (s.outPut (s.pixelByte x y 0)) (v := s.pixelByte x y 1)
    (by rw [hblue.opos_toNat (by omega)]; exact hbyte 1 (by omega))
  have htwo := hblue.trans (by omega) hgreen
  exact htwo.trans (by omega)
    (.outPut _ (by rw [htwo.opos_toNat (by omega)]; exact hbyte 2 (by omega)))

/-- A row of pixels appends its bytes of the image (R174). -/
theorem cupRow_appended {y : Nat} {s : State} (hopos : s.opos.toNat = y * (s.width.toNat * 3))
    (hwrap : s.opos.toNat + s.width.toNat * 3 < 2 ^ 32) :
    Appended 0 (s.width.toNat * 3) s.imageByte s (forUp (cupPixel y) s.width.toNat 0 s) := by
  refine appended_forUp s.width.toNat hwrap fun x u hx hcopy => ?_
  obtain ⟨hwidth, himage⟩ := hcopy.image_eq
  have hu : u.opos.toNat = s.opos.toNat + x * 3 := hcopy.opos_toNat (by omega)
  rw [← himage]
  refine cupPixel_appended (hwidth ▸ hx) ?_ (by omega)
  rw [hu, hopos, hwidth, Nat.add_mul, Nat.mul_assoc]

/-- The pixel loop appends the image to an empty output (R170, R174). -/
theorem pixels_appended {s : State} (hopos : s.opos.toNat = 0) (hwrap : s.height.toNat * (s.width.toNat * 3) < 2 ^ 32) :
    Appended 0 (s.height.toNat * (s.width.toNat * 3)) s.imageByte s s.pixels := by
  refine appended_forUp s.height.toNat (by omega) fun y u hy hcopy => ?_
  obtain ⟨hwidth, himage⟩ := hcopy.image_eq
  have hend : y * (s.width.toNat * 3) + s.width.toNat * 3 ≤ s.height.toNat * (s.width.toNat * 3) :=
    (Nat.succ_mul y _).symm.trans_le (Nat.mul_le_mul_right _ hy)
  have hu : u.opos.toNat = y * (s.width.toNat * 3) := by rw [hcopy.opos_toNat (by omega), hopos, Nat.zero_add]
  rw [← himage, ← hwidth]
  exact cupRow_appended (by rw [hu, hwidth]) (by rw [hu, hwidth]; omega)

/-! ### The command -/

/-- An odd dimension is refused before the start (R176). -/
theorem exec_cup_of_odd {s : State} (h : s.width.toNat % 2 = 1 ∨ s.height.toNat % 2 = 1) :
    exec .cup s = .next s.refuse := by
  rw [exec, execCup, if_pos h, ite_self]

/-- A `CUP` that is not refused (R170). -/
theorem exec_cup {s : State} (hin : s.inLen.toNat ≤ s.inCap) (hw : s.width.toNat % 2 = 0)
    (hh : s.height.toNat % 2 = 0) (hout : s.cupTotal ≤ s.outCap) : exec .cup s = .next s.cup := by
  rw [exec, execCup, if_neg (Nat.not_lt.mpr hin), if_neg (by omega), if_neg (Nat.not_lt.mpr hout)]

/-- With even dimensions the planes are three halves of a byte for each pixel (R171). -/
theorem State.cupNeed_of_even {s : State} (hw : s.width.toNat % 2 = 0) (hh : s.height.toNat % 2 = 0) :
    s.cupNeed = 3 * s.width.toNat * s.height.toNat / 2 := by
  obtain ⟨m, hm⟩ := Nat.dvd_of_mod_eq_zero hw
  obtain ⟨n, hn⟩ := Nat.dvd_of_mod_eq_zero hh
  have hall : 3 * (2 * m) * (2 * n) = 2 * (6 * (m * n)) := by ring
  rw [State.cupNeed, hm, hn, hall, Nat.mul_div_cancel_left _ two_pos, Nat.mul_div_cancel_left _ two_pos,
    Nat.mul_div_cancel_left _ two_pos]
  ring

/-- A failure of the started `CUP` leaves what R213 defines as it was before the command, and `OUTV` cleared. -/
theorem cup_failed (s : State) (f : Failure) :
    failedAfterStart .cup f s (s.cupStart.raise .cup f) ∧ (s.cupStart.raise .cup f).outv = false :=
  ⟨by simp [failedAfterStart, State.raise, State.forget, State.cupStart], rfl⟩

/-- A `CUP` with room and enough input ends with the image in `OUT` and every other field known (R170, R172). -/
theorem State.cup_completed {s : State} (hout : s.cupTotal ≤ s.outCap) (hneed : s.cupNeed ≤ s.avail) :
    s.cup = { s with
      st := .done, outv := true, err := none, errInfo := 0#32, ipos := s.ipos + BitVec.ofNat 32 s.cupNeed,
      opos := BitVec.ofNat 32 s.cupTotal, outLen := BitVec.ofNat 32 s.cupTotal, outBuf := s.cup.outBuf,
      phase := .host, row := 0 } ∧
    ∀ a, s.cup.outBuf.read a = if a < s.cupTotal then some (s.imageByte a) else none := by
  have hcap := s.outCap_lt
  have htotal : s.cupStart.height.toNat * (s.cupStart.width.toNat * 3) = s.cupTotal := s.cupTotal_eq
  have hcopy := pixels_appended (s := s.cupStart) rfl (by omega)
  rw [htotal] at hcopy
  rw [State.cup_of_enough hneed]
  refine ⟨?_, fun a => ?_⟩
  · rw [hcopy.frame, BitVec.add_zero]
    simp [State.complete, State.cupStart, State.startDecode]
  · have hstart : s.cupStart.outBuf.read a = if a < s.cupTotal then some 0#8 else none :=
      (Mem.read_zeros _ a).trans (by rw [declared_toNat hout])
    have hzero : s.cupStart.opos.toNat = 0 := rfl
    have himage : s.cupStart.imageByte = s.imageByte := rfl
    rw [State.complete_outBuf, hcopy.read, hstart, hzero, himage, Nat.zero_add]
    by_cases ha : a < s.cupTotal <;> simp [ha]

/-! ### The statements -/

/-- Settles O36: the parity check comes before the start, the size check before the first pixel. -/
theorem cupRejectsOddAndShort : Obligations.CupRejectsOddAndShort := by
  intro s
  refine ⟨exec_cup_of_odd, fun hin hw hh hout hshort => ?_⟩
  have htotal : s.cupTotal ≤ s.outCap := by
    rw [State.cupTotal, Nat.mul_comm, ← Nat.mul_assoc]
    exact hout
  have hneed : s.avail < s.cupNeed := by rwa [State.cupNeed_of_even hw hh]
  refine ⟨_, exec_cup hin hw hh htotal, ?_⟩
  rw [State.cup_of_short hneed]
  exact cup_failed s .sizeMismatch

/-- Settles O35: the completed output is the image, and a pixel's bytes are the formulas at the places of the planes. -/
theorem cupUpsamplesEveryPixel : Obligations.CupUpsamplesEveryPixel := by
  intro s w h q hin hw hh hout havail
  have hneed : s.cupNeed = w * h + 2 * q := congrArg (w * h + ·) (Nat.mul_assoc 2 _ _)
  obtain ⟨hframe, hread⟩ := State.cup_completed (s := s) hout (hneed.trans_le havail)
  rw [hneed] at hframe
  refine ⟨s.cup, exec_cup hin hw hh hout, hframe, fun x y hx hy => ?_, fun a ha => ?_⟩
  · have hpixel : y * w + x < w * h := (grid_lt hy hx).trans_eq (Nat.mul_comm h w)
    have hbyte (c : Nat) (hc : c < 3) : s.cup.outBuf.read ((y * w + x) * 3 + c) = some (s.pixelByte x y c) := by
      have hlt : (y * w + x) * 3 + c < s.cupTotal := by
        show _ < w * h * 3
        omega
      rw [hread, if_pos hlt, State.imageByte_pixel hx hc]
    obtain ⟨hcb, hcr, hluma⟩ := s.planeBase_eq
    have hblue := hbyte 0 (by omega)
    have hgreen := hbyte 1 (by omega)
    have hred := hbyte 2 (by omega)
    simp only [State.pixelByte, blueOf_eq, greenOf_eq, redOf_eq, State.chromaSample, State.lumaSample, sint8, hcb, hcr,
      hluma] at hblue hgreen hred
    exact ⟨hblue, hgreen, hred⟩
  · exact (hread a).trans (if_neg (Nat.not_lt.mpr ha))

end Sys2Proof.Machine

/-!
PROOFS. The rows of the delta filter (44_delta_filter.md R180 to R187). The three selectors differ only in the byte that
`deltaByte` gives, so a row is one loop for all of them. Its bytes are said in terms of the output that it leaves; later
rows leave them as they are, so the image satisfies the same equations row by row.
-/
namespace Sys2Proof.Machine

/-! ### The byte under a selector -/

section SelectedByte

variable (code : Byte) (first : Bool) (above left x : Byte)

theorem deltaByte_one : deltaByte 1#8 first above left x = if first then x else left - x := rfl

theorem deltaByte_two : deltaByte 2#8 first above left x = above - x := rfl

theorem deltaByte_four :
    deltaByte 4#8 first above left x = if first then x else averageOf above left - x := rfl

variable {first left} in
/-- The first channel group does not look to the left (R184, R186). -/
theorem deltaByte_left_congr {left' : Byte} (h : first = false → left = left') :
    deltaByte code first above left x = deltaByte code first above left' x := by
  cases first with
  | true => rfl
  | false => rw [h rfl]

/-- The filter and its inverse are the same function of the byte: the predictor less the byte (R187). -/
theorem deltaByte_deltaByte :
    deltaByte code first above left (deltaByte code first above left x) = x := by
  unfold deltaByte
  split_ifs
  · exact sub_sub_cancel _ _
  · rfl
  · exact sub_sub_cancel _ _
  · exact sub_sub_cancel _ _

end SelectedByte

/-- The byte that a row under a selector code reconstructs at position `i` (R184 to R186). -/
def State.deltaValue (code : Byte) (s : State) (i : Nat) : Byte :=
  deltaByte code (i < s.channels.toNat) (s.above i) (s.left i) (s.stored i)

theorem dfHValue_eq : State.dfHValue = State.deltaValue 1#8 := by
  funext s i
  simp only [State.dfHValue, State.deltaValue, deltaByte_one, decide_eq_true_eq]

theorem dfVValue_eq : State.dfVValue = State.deltaValue 2#8 := by
  funext s i
  exact (deltaByte_two _ _ _ _).symm

theorem dfAValue_eq : State.dfAValue = State.deltaValue 4#8 := by
  funext s i
  simp only [State.dfAValue, State.deltaValue, deltaByte_four, decide_eq_true_eq]

/-- The row's item that a selector code stands for (R104). -/
def selects (i : Instr) (code : Byte) : Prop :=
  (i = .dfH ∧ code = 1#8) ∨ (i = .dfV ∧ code = 2#8) ∨ (i = .dfA ∧ code = 4#8)

theorem runItem_of_selects {i : Instr} {code : Byte} (h : selects i code) (s : State) :
    runItem i s = s.deltaRow (State.deltaValue code) := by
  rcases h with ⟨rfl, rfl⟩ | ⟨rfl, rfl⟩ | ⟨rfl, rfl⟩
  · exact congrArg s.deltaRow dfHValue_eq
  · exact congrArg s.deltaRow dfVValue_eq
  · exact congrArg s.deltaRow dfAValue_eq

theorem exec_of_selects {i : Instr} {code : Byte} (h : selects i code) (s : State) :
    exec i s = .next (s.deltaRow (State.deltaValue code)) := by
  have hitem : isItem i := by rcases h with ⟨rfl, -⟩ | ⟨rfl, -⟩ | ⟨rfl, -⟩ <;> rfl
  rw [exec_item hitem, runItem_of_selects h]

theorem decodeSelector_selects {b : Byte} (h : knownSelector b) : ∃ i, decodeSelector b = .instr i ∧ selects i b := by
  rcases h with rfl | rfl | rfl
  · exact ⟨.dfH, rfl, .inl ⟨rfl, rfl⟩⟩
  · exact ⟨.dfV, rfl, .inr (.inl ⟨rfl, rfl⟩)⟩
  · exact ⟨.dfA, rfl, .inr (.inr ⟨rfl, rfl⟩)⟩

/-! ### Reading the output after bytes were appended -/

namespace Appended

variable {r n m : Nat} {f g : Nat → Byte} {s t u : State}

/-- Only the function's values at the appended addresses count. -/
theorem congr (h : Appended r n f s t) (hfg : ∀ a, s.opos.toNat ≤ a → a < s.opos.toNat + n → f a = g a) :
    Appended r n g s t where
  frame := h.frame
  read a := by
    rw [h.read]
    split_ifs with hin
    · rw [hfg a hin.1 hin.2]
    · rfl

theorem outByte (h : Appended r n f s t) (a : Nat) :
    t.outByte a = if s.opos.toNat ≤ a ∧ a < s.opos.toNat + n then f a else s.outByte a := by
  have hfresh : t.fresh = s.fresh := by rw [h.frame]
  rw [State.outByte, h.read, hfresh]
  split_ifs <;> rfl

theorem outByte_before (h : Appended r n f s t) {a : Nat} (ha : a < s.opos.toNat) : t.outByte a = s.outByte a := by
  rw [h.outByte, if_neg (by omega)]

theorem outByte_appended (h : Appended r n f s t) {a : Nat} (hlow : s.opos.toNat ≤ a) (hhigh : a < s.opos.toNat + n) :
    t.outByte a = f a := by
  rw [h.outByte, if_pos ⟨hlow, hhigh⟩]

/-- What was appended stands in the output. -/
theorem read_appended (h : Appended r n f s t) {a : Nat} (hlow : s.opos.toNat ≤ a) (hhigh : a < s.opos.toNat + n) :
    t.outBuf.read a = some (f a) := by
  rw [h.read, if_pos ⟨hlow, hhigh⟩]

/-- What was appended is what the output then reads. -/
theorem self (h : Appended r n f s t) : Appended r n t.outByte s t :=
  h.congr fun _ hlow hhigh => (h.outByte_appended hlow hhigh).symm

/-- A longer run of the same appending leaves what a shorter one has left. -/
theorem outByte_of_le (h : Appended r m f s u) (k : Appended r n f s t) (hmn : m ≤ n) {a : Nat}
    (ha : a < s.opos.toNat + m) : u.outByte a = t.outByte a := by
  rw [h.outByte, k.outByte]
  exact if_congr (by omega) rfl rfl

/-- A further appending leaves the bytes before it. -/
theorem trans_self (hn : s.opos.toNat + n < 2 ^ 32) (h : Appended r n f s t) (k : Appended 0 m g t u) :
    Appended (r + 0) (n + m) u.outByte s u := by
  refine (h.congr fun a hlow hhigh => ?_).trans hn k.self
  rw [k.outByte_before (by rw [h.opos_toNat hn]; exact hhigh), h.outByte_appended hlow hhigh]

theorem withRow (h : Appended r n f s t) (y : Nat) : Appended r n f { s with row := y } { t with row := y } where
  frame := by rw [h.frame]
  read := h.read

end Appended

/-! ### One row -/

/-- The output after `k` bytes of a row. -/
def State.rowTurns (s : State) (value : State → Nat → Byte) (k : Nat) : State :=
  forUp (fun i u => u.outPut (value u i)) k 0 s

theorem State.rowTurns_succ (s : State) (value : State → Nat → Byte) (k : Nat) :
    s.rowTurns value (k + 1) = (s.rowTurns value k).outPut (value (s.rowTurns value k) k) := by
  rw [State.rowTurns, forUp_last, Nat.zero_add, ← State.rowTurns]

theorem State.deltaRow_eq (s : State) (value : State → Nat → Byte) :
    s.deltaRow value = { s.rowTurns value s.stride with row := (s.rowTurns value s.stride).row + 1 } := rfl

/-- The byte at each address that the row writes: its value in the state that the turns before have led to. -/
def State.rowByte (s : State) (value : State → Nat → Byte) (a : Nat) : Byte :=
  value (s.rowTurns value (a - s.opos.toNat)) (a - s.opos.toNat)

theorem rowTurns_appended (s : State) (value : State → Nat → Byte) : ∀ k, s.opos.toNat + k < 2 ^ 32 →
    Appended 0 k (s.rowByte value) s (s.rowTurns value k)
  | 0, _ => .refl s
  | k + 1, hwrap => by
    have hturns := rowTurns_appended s value k (by omega)
    rw [State.rowTurns_succ]
    refine hturns.trans (by omega) (.outPut _ ?_)
    rw [hturns.opos_toNat (by omega), State.rowByte, Nat.add_sub_cancel_left]

/-- The reconstruction of byte `j` of row `y` under a selector code, from the bytes that stand in the output `f` above
and to the left (R184 to R186). -/
def State.reconstructed (s : State) (code : Byte) (y j : Nat) (f : Nat → Byte) : Byte :=
  deltaByte code (j < s.channels.toNat) (if y = 0 then 0#8 else f ((y - 1) * s.stride + j))
    (f (y * s.stride + j - s.channels.toNat)) (s.inByte (s.ipos.toNat + y * s.stride + j))

/-- Row `y` of the output `f` is reconstructed from that output. -/
def State.reconstructs (s : State) (code : Byte) (y : Nat) (f : Nat → Byte) : Prop :=
  ∀ j, j < s.stride → f (y * s.stride + j) = s.reconstructed code y j f

/-- A row that holds a byte has channels. -/
theorem State.channels_pos {s : State} {j : Nat} (hj : j < s.stride) : 0 < s.channels.toNat := by
  refine Nat.pos_of_ne_zero fun hc => ?_
  rw [State.stride, hc] at hj
  exact Nat.not_lt_zero j hj

/-- A reconstruction looks at the bytes before its own only. -/
theorem State.reconstructed_congr {s : State} {y j : Nat} {f g : Nat → Byte} (code : Byte) (hj : j < s.stride)
    (hfg : ∀ a, a < y * s.stride + j → f a = g a) : s.reconstructed code y j f = s.reconstructed code y j g := by
  have habove : (if y = 0 then 0#8 else f ((y - 1) * s.stride + j)) =
      if y = 0 then 0#8 else g ((y - 1) * s.stride + j) :=
    if_ctx_congr Iff.rfl (fun _ => rfl) fun hy =>
      hfg _ (Nat.add_lt_add_right (Nat.mul_lt_mul_of_pos_right (by omega) (Nat.zero_lt_of_lt hj)) j)
  have hpos := State.channels_pos hj
  rw [State.reconstructed, State.reconstructed, habove]
  refine deltaByte_left_congr _ _ _ fun hfirst => hfg _ ?_
  have := of_decide_eq_false hfirst
  omega

/-- A row is about the output up to its end only. -/
theorem State.reconstructs_congr {s : State} {code : Byte} {y : Nat} {f g : Nat → Byte}
    (hfg : ∀ a, a < y * s.stride + s.stride → f a = g a) (h : s.reconstructs code y f) : s.reconstructs code y g := by
  intro j hj
  rw [← hfg _ (by omega), h j hj]
  exact State.reconstructed_congr code hj fun a ha => hfg a (by omega)

/-- What a row reads in a turn: the state's own fields, and the output so far. -/
theorem Appended.deltaValue_eq {n : Nat} {f : Nat → Byte} {s u : State} (h : Appended 0 n f s u) (code : Byte)
    (j : Nat) : u.deltaValue code j = s.reconstructed code s.row j u.outByte := by
  rw [h.frame_of_unread]
  rfl

/-- A row whose turn it is appends its `stride` bytes, reconstructed (R180, R184 to R186). -/
theorem deltaRow_appended {s : State} (code : Byte) (hopos : s.opos.toNat = s.row * s.stride)
    (hwrap : s.opos.toNat + s.stride < 2 ^ 32) :
    ∃ t, Appended 0 s.stride t.outByte s t ∧ s.deltaRow (State.deltaValue code) = { t with row := s.row + 1 } ∧
      s.reconstructs code s.row t.outByte := by
  have hrow := rowTurns_appended s (State.deltaValue code) s.stride hwrap
  have hsame : (s.rowTurns (State.deltaValue code) s.stride).row = s.row := by rw [hrow.frame]
  refine ⟨_, hrow.self, by rw [State.deltaRow_eq, hsame], fun j hj => ?_⟩
  have hturn := rowTurns_appended s (State.deltaValue code) j (by omega)
  have hbyte := hrow.outByte_appended (a := s.row * s.stride + j) (by omega) (by omega)
  rw [hbyte, State.rowByte, hopos, Nat.add_sub_cancel_left, hturn.deltaValue_eq]
  exact State.reconstructed_congr code hj fun a ha => hturn.outByte_of_le hrow hj.le (hopos.symm ▸ ha)

/-- Settles O38: the row's item appends the row, whose reconstruction reads above it what was there before. -/
theorem deltaRowsReconstruct : Obligations.DeltaRowsReconstruct := by
  intro i code s hi hopos hwrap
  obtain ⟨t, hcopy, hrow, hbytes⟩ := deltaRow_appended code hopos hwrap
  have hexec : exec i s = .next { t with row := s.row + 1 } := (exec_of_selects hi s).trans (congrArg _ hrow)
  refine ⟨_, hexec, ?_, fun j hj => ?_, fun a ha => ?_⟩
  · rw [hcopy.frame_of_unread]
  · have habove : (if s.row = 0 then 0#8 else t.outByte ((s.row - 1) * s.stride + j)) =
        if s.row = 0 then 0#8 else s.outByte ((s.row - 1) * s.stride + j) :=
      if_ctx_congr Iff.rfl (fun _ => rfl) fun hy => hcopy.outByte_before (hopos ▸ grid_lt (by omega) hj)
    have hbyte := hbytes j hj
    rw [State.reconstructed, habove] at hbyte
    exact (hcopy.read_appended (by omega) (by omega)).trans (congrArg some hbyte)
  · exact (hcopy.read a).trans (if_neg (by omega))

/-! ### The forward filter -/

/-- A row whose stored bytes are filtered from `v` is reconstructed to `v`: the first channel group at once, every other
byte after the one to its left (R187). -/
theorem row_gives_back {i : Instr} {code : Byte} {s : State} {v : Nat → Byte} (hi : selects i code)
    (hopos : s.opos.toNat = s.row * s.stride) (hwrap : s.opos.toNat + s.stride < 2 ^ 32)
    (hstored : ∀ j, j < s.stride → s.stored j = deltaByte code (j < s.channels.toNat)
      (s.above j) (v (j - s.channels.toNat)) (v j)) :
    ∃ t, exec i s = .next t ∧ ∀ j, j < s.stride → t.outBuf.read (s.row * s.stride + j) = some (v j) := by
  obtain ⟨t, hexec, -, hbytes, -⟩ := deltaRowsReconstruct i code s hi hopos hwrap
  refine ⟨t, hexec, fun j => ?_⟩
  induction j using Nat.strong_induction_on with
  | _ j ih =>
    intro hj
    have hleft (hfirst : decide (j < s.channels.toNat) = false) :
        t.outByte (s.row * s.stride + j - s.channels.toNat) = v (j - s.channels.toNat) := by
      have hafter := of_decide_eq_false hfirst
      have hpos := State.channels_pos hj
      rw [Nat.add_sub_assoc (by omega), State.outByte, ih _ (by omega) (by omega), Option.getD_some]
    have hundone : deltaByte code (j < s.channels.toNat) (s.above j) (v (j - s.channels.toNat)) (s.stored j) = v j := by
      rw [hstored j hj, deltaByte_deltaByte]
    rw [hbytes j hj, deltaByte_left_congr _ _ _ hleft]
    exact congrArg some hundone

/-- Settles O39: the three filters are the three codes of the one function that undoes itself. -/
theorem forwardFilterThenRowGivesBack : Obligations.ForwardFilterThenRowGivesBack := by
  intro s v hopos hwrap
  refine ⟨fun h => row_gives_back (code := 1#8) (.inl ⟨rfl, rfl⟩) hopos hwrap fun j hj => ?_,
    fun h => row_gives_back (code := 2#8) (.inr (.inl ⟨rfl, rfl⟩)) hopos hwrap fun j hj => ?_,
    fun h => row_gives_back (code := 4#8) (.inr (.inr ⟨rfl, rfl⟩)) hopos hwrap fun j hj => ?_⟩
  · simp only [deltaByte_one, decide_eq_true_eq]
    exact h j hj
  · exact h j hj
  · simp only [deltaByte_four, decide_eq_true_eq]
    exact h j hj

/-! ### All rows -/

/-- The next `d` rows, each under its selector (R180, R182). -/
def State.deltaRows : Nat → State → State
  | 0, s => s
  | d + 1, s => (s.deltaRow (State.deltaValue (s.selByte s.row))).deltaRows d

/-- A row under a known selector is reconstructed under it. -/
theorem State.turn_known_row {s : State} {c : DeltaCommand} (hp : s.phase = .rows c) (hrow : s.row < s.height.toNat)
    (h : knownSelector (s.selByte s.row)) : s.turn = s.deltaRow (State.deltaValue (s.selByte s.row)) := by
  obtain ⟨i, hdec, hi⟩ := decodeSelector_selects h
  rw [State.turn_eq, State.fetch_rows hp, State.fetchRow, if_pos hrow, decode, hdec]
  exact runItem_of_selects hi s

/-- After the last row the command completes, past the payload (R183). -/
theorem State.turn_rows_end {s : State} {c : DeltaCommand} (hp : s.phase = .rows c) (hrow : s.row = s.height.toNat) :
    s.turn = (s.consume s.total).complete := by
  rw [State.turn_eq, State.fetch_rows hp, State.fetchRow, if_neg (by omega)]
  rfl

/-- What the row loop looks at is not what a row writes. -/
theorem deltaRow_keeps (s : State) (value : State → Nat → Byte) :
    ∃ q m, s.deltaRow value = { s with opos := q, outBuf := m, row := s.row + 1 } := by
  obtain ⟨t, hcopy, hipos, hrow⟩ := deltaRow_copied s value
  refine ⟨t.opos, t.outBuf, ?_⟩
  rw [hrow, hcopy.opos, ← hipos]
  conv_lhs => rw [hcopy.frame]

/-- With known selectors the row loop makes the rows that are left and completes. -/
theorem runToEnd_rows {c : DeltaCommand} : ∀ d {s : State} {k : Nat}, s.phase = .rows c →
    s.row + d = s.height.toNat → d < k → (∀ y, s.row ≤ y → y < s.row + d → knownSelector (s.selByte y)) →
    runToEnd k s = some ((s.deltaRows d).consume s.total).complete
  | 0, s, k + 1, hp, hrow, _, _ => by
    rw [runToEnd_succ, State.turn_rows_end hp hrow]
    exact runToEnd_of_host rfl k
  | d + 1, s, k + 1, hp, hrow, hk, hgood => by
    have hturn := State.turn_known_row hp (by omega) (hgood s.row (Nat.le_refl _) (by omega))
    obtain ⟨q, m, hnext⟩ := deltaRow_keeps s (State.deltaValue (s.selByte s.row))
    rw [runToEnd_succ, hturn, State.deltaRows, hnext]
    exact runToEnd_rows d hp (by rw [← hrow]; exact Nat.add_right_comm _ _ _) (by omega)
      fun y hlow hhigh => hgood y (Nat.le_of_succ_le hlow) (hhigh.trans_eq (Nat.add_right_comm _ _ _))

/-- The row counter and the bytes appended are not what the next rows are reconstructed from. -/
theorem Appended.nextRow_reconstructs {n : Nat} {f : Nat → Byte} {s t : State} (h : Appended 0 n f s t) (x y : Nat)
    (g : Nat → Byte) : { t with row := x }.reconstructs ({ t with row := x }.selByte y) y g =
      s.reconstructs (s.selByte y) y g := by
  rw [h.frame_of_unread]
  rfl

/-- The rows append their bytes, each row reconstructed from the output that all of them leave (R180). -/
theorem deltaRows_appended : ∀ d {s : State}, s.opos.toNat = s.row * s.stride → s.opos.toNat + d * s.stride < 2 ^ 32 →
    ∃ t, Appended 0 (d * s.stride) t.outByte s t ∧ s.deltaRows d = { t with row := s.row + d } ∧
      ∀ y, s.row ≤ y → y < s.row + d → s.reconstructs (s.selByte y) y t.outByte
  | 0, s, _, _ => ⟨s, by rw [Nat.zero_mul]; exact .refl s, rfl, fun y hlow hhigh => by omega⟩
  | d + 1, s, hopos, hwrap => by
    rw [Nat.succ_mul] at hwrap
    obtain ⟨t, hcopy, hrow, hfirst⟩ := deltaRow_appended (s.selByte s.row) hopos (by omega)
    let v : State := { t with row := s.row + 1 }
    have hstride : v.stride = s.stride := by
      show t.stride = s.stride
      rw [hcopy.frame]
      rfl
    have hv : v.opos.toNat = s.opos.toNat + s.stride := hcopy.opos_toNat (by omega)
    obtain ⟨u, hrest, hrows, hbytes⟩ := deltaRows_appended d (s := v)
      (by rw [hv, hopos, hstride]; exact (Nat.succ_mul _ _).symm) (by rw [hv, hstride]; omega)
    have hall := hcopy.trans_self (by omega) (hrest.withRow t.row)
    rw [hstride] at hall
    refine ⟨{ u with row := t.row }, ?_, ?_, fun y hlow hhigh => ?_⟩
    · rw [Nat.succ_mul, Nat.add_comm]
      exact hall
    · rw [State.deltaRows, hrow, hrows, ← Nat.add_assoc, Nat.add_right_comm]
    · rcases Nat.eq_or_lt_of_le hlow with rfl | hlt
      · exact State.reconstructs_congr (fun a ha => (hrest.outByte_before (by omega)).symm) hfirst
      · have hnext := hbytes y hlt (by show y < s.row + 1 + d; omega)
        rwa [hcopy.nextRow_reconstructs] at hnext

/-! ### `DLF` -/

/-- The first row's turn of a started `DLF` (R180). -/
def State.dlfRows (s : State) : State := { s.dlfStart with phase := .rows .dlf, row := 0 }

/-- A `DLF` within capacity, with enough payload and known selectors, makes all its rows and completes (R180 to
R183). -/
theorem exec_dlf_rows {s : State} (hin : s.inLen.toNat ≤ s.inCap) (hout : s.total ≤ s.outCap)
    (hpayload : s.total ≤ s.avail) (hsels : s.height.toNat ≤ s.selLen.toNat)
    (hgood : ∀ y, y < s.height.toNat → knownSelector (s.selByte y)) :
    exec .dlf s = .next ((s.dlfRows.deltaRows s.height.toNat).consume s.total).complete := by
  have hchecks : s.dlfStart.bodyChecks .dlf = s.dlfRows := State.bodyChecks_of_match .dlf hpayload hsels
  refine exec_dlf hin hout ?_
  rw [hchecks]
  exact runToEnd_rows (c := .dlf) _ rfl (Nat.zero_add _) (by omega) fun y _ hy => hgood y (hy.trans_eq (Nat.zero_add _))

/-- The rows are the image. -/
theorem State.rows_total (s : State) : s.height.toNat * s.stride = s.total := by
  rw [State.stride, State.total, ← Nat.mul_assoc, Nat.mul_comm s.height.toNat]

/-- Settles O40: the rows of the started command append the image, and the bytes beyond it were never there. -/
theorem dlfReconstructsImage : Obligations.DlfReconstructsImage := by
  intro s hin hout hpayload hsels hgood
  have hcap := s.outCap_lt
  have htotal : s.height.toNat * s.dlfRows.stride = s.total := s.rows_total
  obtain ⟨t, hcopy, hrows, hbytes⟩ := deltaRows_appended s.height.toNat (s := s.dlfRows) (Nat.zero_mul _).symm
    (by rw [htotal]; show 0 + s.total < _; omega)
  rw [htotal] at hcopy
  have hexec := exec_dlf_rows hin hout hpayload hsels hgood
  rw [hrows] at hexec
  refine ⟨_, hexec, ?_, fun y j hy hj => ?_, fun a ha => ?_⟩
  · have hopos : s.dlfRows.opos + BitVec.ofNat 32 s.total = BitVec.ofNat 32 s.total := BitVec.zero_add _
    rw [hcopy.frame_of_unread, hopos]
    rfl
  · have hinside : y * s.stride + j < 0 + s.total := by
      rw [← htotal, Nat.zero_add]
      exact grid_lt hy hj
    have hbyte := hbytes y (Nat.zero_le y) (hy.trans_eq (Nat.zero_add _).symm) j hj
    exact (hcopy.read_appended (Nat.zero_le _) hinside).trans (congrArg some hbyte)
  · have hbeyond : ¬ (0 ≤ a ∧ a < 0 + s.total) := by omega
    have hzeros : s.dlfRows.outBuf.read a = none :=
      (Mem.read_zeros _ a).trans (if_neg (by rw [declared_toNat hout]; omega))
    exact (hcopy.read a).trans ((if_neg hbeyond).trans hzeros)

end Sys2Proof.Machine

/-!
PROOFS. The delta block (44_delta_filter.md R188 to R190, R215). Its header either fails or leaves the started command
at the body's size checks, with the block's selectors in `SEL`. From there on it is `DLF` but for the header's depth.
-/
namespace Sys2Proof.Machine

/-! ### What a failed `DBK` leaves -/

/-- Of what a `DBK` writes before it fails, R213 defines nothing. -/
theorem failedAfterStart_of_written {s u t : State} {f : Failure}
    (hu : u = { s with
      outv := u.outv, err := u.err, errInfo := u.errInfo, ipos := u.ipos, outLen := u.outLen, opos := u.opos,
      selLen := u.selLen, depth := u.depth, selBuf := u.selBuf, outBuf := u.outBuf, phase := u.phase, row := u.row })
    (h : failedAfterStart .dbk f u t) : failedAfterStart .dbk f s t := by
  rw [hu] at h
  simpa [failedAfterStart] using h

/-- Settles O43: the depth, kept before the checks, is unspecified after the failure. -/
theorem blockHeaderMismatchFails : Obligations.BlockHeaderMismatchFails := by
  intro skip depth width height s h
  have hexec : exec (.dbkHdr skip depth width height) s = .next ({ s with depth := depth }.raise .dbk .sizeMismatch) :=
    congrArg _ (State.dbkHdr_of_mismatch h)
  exact ⟨_, hexec, failedAfterStart_of_written rfl (State.raise_failed { s with depth := depth } _ _)⟩

/-! ### The header in the stream -/

/-- The byte cursor moved inside the stream does not wrap. -/
theorem State.ipos_consume {s : State} {n : Nat} (h : n ≤ s.avail) : (s.consume n).ipos.toNat = s.ipos.toNat + n := by
  have hend := s.inLen.isLt
  have hcursor := s.ipos.isLt
  unfold State.avail at h
  rw [State.consume_ipos, opos_add_toNat (by omega)]

theorem State.avail_consume {s : State} {n : Nat} (h : n ≤ s.avail) : (s.consume n).avail = s.avail - n := by
  rw [State.avail, State.avail, State.ipos_consume h, State.consume_inLen, Nat.sub_add_eq]

theorem State.streamFrom_eq (s : State) : ∀ k a, a + k ≤ s.inLen.toNat →
    s.streamFrom k a = (List.range' a k).map s.inByte
  | 0, _, _ => rfl
  | k + 1, a, h => by
    rw [State.streamFrom_of_lt (by omega), s.streamFrom_eq k (a + 1) (by omega)]
    rfl

/-- The 16-bit field of the block header that stands `i` bytes after its start, little-endian (R106). -/
def State.headerField (s : State) (i : Nat) : Half :=
  s.inByte (s.ipos.toNat + i + 1) ++ s.inByte (s.ipos.toNat + i)

theorem State.decode_blockHeader {s : State} (h : 8 ≤ s.avail) : decode .blockHeader s.streamWindow =
    .instr (.dbkHdr (s.headerField 0) (s.headerField 2) (s.headerField 4) (s.headerField 6)) := by
  have hin : s.ipos.toNat + 8 ≤ s.inLen.toNat := by
    unfold State.avail at h
    omega
  have hwindow : s.streamWindow = (List.range' s.ipos.toNat 8).map s.inByte := s.streamFrom_eq 8 _ hin
  rw [hwindow]
  rfl

/-- The header's item (R188). -/
theorem State.turn_header {s : State} (hp : s.phase = .dbkHeader) (h : 8 ≤ s.avail) :
    s.turn = (s.consume 8).dbkHdr (s.headerField 2) (s.headerField 4) (s.headerField 6) := by
  rw [State.turn_eq, State.fetch_dbkHeader hp, State.fetchAt_of_decode _ (State.decode_blockHeader h)]
  rfl

/-- A header that the stream does not hold (R207). -/
theorem State.turn_header_truncated {s : State} (hp : s.phase = .dbkHeader) (h : s.avail < 8) :
    s.turn = s.raise .dbk .outOfData := by
  have hfetch : s.fetchAt .blockHeader .dbk = .settled (s.raise .dbk .outOfData) :=
    State.fetchAt_of_truncated _ fun i hi => by rwa [headLength_of_blockHeader (decode_context hi)]
  rw [State.turn_eq, State.fetch_dbkHeader hp, hfetch]
  rfl

/-! ### The selectors of the block -/

/-- The selector load, byte by byte (R189). -/
theorem loadSelectors_eq_foldl (base : Nat) : ∀ k y {s : State}, k ≤ s.avail → s.ipos.toNat = base + y →
    loadSelectors k y s = { s with
      ipos := s.ipos + BitVec.ofNat 32 k,
      selBuf := (List.range' y k).foldl (fun m z => m.write z (s.inByte (base + z))) s.selBuf }
  | 0, _, s, _, _ => by simp [loadSelectors]
  | k + 1, y, s, hk, hbase => by
    have hpos : 0 < s.avail := by omega
    let t : State := { s.consume 1 with selBuf := s.selBuf.write y (s.inByte s.ipos.toNat) }
    have hload : loadSelectors (k + 1) y s = loadSelectors k (y + 1) t := by
      rw [loadSelectors, State.inRead8_of_avail hpos]
      rfl
    have hipos : t.ipos.toNat = s.ipos.toNat + 1 := State.ipos_consume hpos
    have havail : t.avail = s.avail - 1 := State.avail_consume hpos
    rw [hload, loadSelectors_eq_foldl base k (y + 1) (by omega) (by omega), Nat.add_comm k 1, BitVec.ofNat_add,
      ← BitVec.add_assoc, Nat.add_comm 1 k, List.range'_succ, List.foldl_cons, ← hbase]
    rfl

/-- The loaded bytes stand in `SEL` from index 0 on. -/
theorem read_loadedSelectors (s : State) (base count a : Nat) : (loadedSelectors s base count).read a =
    if a < count then some (s.inByte (base + a)) else s.selBuf.read a := by
  induction count with
  | zero => rfl
  | succ n ih =>
    rw [loadedSelectors, List.range_succ, List.foldl_concat, Mem.read_write, ← loadedSelectors, ih]
    by_cases ha : a = n
    · rw [if_pos ha, if_pos (ha ▸ Nat.lt_succ_self n), ha]
    · rw [if_neg ha]
      exact if_congr (by omega) rfl rfl

/-- A header that matches loads the selectors after it (R189, R190). -/
theorem State.dbkHdr_loaded {s : State} {depth width height : Half} (h : ¬ s.hdrMismatch width height) :
    s.dbkHdr depth width height = { s with
      depth := depth, ipos := s.ipos + BitVec.ofNat 32 s.height.toNat, selLen := s.height,
      selBuf := loadedSelectors s s.ipos.toNat s.height.toNat, phase := .body .dbk, row := 0 } := by
  have havail : s.height.toNat ≤ { s with depth := depth }.avail := Nat.le_of_not_lt fun hlt => h (.inr (.inr hlt))
  rw [State.dbkHdr_of_match h, loadSelectors_eq_foldl s.ipos.toNat _ 0 havail rfl, loadedSelectors,
    List.range_eq_range']
  rfl

/-! ### The started command -/

/-- The started `DBK` at the body's size checks, with what the block's header and selectors have given (R188 to
R190). -/
def State.dbkBody (s : State) : State :=
  { s.dbkStart with
    depth := s.headerField 2, ipos := s.ipos + BitVec.ofNat 32 (8 + s.height.toNat), selLen := s.height,
    selBuf := loadedSelectors s (s.ipos.toNat + 8) s.height.toNat, phase := .body .dbk, row := 0 }

/-- The block's header declares the image that the registers do (R190). -/
def State.headerFits (s : State) : Prop := s.headerField 4 = s.width ∧ s.headerField 6 = s.height

/-- A `DBK` that is not refused is the run of its header and what follows it (R188). -/
theorem exec_dbk {s t : State} (hin : s.inLen.toNat ≤ s.inCap) (hout : s.total ≤ s.outCap)
    (h : runToEnd (s.height.toNat + 2) s.dbkStart.turn = some t) : exec .dbk s = .next t := by
  rw [exec, execDbk, if_neg (Nat.not_lt.mpr hin), if_neg (Nat.not_lt.mpr hout), runCommand_eq_next, State.deltaFuel,
    runToEnd_succ, h]

/-- A failed header ends the command. -/
theorem exec_dbk_of_raise {s u : State} {f : Failure} (hin : s.inLen.toNat ≤ s.inCap) (hout : s.total ≤ s.outCap)
    (h : s.dbkStart.turn = u.raise .dbk f) : exec .dbk s = .next (u.raise .dbk f) := by
  refine exec_dbk hin hout ?_
  rw [h]
  exact runToEnd_of_host (u.raise_phase _ _) _

/-- The header's failures after the start: it does not fit, or the selectors after it are not all there (R190). -/
theorem State.hdrMismatch_iff {s : State} (h : 8 ≤ s.avail) :
    (s.dbkStart.consume 8).hdrMismatch (s.headerField 4) (s.headerField 6) ↔
      ¬ s.headerFits ∨ s.avail < 8 + s.height.toNat := by
  have hrest : (s.dbkStart.consume 8).avail = s.avail - 8 := State.avail_consume (s := s.dbkStart) h
  have hshort : s.avail - 8 < s.height.toNat ↔ s.avail < 8 + s.height.toNat := by omega
  rw [State.hdrMismatch, hrest, State.headerFits, not_and_or, or_assoc]
  exact or_congr Iff.rfl (or_congr Iff.rfl hshort)

theorem State.turn_dbkStart_of_fits {s : State} (havail : 8 + s.height.toNat ≤ s.avail) (hfits : s.headerFits) :
    s.dbkStart.turn = s.dbkBody := by
  have hhead : 8 ≤ s.avail := Nat.le_trans (Nat.le_add_right 8 _) havail
  have hmatch : ¬ (s.dbkStart.consume 8).hdrMismatch (s.headerField 4) (s.headerField 6) := by
    rw [State.hdrMismatch_iff hhead, not_or, not_not, Nat.not_lt]
    exact ⟨hfits, havail⟩
  rw [State.turn_header (s := s.dbkStart) rfl hhead]
  refine (State.dbkHdr_loaded hmatch).trans ?_
  rw [State.ipos_consume (s := s.dbkStart) hhead, State.consume_ipos, BitVec.add_assoc, ← BitVec.ofNat_add]
  rfl

theorem State.avail_dbkBody {s : State} (havail : 8 + s.height.toNat ≤ s.avail) :
    s.dbkBody.avail = s.avail - (8 + s.height.toNat) := State.avail_consume havail

theorem State.selByte_dbkBody {s : State} {y : Nat} (hy : y < s.height.toNat) :
    s.dbkBody.selByte y = s.inByte (s.ipos.toNat + 8 + y) := by
  have hread : s.dbkBody.selBuf.read y = some (s.inByte (s.ipos.toNat + 8 + y)) :=
    (read_loadedSelectors s _ _ y).trans (if_pos hy)
  rw [State.selByte, hread, Option.getD_some]

/-- A `DBK` whose header fits is the run of its body. -/
theorem exec_dbk_of_fits {s t : State} (hin : s.inLen.toNat ≤ s.inCap) (hout : s.total ≤ s.outCap)
    (havail : 8 + s.height.toNat ≤ s.avail) (hfits : s.headerFits)
    (h : runToEnd (s.height.toNat + 1) (s.dbkBody.bodyChecks .dbk) = some t) : exec .dbk s = .next t := by
  have hturn : s.dbkBody.turn = s.dbkBody.bodyChecks .dbk := State.turn_eq _
  refine exec_dbk hin hout ?_
  rw [State.turn_dbkStart_of_fits havail hfits, runToEnd_succ, hturn, h]

/-! ### The failures -/

/-- A failure of the started `DBK` with `OUTV` still cleared. -/
theorem dbk_failed {s u : State} {f : Failure} (hu : u = { s with
      outv := false, err := u.err, errInfo := u.errInfo, ipos := u.ipos, outLen := u.outLen, opos := u.opos,
      selLen := u.selLen, depth := u.depth, selBuf := u.selBuf, outBuf := u.outBuf, phase := u.phase, row := u.row }) :
    failedAfterStart .dbk f s (u.raise .dbk f) ∧ (u.raise .dbk f).outv = false := by
  have houtv : u.outv = false := by rw [hu]
  refine ⟨failedAfterStart_of_written ?_ (u.raise_failed _ _), (u.raise_outv _ _).trans houtv⟩
  rw [houtv]
  exact hu

/-- The row loop's start of a `DBK`. -/
def State.dbkRows (s : State) : State := { s.dbkBody with phase := .rows .dbk, row := 0 }

theorem State.bodyChecks_dbkBody {s : State} (havail : 8 + s.height.toNat + s.total ≤ s.avail) :
    s.dbkBody.bodyChecks .dbk = s.dbkRows := by
  have hrest : s.dbkBody.avail = s.avail - (8 + s.height.toNat) := State.avail_dbkBody (by omega)
  refine State.bodyChecks_of_match .dbk ?_ (Nat.le_refl _)
  rw [hrest]
  show s.total ≤ _
  omega

/-- Settles O45: the header raises, or the body's checks do, or the rows before the first unknown selector are
appended. -/
theorem dbkFailuresInOrder : Obligations.DbkFailuresInOrder := by
  intro s p h hin hout
  refine ⟨fun hshort => ?_, fun hhead hbad => ?_, fun havail hw hh y hy hgood hH hV hA => ?_⟩
  · exact ⟨_, exec_dbk_of_raise hin hout (State.turn_header_truncated (s := s.dbkStart) rfl hshort), dbk_failed rfl⟩
  · by_cases hmis : (s.dbkStart.consume 8).hdrMismatch (s.headerField 4) (s.headerField 6)
    · have hturn : s.dbkStart.turn = { s.dbkStart.consume 8 with depth := s.headerField 2 }.raise .dbk .sizeMismatch :=
        (State.turn_header (s := s.dbkStart) rfl hhead).trans (State.dbkHdr_of_mismatch hmis)
      exact ⟨_, exec_dbk_of_raise hin hout hturn, dbk_failed rfl⟩
    · rw [State.hdrMismatch_iff hhead, not_or, not_not, Nat.not_lt] at hmis
      obtain ⟨hfits, havail⟩ := hmis
      have hshort : s.avail < 8 + s.height.toNat + s.total :=
        (hbad.resolve_left fun hw => hw hfits.1).resolve_left fun hh => hh hfits.2
      have hpayload : s.dbkBody.avail < s.dbkBody.total := by
        rw [State.avail_dbkBody havail]
        show _ < s.total
        omega
      have hrun : runToEnd (s.height.toNat + 1) (s.dbkBody.bodyChecks .dbk) =
          some (s.dbkBody.raise .dbk .sizeMismatch) := by
        rw [State.bodyChecks_of_mismatch .dbk (.inl hpayload)]
        exact runToEnd_of_host (State.raise_phase _ _ _) _
      exact ⟨_, exec_dbk_of_fits hin hout havail hfits hrun, dbk_failed rfl⟩
  · have hrows : ∃ n u, Copied n s.dbkRows u ∧ runToEnd (h + 1) s.dbkRows =
        some (u.raise .dbk (.unknownDeltaFilter (s.inByte (p + 8 + y)))) := by
      have hsel (x : Nat) (hx : x < h) : s.dbkRows.selByte x = s.inByte (p + 8 + x) := State.selByte_dbkBody hx
      have hbad : ¬ knownSelector (s.inByte (p + 8 + y)) := by simp [knownSelector, hH, hV, hA]
      have hrow : s.dbkRows.row + y = y := Nat.zero_add y
      have hend := rows_fail (c := .dbk) y (s := s.dbkRows) (k := h + 1) rfl (hrow.symm ▸ hy) (by omega)
        (fun x _ hx => by rw [hrow] at hx; rw [hsel x (hx.trans hy)]; exact hgood x hx)
        (by rw [hrow, hsel y hy]; exact hbad)
      rwa [hrow, hsel y hy] at hend
    obtain ⟨n, u, hcopy, hrun⟩ := hrows
    rw [← State.bodyChecks_dbkBody havail] at hrun
    refine ⟨_, exec_dbk_of_fits hin hout (Nat.le_of_add_right_le havail) ⟨hw, hh⟩ hrun, dbk_failed ?_⟩
    rw [hcopy.frame]
    rfl

/-! ### `DBK` and `DLF` -/

/-- The same place in the row loop, as a `DBK` whose header gave the depth `d`. -/
def State.asBlock (s : State) (d : Half) : State := { s with phase := .rows .dbk, depth := d }

/-- A row looks neither at the command nor at the depth. -/
theorem State.rowTurns_asBlock (s : State) (d : Half) (code : Byte) : ∀ k,
    (s.asBlock d).rowTurns (State.deltaValue code) k = (s.rowTurns (State.deltaValue code) k).asBlock d
  | 0 => rfl
  | k + 1 => by
    rw [State.rowTurns_succ, State.rowTurns_succ, s.rowTurns_asBlock d code k]
    rfl

theorem State.deltaRows_asBlock (d : Half) : ∀ n (s : State), (s.asBlock d).deltaRows n = (s.deltaRows n).asBlock d
  | 0, _ => rfl
  | n + 1, s => by
    have hrow : (s.asBlock d).deltaRow (State.deltaValue (s.selByte s.row)) =
        (s.deltaRow (State.deltaValue (s.selByte s.row))).asBlock d := by
      have hstride : (s.asBlock d).stride = s.stride := rfl
      rw [State.deltaRow_eq, State.deltaRow_eq, hstride, s.rowTurns_asBlock]
      rfl
    rw [State.deltaRows, State.deltaRows, ← State.deltaRows_asBlock d n, ← hrow]
    rfl

/-- A `DBK` on a good block makes its rows and completes (R188). -/
theorem exec_dbk_rows {s : State} (hin : s.inLen.toNat ≤ s.inCap) (hout : s.total ≤ s.outCap)
    (havail : 8 + s.height.toNat + s.total ≤ s.avail) (hfits : s.headerFits)
    (hgood : ∀ y, y < s.height.toNat → knownSelector (s.inByte (s.ipos.toNat + 8 + y))) :
    exec .dbk s = .next ((s.dbkRows.deltaRows s.height.toNat).consume s.total).complete := by
  refine exec_dbk_of_fits hin hout (Nat.le_of_add_right_le havail) hfits ?_
  rw [State.bodyChecks_dbkBody havail]
  refine runToEnd_rows (c := .dbk) _ rfl (Nat.zero_add _) (Nat.lt_succ_self _) fun y _ hy => ?_
  have hrow : y < s.height.toNat := hy.trans_eq (Nat.zero_add _)
  have hsel : s.dbkRows.selByte y = s.inByte (s.ipos.toNat + 8 + y) := State.selByte_dbkBody hrow
  exact hsel ▸ hgood y hrow

/-- The state that leaves to `DLF` what a block holds after its header (R188, R189). -/
def State.payloadState (s : State) : State :=
  { s with
    ipos := s.ipos + BitVec.ofNat 32 (8 + s.height.toNat), selLen := s.height,
    selBuf := loadedSelectors s (s.ipos.toNat + 8) s.height.toNat }

/-- Settles O44: both commands make the same rows, in which the depth has no part. -/
theorem dbkIsDlfOnThePayload : Obligations.DbkIsDlfOnThePayload := by
  intro s p h hin hout havail hw hh hgood
  have hhead : 8 + h ≤ s.avail := Nat.le_of_add_right_le havail
  have hipos : s.payloadState.ipos.toNat = p + (8 + h) := State.ipos_consume hhead
  have hrest : s.payloadState.avail = s.avail - (8 + h) := State.avail_consume hhead
  have hpayload : s.total ≤ s.payloadState.avail := by omega
  have hsel (y : Nat) (hy : y < h) : s.payloadState.selByte y = s.inByte (p + 8 + y) := State.selByte_dbkBody hy
  have hgoodSel (y : Nat) (hy : y < h) : knownSelector (s.payloadState.selByte y) := hsel y hy ▸ hgood y hy
  have hdlf := exec_dlf_rows (s := s.payloadState) hin hout hpayload (Nat.le_refl h) hgoodSel
  have hdbk := exec_dbk_rows hin hout havail ⟨hw, hh⟩ hgood
  have hrows : s.dbkRows.deltaRows h = (s.payloadState.dlfRows.deltaRows h).asBlock (s.headerField 2) :=
    State.deltaRows_asBlock _ h s.payloadState.dlfRows
  obtain ⟨t, hexec, hframe, -⟩ := dlfReconstructsImage s.payloadState hin hout hpayload (Nat.le_refl h) hgoodSel
  refine ⟨t, hexec, by rw [hframe], ?_, ?_⟩
  · have hend : t.ipos = (s.payloadState.consume s.total).ipos := by rw [hframe]; rfl
    rw [hend, State.ipos_consume hpayload, hipos]
    omega
  · rw [hdbk, hrows, Host.Outcome.next.inj (hexec.symm.trans hdlf)]
    rfl

end Sys2Proof.Machine

/-!
PROOFS. The command `CLR` (45_system_commands.md R196).
-/
namespace Sys2Proof.Machine

/-- `CLR` has no pre-start check and cannot fail (R196). -/
theorem exec_clr (s : State) : exec .clr s = .next s.clearRegisters := rfl

/-- Clearing the registers a second time changes nothing. -/
@[simp] theorem State.clearRegisters_idem (s : State) : s.clearRegisters.clearRegisters = s.clearRegisters := rfl

/-- Settles O16: the next state has cleared registers, which all read 0, and clearing them is the whole change. -/
theorem clrRestoresRegisters : Obligations.ClrRestoresRegisters := by
  intro s
  exact ⟨s.clearRegisters, exec_clr s, State.readReg_of_cleared s.clearRegisters_idem.symm, rfl⟩

end Sys2Proof.Machine

/-!
PROOFS. The pre-start checks (60_exceptions.md R216). Each command makes them one after the other, and every one of them
refuses with the same state, so which of them is met first makes no difference.
-/
namespace Sys2Proof.Machine

/-! ### A check that refuses -/

/-- A command is refused where its second check holds: the first one either refuses too or lets the second decide. -/
theorem refuseIf_of_second {c d : Prop} [Decidable c] [Decidable d] {s : State}
    {o : Host.Outcome State Fault Refusal} (h : d) :
    (if c then .next s.refuse else if d then .next s.refuse else o) = .next s.refuse := by
  rw [if_pos h, ite_self]

/-- The same of a third check. -/
theorem refuseIf_of_third {b c d : Prop} [Decidable b] [Decidable c] [Decidable d] {s : State}
    {o : Host.Outcome State Fault Refusal} (h : d) :
    (if b then .next s.refuse else if c then .next s.refuse else if d then .next s.refuse else o) =
      .next s.refuse := by
  rw [refuseIf_of_second h, ite_self]

/-! ### A stream over `IN_CAP` -/

theorem exec_bget_of_stream_over {s : State} (h : s.inCap < s.inLen.toNat) (n : BitVec 6) :
    exec (.bget n) s = .next s.refuse := refuseIf_of_second h

/-- The size of the stream is the first check of every decode command. -/
theorem exec_decode_of_stream_over {s : State} (h : s.inCap < s.inLen.toNat) {i : Instr}
    (hi : i ∈ [Instr.lzd, .rld, .cup, .dlf, .dbk]) : exec i s = .next s.refuse := by
  simp only [List.mem_cons, List.not_mem_nil, or_false] at hi
  rcases hi with rfl | rfl | rfl | rfl | rfl <;> exact if_pos h

/-! ### An output over `OUT_CAP` -/

theorem exec_lzd_of_output_over {s : State} (h : s.outCap < s.outLen.toNat) : exec .lzd s = .next s.refuse :=
  refuseIf_of_second h

/-- The commands whose output is the image of the three dimensions. -/
theorem exec_image_of_output_over {s : State} (h : s.outCap < s.total) {i : Instr}
    (hi : i ∈ [Instr.rld, .dlf, .dbk]) : exec i s = .next s.refuse := by
  simp only [List.mem_cons, List.not_mem_nil, or_false] at hi
  rcases hi with rfl | rfl | rfl <;> exact refuseIf_of_second h

theorem exec_cup_of_output_over {s : State} (h : s.outCap < s.cupTotal) : exec .cup s = .next s.refuse :=
  refuseIf_of_third h

/-! ### The statement -/

/-- Settles O46: one lemma for each row of R216's table. -/
theorem preStartChecksRefuse : Obligations.PreStartChecksRefuse := by
  intro s
  have hcup : 3 * s.width.toNat * s.height.toNat = s.cupTotal := by
    rw [State.cupTotal, Nat.mul_assoc, Nat.mul_comm]
  exact ⟨fun c hc => writeCommand_of_illegal hc s,
    fun hin => ⟨exec_bget_of_stream_over hin, fun i => exec_decode_of_stream_over hin⟩,
    exec_cup_of_odd,
    exec_lzd_of_output_over,
    fun hout i => exec_image_of_output_over hout,
    fun hout => exec_cup_of_output_over (hcup ▸ hout)⟩

end Sys2Proof.Machine

/-!
PROOFS. The canonical form of the buffers, addresses strictly rising (log entry 4). Only the buffers matter to it, and
each way of changing one makes a canonical buffer of a canonical buffer, so it is a storage invariant.
-/
namespace Sys2Proof.Machine

/-- Settles O52: the buffers of the reset state list nothing. -/
theorem resetBuffersCanonical : Obligations.ResetBuffersCanonical := ⟨Mem.wf_nil, Mem.wf_nil, Mem.wf_nil⟩

/-- The canonical form of all three buffers is a storage invariant. -/
theorem storageInvariant_memOk : StorageInvariant State.memOk where
  congr := by
    intro s t hs h
    simp only [State.storage, Prod.mk.injEq] at h
    obtain ⟨hin, hsel, hout, -, -⟩ := h
    rwa [State.memOk, hin, hsel, hout]
  writeIn := fun v _ ⟨hin, hsel, hout⟩ => ⟨Mem.wf_write hin _ v, hsel, hout⟩
  writeSel := fun v _ ⟨hin, hsel, hout⟩ => ⟨hin, Mem.wf_write hsel _ v, hout⟩
  writeOut := fun a v ⟨hin, hsel, hout⟩ => ⟨hin, hsel, Mem.wf_write hout a v⟩
  zeroOut := fun n ⟨hin, hsel, _⟩ => ⟨hin, hsel, Mem.wf_zeros n⟩
  forgetIn := fun ⟨_, hsel, hout⟩ => ⟨Mem.wf_nil, hsel, hout⟩
  forgetSel := fun ⟨hin, _, hout⟩ => ⟨hin, Mem.wf_nil, hout⟩
  forgetOut := fun ⟨hin, hsel, _⟩ => ⟨hin, hsel, Mem.wf_nil⟩

/-- Settles O53: the canonical form is a storage invariant, so every step keeps it. -/
theorem stepKeepsBuffersCanonical : Obligations.StepKeepsBuffersCanonical :=
  fun _ _ hs h => storageInvariant_memOk.step hs h

end Sys2Proof.Machine

/-!
PROOFS. The host's reads of `OUT` that the spec does not permit (20_memory.md R78, 93_implementation_defined.md U8).
-/
namespace Sys2Proof.Machine

/-- Without `OUTV`, or at or beyond `OUT_LEN`, the host may not read the byte (R78). -/
theorem State.outReadable_of_unpermitted {s : State} {a : Nat} (h : s.outv = false ∨ s.outLen.toNat ≤ a) :
    s.outReadable a = none := by
  refine if_neg ?_
  rintro ⟨hv, ha⟩
  rcases h with hv' | ha'
  · rw [hv] at hv'
    cases hv'
  · exact absurd ha (Nat.not_lt.mpr ha')

/-- A read of a byte that is not there to read returns a free value, and the counter behind free values advances (log
entry 5). -/
theorem hostReadOut_of_unreadable {s : State} {a : Nat} (h : s.outReadable a = none) :
    hostReadOut a s = .next { s with
      readData := some ((Config.freeOutRead s.fresh).setWidth 32), fresh := s.fresh + 1 } := by
  rw [hostReadOut, h]

/-- Settles O13: the pending read is performed, and it is one that the spec does not permit. -/
theorem unpermittedOutReadGoesOn : Obligations.UnpermittedOutReadGoesOn := by
  intro s rest a hp hpend h
  refine ⟨(Config.freeOutRead s.fresh).setWidth 32, ?_⟩
  rw [step_pending hp hpend]
  exact hostReadOut_of_unreadable (s := { s with pending := rest }) (State.outReadable_of_unpermitted h)

end Sys2Proof.Machine

/-!
PROOFS. Empty outputs (70_reset_and_hazards.md R246). A decode command whose output is empty has nothing to do after its
start: the first loop test, or the loop over no rows, completes it, and an output of no bytes holds nothing.
-/
namespace Sys2Proof.Machine

/-- What a decode command leaves that had no byte to write: a completed command and an empty output (R246). -/
def State.completedEmpty (s : State) : State :=
  { s with
    st := .done, outv := true, err := none, errInfo := 0#32, outLen := 0#32, opos := 0#32, outBuf := [],
    phase := .host, row := 0 }

/-- A started command that declares no output, completed as it stands. -/
theorem State.complete_startDecode_zero (s : State) (p : Phase) :
    (s.startDecode 0#32 p).complete = s.completedEmpty := rfl

/-- A buffer in which no address reads a byte lists nothing. -/
theorem Mem.eq_nil_of_read : ∀ {m : Mem}, (∀ a, m.read a = none) → m = []
  | [], _ => rfl
  | (b, v) :: m, h => by
    have hread := h b
    rw [Mem.read_cons, if_pos rfl] at hread
    cases hread

/-- A stream command that its first turn ends. -/
theorem runCommand_of_one_turn {s t : State} (k : Nat) (hturn : s.turn = t) (hend : t.phase = .host) :
    runCommand (k + 1) s = .next t := by
  rw [runCommand_eq_next, runToEnd_succ, hturn]
  exact runToEnd_of_host hend k

/-- `LZD` with no output to fill: only the control word is written beside it (R140). -/
theorem exec_lzd_of_empty {s : State} (hin : s.inLen.toNat ≤ s.inCap) (h : s.outLen = 0#32) :
    exec .lzd s = .next { s.completedEmpty with ctl := 0x0000#16 } := by
  have hcap : ¬ s.outCap < s.outLen.toNat := by
    rw [h]
    exact Nat.not_lt_zero _
  have hstart : s.lzdStart = { s.startDecode 0#32 .lzd with ctl := 0x0000#16 } := by rw [State.lzdStart, h]
  have hturn : s.lzdStart.turn = s.lzdStart.complete := State.turn_lzd_full rfl h.symm
  rw [exec, execLzd, if_neg (Nat.not_lt.mpr hin), if_neg hcap]
  refine (runCommand_of_one_turn _ hturn rfl).trans ?_
  rw [hstart]
  rfl

/-- `RLD` over an image of no bytes (R160, R164). -/
theorem exec_rld_of_empty {s : State} (hin : s.inLen.toNat ≤ s.inCap) (h : s.total = 0) :
    exec .rld s = .next s.completedEmpty := by
  have hcap : ¬ s.outCap < s.total := by
    rw [h]
    exact Nat.not_lt_zero _
  have hstart : s.rldStart = s.startDecode 0#32 .rld := by rw [State.rldStart, h]
  have hturn : (s.startDecode 0#32 .rld).turn = s.completedEmpty :=
    (State.turn_rld_full rfl rfl).trans (s.complete_startDecode_zero _)
  rw [exec, execRld, if_neg (Nat.not_lt.mpr hin), if_neg hcap, hstart]
  exact runCommand_of_one_turn _ hturn rfl

/-- An image with no pixels needs no byte of input, whichever dimension is 0 (R171). -/
theorem State.cupNeed_of_empty {s : State} (h : s.width.toNat * s.height.toNat = 0) : s.cupNeed = 0 := by
  have hchroma : 2 * (s.width.toNat / 2) * (s.height.toNat / 2) = 0 := by
    rcases Nat.mul_eq_zero.mp h with h0 | h0 <;> simp [h0]
  rw [State.cupNeed, h, hchroma]

/-- `CUP` over an image with a dimension 0 (R176). -/
theorem exec_cup_of_empty {s : State} (hin : s.inLen.toNat ≤ s.inCap) (hw : s.width.toNat % 2 = 0)
    (hh : s.height.toNat % 2 = 0) (h : s.width.toNat * s.height.toNat = 0) :
    exec .cup s = .next s.completedEmpty := by
  have htotal : s.cupTotal = 0 := by rw [State.cupTotal, h, Nat.zero_mul]
  have hneed : s.cupNeed = 0 := State.cupNeed_of_empty h
  have hcap : s.cupTotal ≤ s.outCap := htotal.trans_le (Nat.zero_le _)
  obtain ⟨hframe, hread⟩ := State.cup_completed hcap (hneed.trans_le (Nat.zero_le _))
  have hout : s.cup.outBuf = [] :=
    Mem.eq_nil_of_read fun a => (hread a).trans (if_neg (by rw [htotal]; exact Nat.not_lt_zero a))
  rw [hout, htotal, hneed, BitVec.add_zero] at hframe
  rw [exec_cup hin hw hh hcap, hframe]
  rfl

/-- `DLF` over an image without rows: no selector is looked at (R183, R191). -/
theorem exec_dlf_of_empty {s : State} (hin : s.inLen.toNat ≤ s.inCap) (h : s.height = 0#16) :
    exec .dlf s = .next s.completedEmpty := by
  have hheight : s.height.toNat = 0 := congrArg BitVec.toNat h
  have htotal : s.total = 0 := by rw [State.total, hheight, Nat.mul_zero, Nat.zero_mul]
  have hexec := exec_dlf_rows hin (htotal.trans_le (Nat.zero_le _)) (htotal.trans_le (Nat.zero_le _))
    (hheight.trans_le (Nat.zero_le _)) fun y hy => absurd hy (by omega)
  have hrows : s.dlfRows = s.startDecode 0#32 (.rows .dlf) := by
    rw [State.dlfRows, State.dlfStart, htotal]
    rfl
  have hpayload (u : State) : u.consume 0 = u := by rw [State.consume, BitVec.add_zero]
  rw [hexec, hheight, htotal, hpayload, hrows, State.deltaRows, State.complete_startDecode_zero]

/-- Settles O47: one lemma for each command. -/
theorem emptyOutputCompletes : Obligations.EmptyOutputCompletes := by
  intro s hin
  exact ⟨exec_lzd_of_empty hin, exec_rld_of_empty hin, exec_cup_of_empty hin, exec_dlf_of_empty hin⟩

end Sys2Proof.Machine

/-!
PROOFS. The commands from the reset values of the registers (70_reset_and_hazards.md R237): the stream is empty and so
is every image, so each command's outcome is that of its rule for an empty stream or an empty output.
-/
namespace Sys2Proof.Machine

/-- The decode commands but `DBK` have no output to fill (R237, R246). -/
theorem exec_decode_of_cleared {s : State} (hs : s = s.clearRegisters) {i : Instr}
    (hi : i ∈ [Instr.lzd, .rld, .cup, .dlf]) :
    exec i s = .next { s with st := .done, outv := true, outBuf := [], phase := .host, row := 0 } := by
  obtain ⟨u, rfl⟩ : ∃ u : State, s = u.clearRegisters := ⟨s, hs⟩
  have hin : u.clearRegisters.inLen.toNat ≤ u.clearRegisters.inCap := Nat.zero_le _
  simp only [List.mem_cons, List.not_mem_nil, or_false] at hi
  rcases hi with rfl | rfl | rfl | rfl
  · exact exec_lzd_of_empty hin rfl
  · exact exec_rld_of_empty hin rfl
  · exact exec_cup_of_empty hin rfl rfl rfl
  · exact exec_dlf_of_empty hin rfl

/-- Settles O15: `BGET` and `DBK` find an empty stream (R131, R215), the others an empty output. -/
theorem commandsFromResetRegisters : Obligations.CommandsFromResetRegisters := by
  intro s hs
  obtain ⟨u, rfl⟩ : ∃ u : State, s = u.clearRegisters := ⟨s, hs⟩
  let v : State := u.clearRegisters
  have hin : v.inLen.toNat ≤ v.inCap := Nat.zero_le _
  have hout : v.total ≤ v.outCap := Nat.zero_le _
  refine ⟨?_, fun n hpos hn => ?_, fun i => exec_decode_of_cleared hs, ?_, exec_clr v⟩
  · have hexec : exec (.bget 0#6) v = .next (v.bget 0) := exec_bget (Nat.zero_le _) hin
    rw [hexec, State.bget_of_le (Nat.zero_le _)]
    rfl
  · exact (bgetFailsConsumingNothing n v).1 hn hin hpos
  · exact (dbkFailuresInOrder v hin hout).1 (Nat.succ_pos 7)

end Sys2Proof.Machine
